-- ==== Sys2Proof/Word.lean ====
section
/-! DEFINITION. The words of SFSV: bytes, raw values, request, response and read-port words
(spec/00_scope.md R10, spec/30_encoding.md R80 and R84, spec/10_state.md R44). -/

namespace Sys2Proof

/-- A byte: 8 bits, unsigned, bit 7 the most significant (R10). -/
abbrev Byte := BitVec 8

/-- A 16-bit quantity: an intensity raw value, `CNT`, `ATTEMPTS`, `info`. -/
abbrev Half := BitVec 16

/-- A 32-bit quantity: a range raw value. -/
abbrev Word := BitVec 32

/-- A request word `req[23:0]` (R80). -/
abbrev ReqWord := BitVec 24

/-- A response word `rsp[19:0]` (R84). -/
abbrev RspWord := BitVec 20

/-- What the read port returns: a value zero-extended to 48 bits (R44). -/
abbrev ReadWord := BitVec 48

end Sys2Proof
end

