-- ==== Sys2Proof/Syntax.lean ====
section
/-! DEFINITION. The 13 operations the host can ask of the engine, one constructor per row of
spec/opcode_table.json, with the operands of spec/30_encoding.md R82. -/

namespace Sys2Proof

/-- The recorded device mode (spec/10_state.md R28): Sync is code 0, Normal code 1. -/
inductive Mode where
  | sync
  | normal
deriving DecidableEq, Repr, Inhabited

/-- The distance configuration (R28): Short is code 0, Long code 1. -/
inductive Dist where
  | short
  | long
deriving DecidableEq, Repr, Inhabited

/-- The rate configuration (R28): Low is code 0, High code 1. -/
inductive Rate where
  | low
  | high
deriving DecidableEq, Repr, Inhabited

/-- An operation (spec/30_encoding.md R81). Every operand type holds exactly the values R82 calls legal. -/
inductive Instr where
  /-- `ENC c, v` (R110): encode a command frame into the Frame Buffer. -/
  | enc (c v : Byte)
  /-- `XFER` (R112): one full-frame duplex transfer. -/
  | xfer
  /-- `SKIPN n` (R120): `n` discard transfers. -/
  | skipn (n : Half)
  /-- `SKIPV` (R121): a length byte, then that many discards. -/
  | skipv
  /-- `SYNC` (R122): force the device into a known framing state. -/
  | sync
  /-- `SETMODE m` (R135): record and send the device mode. -/
  | setmode (m : Mode)
  /-- `CONFIG d, r` (R136): record and send the distance and rate configuration. -/
  | config (d : Dist) (r : Rate)
  /-- `VAL` (R151): classify the frame now in the Frame Buffer. -/
  | val
  /-- `ACQ` (R152): obtain a validated frame. -/
  | acq
  /-- `RDR` (R177): read the range scalar. -/
  | rdr
  /-- `RDI` (R178): read the intensity scalar. -/
  | rdi
  /-- `RDRG` (R179): read the 32-cell range grid. -/
  | rdrg
  /-- `RDIG` (R180): read the 32-cell intensity grid. -/
  | rdig
deriving DecidableEq, Repr, Inhabited

end Sys2Proof
end

