-- ==== Sys2Proof/WellFormed.lean ====
section
/-! DEFINITION. Which request words are legal, as spec/30_encoding.md R83 lists the illegal ones, condition
by condition. Every term of `Instr` is well formed by its type (R82 calls every value of every operand
legal), so the check is on the word. -/

namespace Sys2Proof

namespace Request

/-- The operation code `req[23:16]` (R80). -/
def op (w : ReqWord) : Byte := w.extractLsb' 16 8

/-- The first operand byte `req[15:8]` (R80). -/
def a (w : ReqWord) : Byte := w.extractLsb' 8 8

/-- The second operand byte `req[7:0]` (R80). -/
def b (w : ReqWord) : Byte := w.extractLsb' 0 8

/-- R83 (a): `op` is 0x00 or 0x0E..0xFF. -/
def unassignedOp (w : ReqWord) : Bool := op w = 0x00 || 0x0E ≤ (op w).toNat

/-- The operations that take no operand: 0x02, 0x04, 0x05, 0x08..0x0D (R83 (b)). -/
def takesNoOperand (w : ReqWord) : Bool :=
  op w = 0x02 || op w = 0x04 || op w = 0x05 || (0x08 ≤ (op w).toNat && (op w).toNat ≤ 0x0D)

/-- R83 (b): an operation without operands and `A != 0` or `B != 0`. -/
def strayOperand (w : ReqWord) : Bool := takesNoOperand w && (a w ≠ 0 || b w ≠ 0)

/-- R83 (c): `op` = 0x06 and (`A != 0` or `B[7:1] != 0`). -/
def badSetmode (w : ReqWord) : Bool := op w = 0x06 && (a w ≠ 0 || (b w).extractLsb' 1 7 ≠ 0)

/-- R83 (d): `op` = 0x07 and (`A[7:1] != 0` or `B[7:1] != 0`). -/
def badConfig (w : ReqWord) : Bool :=
  op w = 0x07 && ((a w).extractLsb' 1 7 ≠ 0 || (b w).extractLsb' 1 7 ≠ 0)

/-- A request word is illegal when one of R83's four conditions holds. -/
def illegal (w : ReqWord) : Bool := unassignedOp w || strayOperand w || badSetmode w || badConfig w

/-- A request word that names one of the 13 operations. -/
def legal (w : ReqWord) : Bool := !illegal w

end Request

end Sys2Proof
end

