-- ==== Sys2Proof/Decode.lean ====
section
/-! DEFINITION. The request decoder, a table of match and mask values read from spec/30_encoding.md R81,
total on all 2^24 words; and the encoder, written from the same table and the operand assembly of R82. -/

namespace Sys2Proof

/-- The code of a mode in an operand bit (R82): Sync 0, Normal 1. -/
def modeCode : Mode → BitVec 1
  | .sync => 0
  | .normal => 1

/-- The code of a distance in an operand bit (R82): Short 0, Long 1. -/
def distCode : Dist → BitVec 1
  | .short => 0
  | .long => 1

/-- The code of a rate in an operand bit (R82): Low 0, High 1. -/
def rateCode : Rate → BitVec 1
  | .low => 0
  | .high => 1

/-- The mode an operand bit names. -/
def modeOfBit (x : Bool) : Mode := if x then .normal else .sync

/-- The distance an operand bit names. -/
def distOfBit (x : Bool) : Dist := if x then .long else .short

/-- The rate an operand bit names. -/
def rateOfBit (x : Bool) : Rate := if x then .high else .low

/-- The match value of each of R81's 13 rows, with the mask that selects the row. -/
def opcodeRows : List (ReqWord × ReqWord) :=
  [ (0x010000, 0xFF0000),  -- ENC
    (0x020000, 0xFFFFFF),  -- XFER
    (0x030000, 0xFF0000),  -- SKIPN
    (0x040000, 0xFFFFFF),  -- SKIPV
    (0x050000, 0xFFFFFF),  -- SYNC
    (0x060000, 0xFFFFFE),  -- SETMODE
    (0x070000, 0xFFFEFE),  -- CONFIG
    (0x080000, 0xFFFFFF),  -- VAL
    (0x090000, 0xFFFFFF),  -- ACQ
    (0x0A0000, 0xFFFFFF),  -- RDR
    (0x0B0000, 0xFFFFFF),  -- RDI
    (0x0C0000, 0xFFFFFF),  -- RDRG
    (0x0D0000, 0xFFFFFF) ] -- RDIG

/-- A row of R81 selects a word: `req & mask == match`. -/
def rowSelects (row : ReqWord × ReqWord) (w : ReqWord) : Bool := w &&& row.2 = row.1

/-- The operation of a word whose row is found, with the operands of R82 taken from the word. -/
def operationOf (w : ReqWord) (row : ReqWord × ReqWord) : Option Instr :=
  let op := row.1.extractLsb' 16 8
  if op = 0x01 then some (.enc (w.extractLsb' 8 8) (w.extractLsb' 0 8))
  else if op = 0x02 then some .xfer
  else if op = 0x03 then some (.skipn (w.extractLsb' 0 16))
  else if op = 0x04 then some .skipv
  else if op = 0x05 then some .sync
  else if op = 0x06 then some (.setmode (modeOfBit (w.getLsbD 0)))
  else if op = 0x07 then some (.config (distOfBit (w.getLsbD 8)) (rateOfBit (w.getLsbD 0)))
  else if op = 0x08 then some .val
  else if op = 0x09 then some .acq
  else if op = 0x0A then some .rdr
  else if op = 0x0B then some .rdi
  else if op = 0x0C then some .rdrg
  else if op = 0x0D then some .rdig
  else none

/-- Decode a request word: the operation of the row that selects it, `none` where no row does (the word is
illegal, R83, and the block answers it `ILLEGAL`). -/
def decode (w : ReqWord) : Option Instr :=
  (opcodeRows.find? (fun row => rowSelects row w)).bind (operationOf w)

/-- The operation code of R81. -/
def opcode : Instr → Byte
  | .enc _ _ => 0x01
  | .xfer => 0x02
  | .skipn _ => 0x03
  | .skipv => 0x04
  | .sync => 0x05
  | .setmode _ => 0x06
  | .config _ _ => 0x07
  | .val => 0x08
  | .acq => 0x09
  | .rdr => 0x0A
  | .rdi => 0x0B
  | .rdrg => 0x0C
  | .rdig => 0x0D

/-- The operand bits `req[15:0]` = `{A, B}` of R81 and R82. -/
def operandBits : Instr → Half
  | .enc c v => c ++ v
  | .xfer => 0
  | .skipn n => n
  | .skipv => 0
  | .sync => 0
  | .setmode m => (modeCode m).setWidth 16
  | .config d r => (distCode d).setWidth 8 ++ (rateCode r).setWidth 8
  | .val => 0
  | .acq => 0
  | .rdr => 0
  | .rdi => 0
  | .rdrg => 0
  | .rdig => 0

/-- The request word of an operation (R80, R81): `{op, A, B}`. -/
def encode (i : Instr) : ReqWord := opcode i ++ operandBits i

/-- The instruction the decoder reads from a table row's word: the low `nbits` bits of `w`, every bit above
them 0, as one 24-bit request word (every request is one word long, R80). -/
def decodeTableWord (nbits w : Nat) : Option Instr := decode (BitVec.ofNat 24 (w % 2 ^ nbits))

end Sys2Proof
end

