-- ==== Sys2Proof/Config.lean ====
section
/-! DEFINITION. What is fixed for one block: the parameters the source fixes (spec/00_scope.md R8), the
parameters it leaves open (R9) as a record of plain data, and the free values of the model, each an
opaque constant with no body. -/

namespace Sys2Proof

namespace Config

/-- `FRAME_SIZE` (R8). -/
def frameSize : Nat := 256
/-- `CMD_HEADER` (R8). -/
def cmdHeader : Byte := 0xEB
/-- `CMD_LENGTH` (R8). -/
def cmdLength : Byte := 0x01
/-- `CMD_TAIL` (R8). -/
def cmdTail : Byte := 0xED
/-- `CMD_BYTES` (R8). -/
def cmdBytes : Nat := 5
/-- `RSP_MAGIC` (R8). -/
def rspMagic : Byte := 0xE9
/-- `OFF_SEQ_LEAD` (R8). -/
def offSeqLead : Nat := 1
/-- `OFF_SEQ_TRAIL` (R8). -/
def offSeqTrail : Nat := 255
/-- `OFF_RANGE` (R8). -/
def offRange : Nat := 4
/-- `OFF_INTENSITY` (R8). -/
def offIntensity : Nat := 8
/-- `OFF_RANGE_GRID` (R8). -/
def offRangeGrid : Nat := 10
/-- `OFF_INTENSITY_GRID` (R8): 10 + 128. -/
def offIntensityGrid : Nat := 138
/-- `GRID_ROWS` (R8). -/
def gridRows : Nat := 4
/-- `GRID_COLS` (R8). -/
def gridCols : Nat := 8
/-- `N_CELLS` (R8). -/
def nCells : Nat := 32
/-- `RANGE_INT_SCALE` (R8). -/
def rangeIntScale : Nat := 1000
/-- `RANGE_FRAC_SCALE` (R8): the decimal 0.00023842 as written, 23842 / 10^8 (spec/93 U9). -/
def rangeFracScale : Rat := 23842 / 100000000
/-- `INTENSITY_FRAC_SCALE` (R8): 0.0625 = 1/16. -/
def intensityFracScale : Rat := 1 / 16
/-- `T_SETTLE_MS` (R8). -/
def tSettleMs : Nat := 500
/-- `BUS_HZ` (R8): a property the collaborator must have; no rule of the model depends on it. -/
def busHz : Nat := 8000000

end Config

/-- The open parameters of R9, as plain data. A state carries one such record and no step changes it, so a
theorem about every state holds for every value of every parameter (log 4). -/
structure Params where
  /-- `CMD_MODE`. -/
  cmdMode : Byte
  /-- `MODE_VAL(Sync)`. -/
  modeValSync : Byte
  /-- `MODE_VAL(Normal)`. -/
  modeValNormal : Byte
  /-- `CMD_DISTANCE`. -/
  cmdDistance : Byte
  /-- `DIST_VAL(Short)`. -/
  distValShort : Byte
  /-- `DIST_VAL(Long)`. -/
  distValLong : Byte
  /-- `RATE_CMD(Low)`. -/
  rateCmdLow : Byte
  /-- `RATE_CMD(High)`. -/
  rateCmdHigh : Byte
  /-- `RATE_ARG`. -/
  rateArg : Byte
  /-- `SKIP_FILL`, decided 0x00 (spec/92 D8). -/
  skipFill : Byte
  /-- `MAX_ATTEMPTS`; 0 means unbounded. -/
  maxAttempts : Half
  /-- `BUS_MODE`, clock polarity and phase; no rule depends on it (spec/93 U12). -/
  busMode : BitVec 2
  /-- `FB_RESET`, the contents of the Frame Buffer after reset. -/
  fbReset : Vector Byte 256
deriving DecidableEq, Repr, Inhabited

/-- `FLT` (R9, spec/44 R176): the numerics record of the float view. It is an argument of the two float
views and no part of any state. -/
structure Flt where
  /-- The carrier type of the floating-point numbers. -/
  Carrier : Type
  /-- Conversion from an unsigned integer. -/
  ofNat : Nat → Carrier
  /-- Conversion from a rational constant. -/
  ofRat : Rat → Carrier
  /-- Multiplication, with the record's rounding. -/
  mul : Carrier → Carrier → Carrier
  /-- Addition, with the record's rounding. -/
  add : Carrier → Carrier → Carrier
  /-- The literal 0.00023842 as the record represents it. -/
  K : Carrier

/-- The record whose arithmetic is exact: the rationals, which the spec calls normative (spec/92 D5). -/
def Flt.exact : Flt where
  Carrier := Rat
  ofNat n := n
  ofRat q := q
  mul x y := x * y
  add x y := x + y
  K := Config.rangeFracScale

namespace Config

/-- The parameters of the installed block: no number is known (spec/92 D11, D13, D16). -/
opaque implementation : Params

/-- The parameters State.reset carries: those of the installation, with `SKIP_FILL` = 0x00 (spec/92 D8, log 5). -/
def installed : Params := { implementation with skipFill := 0x00 }

/-- FREE VALUE (log 1): whether the transfer that draws index `k` fails, where the environment's script is at
its end (spec/93 U11). -/
opaque freeFail : Nat → Bool

/-- FREE VALUE (log 1): the byte received at draw `k`, where the script is at its end (spec/93 U1). -/
opaque freeRx : Nat → Byte

/-- FREE VALUE (log 9): byte `i` of the Frame Buffer after the failed buffer transfer of draw `k` (spec/93 U5). -/
opaque freeFrameByte : Nat → Nat → Byte

/-- FREE VALUE (log 8): what the port shows of `RNG_RAW` while `RV_R` = 0, after reset number `k` (spec/93 U7). -/
opaque unwrittenRng : Nat → Word

/-- FREE VALUE (log 8): what the port shows of `INT_RAW` while `RV_I` = 0. -/
opaque unwrittenInt : Nat → Half

/-- FREE VALUE (log 8): what the port shows of `RGRID_RAW[i]` while `RV_RG` = 0. -/
opaque unwrittenRgrid : Nat → Nat → Word

/-- FREE VALUE (log 8): what the port shows of `IGRID_RAW[i]` while `RV_IG` = 0. -/
opaque unwrittenIgrid : Nat → Nat → Half

/-- FREE VALUE (log 8): what the port shows of `MODE` while `MODEV` = 0. -/
opaque unwrittenMode : Nat → Mode

/-- FREE VALUE (log 8): what the port shows of `DIST` while `CFGV` = 0. -/
opaque unwrittenDist : Nat → Dist

/-- FREE VALUE (log 8): what the port shows of `RATE` while `CFGV` = 0. -/
opaque unwrittenRate : Nat → Rate

end Config

end Sys2Proof
end

