-- ==== Sys2Proof/Machine/State.lean ====
section
/-! DEFINITION. The state of the block (spec/10_state.md R20, one field of `Block` for each row of its table),
and beside it what the model itself needs: the open parameters, the environment's script, the response port
and the observable history. All of it is plain data. -/

namespace Sys2Proof.Machine

/-- The kinds of a handled error, the values of `LASTERR` and of a log event's kind (R29, spec/30 R92). The
value 3 never occurs, so it has no constructor. -/
inductive ErrKind where
  /-- 0: none. -/
  | none
  /-- 1: FramingError. -/
  | framing
  /-- 2: SequenceError. -/
  | sequence
deriving DecidableEq, Repr

/-- The status codes of a response word (spec/60_exceptions.md R201). -/
inductive Status where
  | ok
  | illegal
  | errFraming
  | errSequence
  | cfgUnset
  | busErr
  | faulted
deriving DecidableEq, Repr

/-- One entry of `SEQ` (R24): an operation and the step of it the engine stands at, counted from 0 in the
order the operation's pseudocode is written. -/
structure Position where
  op : Instr
  step : Nat
deriving DecidableEq, Repr

/-- The Frame Buffer (R21): the cells whose byte differs from what an unlisted address reads as (`FB_RESET`),
in rising order of address (log 6). -/
abbrev Memory := List Host.Cell

/-- The state of the block: exactly the table of R20. -/
structure Block where
  /-- `FB[0..255]` (R21). -/
  fb : Memory
  /-- `RNG_RAW` (R22). -/
  rngRaw : Word
  /-- `INT_RAW` (R22). -/
  intRaw : Half
  /-- `RGRID_RAW[0..31]` (R30). -/
  rgridRaw : Vector Word 32
  /-- `IGRID_RAW[0..31]` (R30). -/
  igridRaw : Vector Half 32
  /-- `LEN` (R23). -/
  len : Byte
  /-- `CNT` (R23). -/
  cnt : Half
  /-- `ATTEMPTS` (R23). -/
  attempts : Half
  /-- `SEQ` (R24), the innermost operation first; empty when the engine is idle. -/
  seq : List Position
  /-- `MAGIC_OK` (R25). -/
  magicOk : Bool
  /-- `SEQ_OK` (R25). -/
  seqOk : Bool
  /-- `FBVALID` (R25). -/
  fbValid : Bool
  /-- `RV_R` (R26). -/
  rvR : Bool
  /-- `RV_I` (R26). -/
  rvI : Bool
  /-- `RV_RG` (R26). -/
  rvRG : Bool
  /-- `RV_IG` (R26). -/
  rvIG : Bool
  /-- `BUSY` (R27). -/
  busy : Bool
  /-- `FAULT` (R27), sticky. -/
  fault : Bool
  /-- `MODE` (R28). -/
  mode : Mode
  /-- `DIST` (R28). -/
  dist : Dist
  /-- `RATE` (R28). -/
  rate : Rate
  /-- `MODEV` (R28). -/
  modeV : Bool
  /-- `CFGV` (R28). -/
  cfgV : Bool
  /-- `LASTERR` (R29). -/
  lastErr : ErrKind
deriving DecidableEq, Repr

/-- One event of the observable history (spec/00_scope.md R15). A transfer that failed has no received bytes
(spec/93 U5). -/
inductive Event where
  /-- An accepted request word. -/
  | request (w : ReqWord)
  /-- A `BusByte` (R11). -/
  | busByte (tx : Byte) (rx : Option Byte)
  /-- A `BusBuf` (R12): the bytes sent and received, ascending Frame Buffer offset (spec/20 R51). -/
  | busBuf (tx : List Byte) (rx : Option (List Byte))
  /-- A `Delay` (R13). -/
  | delay (ms : Nat)
  /-- A `Log` event (R14, spec/30 R92). -/
  | log (kind : BitVec 2) (attempt : Half)
  /-- A response word (spec/30 R84). -/
  | response (w : RspWord)
  /-- A host read of the read port and what it returned (R44). -/
  | hostRead (sel : Byte) (value : ReadWord)
  /-- A host read of one Frame Buffer byte (R44). -/
  | hostFbRead (idx : Byte) (value : Byte)
  /-- Reset was asserted (spec/70 R230). -/
  | reset
deriving DecidableEq, Repr

/-- One action of the host, the outside world of the block (log 11). -/
inductive HostAct where
  /-- Present a request word; the model takes the whole operation as one step (spec/20 R56, log 2). -/
  | request (w : ReqWord)
  /-- Present a request word; the model then takes one primitive a step (R6, log 2). -/
  | requestStepped (w : ReqWord)
  /-- `read(sel)` (R44). -/
  | read (sel : Byte)
  /-- `fbread(idx)` (R44). -/
  | fbread (idx : Byte)
  /-- Assert reset (spec/70 R230). -/
  | reset
  /-- Do nothing for one step of the engine. -/
  | wait
deriving DecidableEq, Repr

/-- The environment: what the host does next, and what the bus collaborator will answer (log 1). Where a list is
at its end the answer is a free value of Config indexed by `drawn`. -/
structure Env where
  /-- What the host does next. -/
  host : List HostAct
  /-- For each coming transfer, whether it fails (spec/93 U11). -/
  fails : List Bool
  /-- The bytes that will be received (spec/93 U1). -/
  bytes : List Byte
  /-- How many free values have been drawn. -/
  drawn : Nat
deriving DecidableEq, Repr

/-- The state of the model. -/
structure State where
  /-- The block's own state (R20). -/
  block : Block
  /-- The open parameters (R9); no step changes them (log 4). -/
  params : Params
  /-- The environment's script (log 1, log 11). -/
  env : Env
  /-- The response word last delivered; none while an operation runs (spec/30 R84, log 3). -/
  rsp : Option RspWord
  /-- The observable history (R15), newest event first; no rule of the block reads it (log 3). -/
  hist : List Event
  /-- How many resets have happened; indexes the unspecified values of spec/93 U7 (log 8). -/
  resets : Nat
deriving DecidableEq, Repr

/-- Why the machine would stop with a fault. No step of this machine does: every error of the spec, the bus
fault included, is answered in the response word and the block goes on (spec/60 R200, log 23). -/
inductive Fault where
  /-- Raised by nobody; the type has to have a name for the host's interface. Safe: it is never answered. -/
  | noFaultIsRaised
deriving DecidableEq, Repr

/-- Why an instruction would have no meaning. -/
inductive Refusal where
  /-- Raised by an arm of `exec` whose instruction has no meaning yet; there is none left. Safe. -/
  | notModelled (mnemonic : String)
deriving DecidableEq, Repr

/-- The block after reset (R40). `FB` lists nothing, so every byte reads as `FB_RESET`. The result registers and
`MODE`, `DIST`, `RATE` are unspecified there; the model names 0 for each (DESIGN CHOICE, log 7). -/
def Block.reset : Block where
  fb := []
  rngRaw := 0
  intRaw := 0
  rgridRaw := Vector.replicate 32 0
  igridRaw := Vector.replicate 32 0
  len := 0
  cnt := 0
  attempts := 0
  seq := []
  magicOk := false
  seqOk := false
  fbValid := false
  rvR := false
  rvI := false
  rvRG := false
  rvIG := false
  busy := false
  fault := false
  mode := .sync
  dist := .short
  rate := .low
  modeV := false
  cfgV := false
  lastErr := .none

/-- The environment of a block just reset: nothing scripted, so every bus answer is a free value and no request
is presented (log 1, log 11). -/
def Env.reset : Env where
  host := []
  fails := []
  bytes := []
  drawn := 0

/-- The machine right after reset (R40, spec/70 R230). -/
def State.reset : State where
  block := Block.reset
  params := Config.installed
  env := Env.reset
  rsp := none
  hist := []
  resets := 0

end Sys2Proof.Machine
end

