-- ==== Sys2Proof/Machine/Operands.lean ====
section
/-! DEFINITION. Operand forms: reading and writing Frame Buffer bytes (spec/00 R10, spec/20 R50), the command
frame (spec/30 R85), the wire values of the open parameters (spec/00 R9), the counters' arithmetic (spec/10
R23), and the decode functions and views of raw values (spec/44 R170 to R176). -/

namespace Sys2Proof.Machine

/-! ### The Frame Buffer, byte by byte -/

/-- What an unlisted address of the Frame Buffer reads as: `FB_RESET` (spec/10 R40, log 6). -/
def fbDefault (p : Params) (a : Nat) : Byte := p.fbReset.toList.getD a 0

/-- The byte a cell list gives for an address, if it lists the address. -/
def cellAt : Memory → Nat → Option Byte
  | [], _ => none
  | (b, v) :: cells, a => if b = a then some v else cellAt cells a

/-- `FB[a]` (spec/00 R10). -/
def fbRead (p : Params) (fb : Memory) (a : Nat) : Byte := (cellAt fb a).getD (fbDefault p a)

/-- The cells of a frame written from address `a` on, where the second list gives what the addresses from `a` on
read as when unlisted: a byte equal to that is not listed. -/
def cellsOf : Nat → List Byte → List Byte → Memory
  | a, v :: vs, d :: ds => if v = d then cellsOf (a + 1) vs ds else (a, v) :: cellsOf (a + 1) vs ds
  | _, _, _ => []

/-- `FB[i] <- frame[i]` for every `i` in 0..255 (spec/00 R12, spec/40 R110). Every write of the Frame Buffer is a
write of the whole of it (spec/10 R21, spec/20 R53), so nothing of its old contents is left. -/
def fbStore (p : Params) (frame : List Byte) : Memory := cellsOf 0 frame p.fbReset.toList

/-- The bytes from address `a` on: those the second list gives, with the cells listed laid over them. -/
def overlay : Nat → Memory → List Byte → List Byte
  | _, _, [] => []
  | _, [], ds => ds
  | a, (b, v) :: cells, d :: ds =>
    if b = a then v :: overlay (a + 1) cells ds else d :: overlay (a + 1) ((b, v) :: cells) ds

/-- The 256 bytes of the Frame Buffer, `FB[0]` first: what a buffer transfer sends (spec/00 R12). -/
def fbBytes (p : Params) (fb : Memory) : List Byte := overlay 0 fb p.fbReset.toList

/-- `MemRead(a, 4)`, big-endian (spec/20 R50). -/
def memRead4 (p : Params) (fb : Memory) (a : Nat) : Word :=
  fbRead p fb a ++ fbRead p fb (a + 1) ++ fbRead p fb (a + 2) ++ fbRead p fb (a + 3)

/-- `MemRead(a, 2)`, big-endian (spec/20 R50). -/
def memRead2 (p : Params) (fb : Memory) (a : Nat) : Half := fbRead p fb a ++ fbRead p fb (a + 1)

/-- The offset of range cell `i` (spec/20 R54): 10 + 4i. -/
def rangeCellOffset (i : Nat) : Nat := Config.offRangeGrid + 4 * i

/-- The offset of intensity cell `i` (spec/20 R54): 138 + 2i. -/
def intensityCellOffset (i : Nat) : Nat := Config.offIntensityGrid + 2 * i

/-- The raw values of the 32 range cells, in row-major order (spec/44 R179). -/
def rangeGrid (p : Params) (fb : Memory) : Vector Word 32 :=
  Vector.ofFn (fun i => memRead4 p fb (rangeCellOffset i.val))

/-- The raw values of the 32 intensity cells, in row-major order (spec/44 R180). -/
def intensityGrid (p : Params) (fb : Memory) : Vector Half 32 :=
  Vector.ofFn (fun i => memRead2 p fb (intensityCellOffset i.val))

/-! ### Frames on the wire -/

/-- The zero bytes 5..255 of a command frame (spec/30 R85). -/
def framePadding : List Byte := List.replicate (Config.frameSize - Config.cmdBytes) 0x00

/-- The 256 bytes of a command frame (spec/30 R85, spec/40 R110): EB c 01 v ED, then 251 zero bytes. -/
def commandFrame (c v : Byte) : List Byte :=
  [Config.cmdHeader, c, Config.cmdLength, v, Config.cmdTail] ++ framePadding

/-- The bits of a list of bytes in the order they travel: the first byte first, each most-significant bit first
(spec/20 R51, spec/00 R12). -/
def wireBits (bytes : List Byte) : List Bool :=
  bytes.flatMap (fun b => (List.range 8).map (fun k => b.getLsbD (7 - k)))

/-- `MODE_VAL(m)` (spec/00 R9). -/
def modeVal (p : Params) : Mode → Byte
  | .sync => p.modeValSync
  | .normal => p.modeValNormal

/-- `DIST_VAL(d)` (spec/00 R9). -/
def distVal (p : Params) : Dist → Byte
  | .short => p.distValShort
  | .long => p.distValLong

/-- `RATE_CMD(r)` (spec/00 R9): the command id that doubles as the rate's wire value (spec/42 R136). -/
def rateCmd (p : Params) : Rate → Byte
  | .low => p.rateCmdLow
  | .high => p.rateCmdHigh

/-! ### Counters -/

/-- `satinc(x)` (spec/10 R23): `x + 1` if `x < 0xFFFF`, else `0xFFFF`. -/
def satinc (x : Half) : Half := if x.toNat < 0xFFFF then x + 1 else 0xFFFF

/-! ### Decode functions and views -/

/-- `rangeI(r)` (spec/44 R171): `(r >> 22) & 0x1FF`. -/
def rangeI (r : Word) : BitVec 9 := r.extractLsb' 22 9

/-- `rangeF(r)` (spec/44 R171): `r & 0x3FFFFF`. -/
def rangeF (r : Word) : BitVec 22 := r.extractLsb' 0 22

/-- `decodeRange(r)` (spec/44 R172), the exact real number, a rational. -/
def decodeRange (r : Word) : Rat :=
  ((rangeI r).toNat * Config.rangeIntScale : Nat) + (rangeF r).toNat * Config.rangeFracScale

/-- `rangeQ(r)` (spec/44 R175): `rangeI(r) * 10^11 + rangeF(r) * 23842`, on unbounded naturals. -/
def rangeQ (r : Word) : Nat := (rangeI r).toNat * 100000000000 + (rangeF r).toNat * 23842

/-- `intensityQ(r)` (spec/44 R173): `r / 16`, 12 bits. -/
def intensityQ (r : Half) : BitVec 12 := r.extractLsb' 4 12

/-- `decodeIntensity(r)` (spec/44 R173), with `q = intensityQ(r)`: `(q >> 4) + (q & 0xF) * 0.0625`. -/
def decodeIntensity (r : Half) : Rat :=
  ((intensityQ r) >>> 4).toNat + ((intensityQ r) &&& 0xF).toNat * Config.intensityFracScale

/-- `rangeFloat(r)` (spec/44 R176): the integer product first, then the fraction product, then the sum. -/
def rangeFloat (F : Flt) (r : Word) : F.Carrier :=
  let t1 := F.ofNat ((rangeI r).toNat * Config.rangeIntScale)
  let t2 := F.mul (F.ofNat (rangeF r).toNat) F.K
  F.add t1 t2

/-- `intensityFloat(r)` (spec/44 R176). -/
def intensityFloat (F : Flt) (r : Half) : F.Carrier :=
  F.add (F.ofNat ((intensityQ r) >>> 4).toNat)
    (F.mul (F.ofNat ((intensityQ r) &&& 0xF).toNat) (F.ofRat Config.intensityFracScale))

end Sys2Proof.Machine
end

