-- ==== Sys2Proof/Machine/Flags.lean ====
section
/-! DEFINITION. Every flag computation of the spec: the validation flags and class (spec/43 R150), the status,
session and result-valid words (spec/10 R27, R28, R44), the error and status codes (R29, spec/60 R201). -/

namespace Sys2Proof.Machine

/-- The 2-bit code of an error kind: `LASTERR` (R29) and a log event's kind (spec/30 R92). -/
def errCode : ErrKind → BitVec 2
  | .none => 0
  | .framing => 1
  | .sequence => 2

/-- The 4-bit status code of a response word (spec/60 R201). -/
def statusCode : Status → BitVec 4
  | .ok => 0
  | .illegal => 1
  | .errFraming => 2
  | .errSequence => 3
  | .cfgUnset => 4
  | .busErr => 5
  | .faulted => 6

/-- The magic test of R150: `FB[0] == 0xE9`. -/
def magicMatches (p : Params) (fb : Memory) : Bool := fbRead p fb 0 = Config.rspMagic

/-- The sequence test of R150: `FB[1] == FB[255]`. -/
def sequenceMatches (p : Params) (fb : Memory) : Bool :=
  fbRead p fb Config.offSeqLead = fbRead p fb Config.offSeqTrail

/-- `Validate()` (R150): the three flags; nothing else is written. -/
def validate (p : Params) (b : Block) : Block :=
  { b with
    magicOk := magicMatches p b.fb
    seqOk := sequenceMatches p b.fb
    fbValid := magicMatches p b.fb && sequenceMatches p b.fb }

/-- The class of the last validation (R150): 1 reject-magic, 2 reject-sequence, 0 accept. -/
def frameClass (b : Block) : BitVec 2 :=
  if b.magicOk = false then 1 else if b.seqOk = false then 2 else 0

/-- `STATUS` (R27): bit 0 `BUSY`, 1 `FAULT`, 2 `FBVALID`, 3 `MAGIC_OK`, 4 `SEQ_OK`, 5 `CFGV`, 6 `MODEV`, 7 zero. -/
def statusWord (b : Block) : Byte :=
  0#1 ++ BitVec.ofBool b.modeV ++ BitVec.ofBool b.cfgV ++ BitVec.ofBool b.seqOk ++ BitVec.ofBool b.magicOk
    ++ BitVec.ofBool b.fbValid ++ BitVec.ofBool b.fault ++ BitVec.ofBool b.busy

/-- `SESSION` (R28) of three field values: bit 0 `MODE`, 1 `DIST`, 2 `RATE`, bits 7:3 zero. -/
def sessionWord (m : Mode) (d : Dist) (r : Rate) : Byte :=
  0#5 ++ rateCode r ++ distCode d ++ modeCode m

/-- `RESVALID` (R44): bit 0 `RV_R`, 1 `RV_I`, 2 `RV_RG`, 3 `RV_IG`, bits 7:4 zero. -/
def resvalidWord (b : Block) : Byte :=
  0#4 ++ BitVec.ofBool b.rvIG ++ BitVec.ofBool b.rvRG ++ BitVec.ofBool b.rvI ++ BitVec.ofBool b.rvR

/-- The response word `{status[3:0], info[15:0]}` (spec/30 R84). -/
def responseWord (st : Status) (info : Half) : RspWord := statusCode st ++ info

/-- `info` of the response to an operation that ends with a status (spec/30 R84, spec/60 R201): `ATTEMPTS` for
`ACQ` and the read operations, the class for `VAL`, `LEN` for a `SKIPV` that ended `OK`, otherwise 0. -/
def responseInfo (op : Instr) (st : Status) (b : Block) : Half :=
  match op with
  | .enc _ _ => 0
  | .xfer => 0
  | .skipn _ => 0
  | .skipv => if st = .ok then b.len.setWidth 16 else 0
  | .sync => 0
  | .setmode _ => 0
  | .config _ _ => 0
  | .val => (frameClass b).setWidth 16
  | .acq => b.attempts
  | .rdr => b.attempts
  | .rdi => b.attempts
  | .rdrg => b.attempts
  | .rdig => b.attempts

/-- Whether the retry bound of `ACQ` is reached (spec/43 R152, R155): `MAX_ATTEMPTS != 0` and
`ATTEMPTS >= MAX_ATTEMPTS`. -/
def boundReached (p : Params) (b : Block) : Bool :=
  p.maxAttempts ≠ 0 && p.maxAttempts.toNat ≤ b.attempts.toNat

end Sys2Proof.Machine
end

