-- ==== Sys2Proof/Machine/Ops.lean ====
section
/-! DEFINITION. The named operations over the whole state: drawing the environment's answers, the primitives of
spec/00_scope.md R11 to R14, moving the sequencer (spec/10 R24), delivering a response (spec/30 R84), ending an
operation and raising BusError (spec/60 R200, R204). -/

namespace Sys2Proof.Machine

/-! ### The environment's answers -/

/-- Whether the next transfer fails (spec/93 U11): the script's next bit, or a free value where it is empty. -/
def drawFail (e : Env) : Bool × Env :=
  match e.fails with
  | f :: fs => (f, { e with fails := fs })
  | [] => (Config.freeFail e.drawn, { e with drawn := e.drawn + 1 })

/-- The next received byte (spec/93 U1): the script's next byte, or a free value where it is empty. -/
def drawByte (e : Env) : Byte × Env :=
  match e.bytes with
  | b :: bs => (b, { e with bytes := bs })
  | [] => (Config.freeRx e.drawn, { e with drawn := e.drawn + 1 })

/-- The next `n` received bytes, in the order they arrive. -/
def drawBytes : Nat → Env → List Byte × Env
  | 0, e => ([], e)
  | n + 1, e =>
    let (b, e1) := drawByte e
    let (bs, e2) := drawBytes n e1
    (b :: bs, e2)

/-- The 256 unspecified bytes the Frame Buffer holds after a failed buffer transfer (spec/93 U5), free values. -/
def freeFrame (e : Env) : List Byte := (List.range Config.frameSize).map (Config.freeFrameByte e.drawn)

/-! ### Updates of the state -/

/-- An event is added to the observable history (spec/00 R15). -/
def emit (ev : Event) (s : State) : State := { s with hist := ev :: s.hist }

/-- The block's state is replaced, and nothing else. -/
def setBlock (b : Block) (s : State) : State := { s with block := b }

/-- The environment is replaced, and nothing else. -/
def setEnv (e : Env) (s : State) : State := { s with env := e }

/-- The sequencer position is replaced, and nothing else (spec/10 R24). -/
def setSeq (q : List Position) (s : State) : State := { s with block := { s.block with seq := q } }

/-- A response word is delivered (spec/30 R84). -/
def respond (st : Status) (info : Half) (s : State) : State :=
  { s with rsp := some (responseWord st info), hist := .response (responseWord st info) :: s.hist }

/-! ### The primitives of the collaborators -/

/-- `Delay(ms)` (spec/00 R13): an event, no state. -/
def delay (ms : Nat) (s : State) : State := emit (.delay ms) s

/-- `Log(kind, ATTEMPTS)` (spec/00 R14): an event, no state. -/
def logError (kind : ErrKind) (s : State) : State := emit (.log (errCode kind) s.block.attempts) s

/-- `BusByte(tx)` (spec/00 R11): the received byte, or `none` where the transfer failed. It writes no block
state. -/
def busByte (tx : Byte) (s : State) : Option Byte × State :=
  let (failed, e1) := drawFail s.env
  if failed then (none, emit (.busByte tx none) (setEnv e1 s))
  else
    let (rx, e2) := drawByte e1
    (some rx, emit (.busByte tx (some rx)) (setEnv e2 s))

/-- The received bytes of a buffer transfer written over the Frame Buffer (spec/00 R12), which clears `FBVALID`
(spec/10 R25, log 16). -/
def receiveFrame (p : Params) (frame : List Byte) (b : Block) : Block :=
  { b with fb := fbStore p frame, fbValid := false }

/-- `BusBuf()` (spec/00 R12): the 256 bytes of the Frame Buffer are sent and overwritten by the 256 received; or
the transfer failed, with the answer `false`. -/
def busBuf (s : State) : Bool × State :=
  let tx := fbBytes s.params s.block.fb
  let (failed, e1) := drawFail s.env
  if failed then (false, emit (.busBuf tx none) (setEnv e1 s))
  else
    let (rx, e2) := drawBytes Config.frameSize e1
    (true, emit (.busBuf tx (some rx)) (setEnv e2 (setBlock (receiveFrame s.params rx s.block) s)))

/-! ### Ending an operation -/

/-- The outermost operation in progress: the bottom of `SEQ` (spec/10 R24). -/
def outermost (b : Block) : Option Instr := b.seq.getLast?.map Position.op

/-- `info` of the response of the operation in progress (spec/30 R84). -/
def currentInfo (st : Status) (b : Block) : Half :=
  match outermost b with
  | some op => responseInfo op st b
  | none => 0

/-- The outermost operation ends with a status (spec/60 R200 (b)): the whole `SEQ` stack is popped, `BUSY <- 0`,
and the response word is delivered. -/
def endOperation (st : Status) (s : State) : State :=
  respond st (currentInfo st s.block) (setBlock { s.block with seq := [], busy := false } s)

/-- `raise BusError` (spec/60 R204) with the failing primitive a `BusByte`: `FAULT <- 1`, `FBVALID <- 0`, and the
operation ends `BUSERR`. -/
def raiseBusError (s : State) : State :=
  endOperation .busErr (setBlock { s.block with fault := true, fbValid := false } s)

/-- `raise BusError` (spec/60 R204) with the failing primitive a `BusBuf`: the same, and every byte of the Frame
Buffer becomes a free value (spec/93 U5, log 9). -/
def raiseBufferError (s : State) : State :=
  raiseBusError
    (setEnv { s.env with drawn := s.env.drawn + 1 }
      (setBlock { s.block with fb := fbStore s.params (freeFrame s.env) } s))

/-! ### Answers at the request port -/

/-- A request answered without running: no block state changes, only the word and the response appear (spec/60
R205, R207). -/
def answerAtOnce (st : Status) (w : ReqWord) (s : State) : State := respond st 0 (emit (.request w) s)

/-- A request is accepted (spec/30 R80, spec/10 R24): `BUSY <- 1` and (operation, first step) is pushed. -/
def accept (i : Instr) (s : State) : State :=
  { s with
    block := { s.block with busy := true, seq := [⟨i, 0⟩] }
    rsp := none
    hist := .request (encode i) :: s.hist }

/-- A request presented while `BUSY` = 1 waits at the port (spec/30 R80): nothing else changes (log 13). -/
def present (i : Instr) (s : State) : State :=
  setEnv { s.env with host := .request (encode i) :: s.env.host } s

end Sys2Proof.Machine
end

