-- ==== Sys2Proof/Machine/Programs.lean ====
section
/-! DEFINITION. The pseudocode of the 13 operations, line by line: a line is one primitive of spec/00 R11 to R14, one
assignment, one `call` or one jump. Running off the last line is `end OK`. The engine that runs the lines is
Engine.lean. -/

namespace Sys2Proof.Machine

/-- Where control goes after a test: the next line, a line of the same operation, or `end STATUS`. -/
inductive Flow where
  | next
  | goto (k : Nat)
  | stop (st : Status)
deriving DecidableEq, Repr

/-- One line of an operation's pseudocode. An assignment and a test see the parameters and the block's state and
nothing else. -/
inductive Line where
  /-- An assignment to block state. -/
  | assign (f : Params → Block → Block)
  /-- `call OP(args)`, the arguments taken from the state at the call. -/
  | call (f : Params → Block → Instr)
  /-- `BusBuf()`. -/
  | busBuf
  /-- `LEN <- BusByte(SKIP_FILL) & 0xFF`. -/
  | readLen
  /-- `while CNT != 0: BusByte(SKIP_FILL); CNT <- CNT - 1`, one transfer each time it is run. -/
  | discard
  /-- `Delay(T_SETTLE_MS)`. -/
  | delay
  /-- `Log(kind, ATTEMPTS)`. -/
  | log (kind : ErrKind)
  /-- A test of the state. -/
  | test (f : Params → Block → Flow)

/-! ### Command Encoder (spec/40) -/

/-- `ENC c, v` (R110). -/
def encLines (c v : Byte) : List Line :=
  [ .assign (fun p b => { b with fb := fbStore p (commandFrame c v), fbValid := false }) ]

/-- `XFER` (R112). -/
def xferLines : List Line :=
  [ .busBuf,
    .assign (fun _ b => { b with fbValid := false }) ]

/-- `SendCmd(c, v)` (R113, the pseudo-operation `SENDCMD` of spec/30 R90): `call ENC(c, v); call XFER`. -/
def sendCmd (c v : Params → Block → Byte) : List Line :=
  [ .call (fun p b => .enc (c p b) (v p b)),
    .call (fun _ _ => .xfer) ]

/-! ### Frame Synchronizer (spec/41) -/

/-- `SKIPN n` (R120). -/
def skipnLines (n : Half) : List Line :=
  [ .assign (fun _ b => { b with cnt := n }),
    .discard ]

/-- The flush of one frame (the pseudo-operation `FLUSH` of spec/30 R90): `call SKIPN(256)`. -/
def flushFrame : List Line := [ .call (fun _ _ => .skipn 256) ]

/-- `SKIPV` (R121). -/
def skipvLines : List Line :=
  [ .readLen,
    .assign (fun _ b => { b with cnt := b.len.setWidth 16 }),
    .discard ]

/-- `SYNC` (R122). -/
def syncLines : List Line :=
  [ .call (fun _ _ => .setmode .sync) ] ++ flushFrame ++ [ .call (fun _ _ => .skipv) ]

/-! ### Mode and configuration setter (spec/42) -/

/-- `SETMODE m` (R135). -/
def setmodeLines (m : Mode) : List Line :=
  [ .assign (fun _ b => { b with mode := m, modeV := true }) ]
    ++ flushFrame
    ++ [ .delay ]
    ++ sendCmd (fun p _ => p.cmdMode) (fun p _ => modeVal p m)
    ++ [ .delay ]

/-- `CONFIG d, r` (R136). -/
def configLines (d : Dist) (r : Rate) : List Line :=
  [ .assign (fun _ b => { b with dist := d, rate := r, cfgV := true }),
    .call (fun _ _ => .setmode .normal) ]
    ++ sendCmd (fun p _ => p.cmdDistance) (fun p _ => distVal p d)
    ++ [ .delay ]
    ++ flushFrame
    ++ sendCmd (fun p _ => rateCmd p r) (fun p _ => p.rateArg)
    ++ [ .delay ]
    ++ flushFrame

/-! ### Frame Validator and Acquisition Loop (spec/43) -/

/-- `VAL` (R151). -/
def valLines : List Line := [ .assign validate ]

/-- `ACQ` (R152). The line numbers are the steps of `SEQ`; `step1` of the spec is line 1, `step2` line 3, `step3`
line 12, `step4` line 17, the end. -/
def acqLines : List Line :=
  [ /- 0 -/  .assign (fun _ b => { b with attempts := 0, lastErr := .none }),
    /- 1 -/  .assign (fun _ b => { b with attempts := satinc b.attempts }),
    /- 2 -/  .call (fun _ _ => .xfer),
    /- 3 -/  .assign validate,
    /- 4 -/  .test (fun _ b => if b.magicOk = false then .next else .goto 12),
    /- 5 -/  .assign (fun _ b => { b with lastErr := .framing }),
    /- 6 -/  .log .framing,
    /- 7 -/  .test (fun p b => if boundReached p b then .stop .errFraming else .next),
    /- 8 -/  .test (fun _ b => if b.cfgV = false then .stop .cfgUnset else .next),
    /- 9 -/  .call (fun _ _ => .sync),
    /- 10 -/ .call (fun _ b => .config b.dist b.rate),
    /- 11 -/ .test (fun _ _ => .goto 1),
    /- 12 -/ .test (fun _ b => if b.seqOk = false then .next else .goto 17),
    /- 13 -/ .assign (fun _ b => { b with lastErr := .sequence }),
    /- 14 -/ .log .sequence,
    /- 15 -/ .test (fun p b => if boundReached p b then .stop .errSequence else .next),
    /- 16 -/ .test (fun _ _ => .goto 1) ]

/-! ### Measurement Decoder (spec/44) -/

/-- `RDR` (R177). -/
def rdrLines : List Line :=
  [ .call (fun _ _ => .acq),
    .assign (fun p b => { b with rngRaw := memRead4 p b.fb Config.offRange, rvR := true }) ]

/-- `RDI` (R178). -/
def rdiLines : List Line :=
  [ .call (fun _ _ => .acq),
    .assign (fun p b => { b with intRaw := memRead2 p b.fb Config.offIntensity, rvI := true }) ]

/-- `RDRG` (R179). -/
def rdrgLines : List Line :=
  [ .call (fun _ _ => .acq),
    .assign (fun p b => { b with rgridRaw := rangeGrid p b.fb, rvRG := true }) ]

/-- `RDIG` (R180). -/
def rdigLines : List Line :=
  [ .call (fun _ _ => .acq),
    .assign (fun p b => { b with igridRaw := intensityGrid p b.fb, rvIG := true }) ]

/-- The lines of an operation. -/
def linesOf : Instr → List Line
  | .enc c v => encLines c v
  | .xfer => xferLines
  | .skipn n => skipnLines n
  | .skipv => skipvLines
  | .sync => syncLines
  | .setmode m => setmodeLines m
  | .config d r => configLines d r
  | .val => valLines
  | .acq => acqLines
  | .rdr => rdrLines
  | .rdi => rdiLines
  | .rdrg => rdrgLines
  | .rdig => rdigLines

end Sys2Proof.Machine
end

