-- ==== Sys2Proof/Machine/Engine.lean ====
section
/-! DEFINITION. The engine (spec/00 R6, R7): one step of the sequencer is one line of an operation's pseudocode, and an
accepted operation runs to its end. -/

namespace Sys2Proof.Machine

/-- The innermost operation stands at the line after this one (spec/10 R24). -/
def advance (top : Position) (rest : List Position) (s : State) : State :=
  setSeq (⟨top.op, top.step + 1⟩ :: rest) s

/-- An operation has run off its last line: `end OK` (spec/10 R24). A nested one is popped and its caller continues
at the next step; the outermost one ends and its response is delivered. -/
def returnFrom (rest : List Position) (s : State) : State :=
  match rest with
  | [] => endOperation .ok s
  | caller :: below => advance caller below s

/-- Control after a test (spec/43 R156). -/
def follow (flow : Flow) (top : Position) (rest : List Position) (s : State) : State :=
  match flow with
  | .next => advance top rest s
  | .goto k => setSeq (⟨top.op, k⟩ :: rest) s
  | .stop st => endOperation st s

/-- One discard of a skip's loop (spec/41 R120): nothing left, and the loop is over; else one `BusByte` and
`CNT <- CNT - 1`, the received byte thrown away. -/
def discardOne (top : Position) (rest : List Position) (s : State) : State :=
  if s.block.cnt = 0 then advance top rest s
  else
    match busByte s.params.skipFill s with
    | (none, s1) => raiseBusError s1
    | (some _, s1) => setBlock { s1.block with cnt := s1.block.cnt - 1 } s1

/-- `LEN <- BusByte(SKIP_FILL) & 0xFF` (spec/41 R121). -/
def readLength (top : Position) (rest : List Position) (s : State) : State :=
  match busByte s.params.skipFill s with
  | (none, s1) => raiseBusError s1
  | (some rx, s1) => advance top rest (setBlock { s1.block with len := rx &&& 0xFF } s1)

/-- `BusBuf()` (spec/00 R12). -/
def transferFrame (top : Position) (rest : List Position) (s : State) : State :=
  match busBuf s with
  | (false, s1) => raiseBufferError s1
  | (true, s1) => advance top rest s1

/-- One line of the innermost operation. -/
def runLine (line : Line) (top : Position) (rest : List Position) (s : State) : State :=
  match line with
  | .assign f => advance top rest (setBlock (f s.params s.block) s)
  | .call f => setSeq (⟨f s.params s.block, 0⟩ :: top :: rest) s
  | .busBuf => transferFrame top rest s
  | .readLen => readLength top rest s
  | .discard => discardOne top rest s
  | .delay => advance top rest (delay Config.tSettleMs s)
  | .log kind => advance top rest (logError kind s)
  | .test f => follow (f s.params s.block) top rest s

/-- One step of the engine (spec/00 R6): the line `SEQ` stands at; an idle engine does nothing. -/
def tick (s : State) : State :=
  match s.block.seq with
  | [] => s
  | top :: rest =>
    match (linesOf top.op)[top.step]? with
    | some line => runLine line top rest s
    | none => returnFrom rest s

/-- The engine runs until it is idle, at most so many steps. -/
def drive : Nat → State → State
  | 0, s => s
  | n + 1, s =>
    match s.block.seq with
    | [] => s
    | _ :: _ => drive n (tick s)

/-- How many engine steps one step of the model takes an operation through before it leaves it in progress: more
than any operation needs but an `ACQ` whose retry is unbounded (log 2). -/
def runBound : Nat := 0x10000000

/-- The meaning of a request at the port (spec/30 R80, spec/60 R210): while `BUSY` = 1 it waits; with `FAULT` = 1
it is answered `FAULTED` (R207); otherwise it is accepted and the operation runs, atomic toward the host (spec/20
R56). -/
def operate (i : Instr) (s : State) : State :=
  if s.block.busy then present i s
  else if s.block.fault then answerAtOnce .faulted (encode i) s
  else drive runBound (accept i s)

end Sys2Proof.Machine
end

