-- ==== Sys2Proof/Machine/AcquisitionValidator.lean ====
section
/-! DEFINITION. The meanings of the Frame Validator and Acquisition Loop: `VAL`, `ACQ`
(spec/43_acquisition_validator.md). -/

namespace Sys2Proof.Machine

/-- `VAL` (R151; lines `valLines`): classify the frame now in the Frame Buffer. -/
def execVal (s : State) : Host.Outcome State Fault Refusal := .next (operate .val s)

/-- `ACQ` (R152; lines `acqLines`): obtain a validated frame, retrying and resynchronising. With `MAX_ATTEMPTS` = 0
it may never end (R237): the state after this step is then still `BUSY` and `step` goes on with it (log 2). -/
def execAcq (s : State) : Host.Outcome State Fault Refusal := .next (operate .acq s)

end Sys2Proof.Machine
end

