-- ==== Sys2Proof/Machine/CommandEncoder.lean ====
section
/-! DEFINITION. The meanings of the Command Encoder family: `ENC`, `XFER` (spec/40_command_encoder.md). Each is the
request of its operation, whose lines stand in Programs.lean. -/

namespace Sys2Proof.Machine

/-- `ENC c, v` (R110; lines `encLines`): encode a command frame into the Frame Buffer. -/
def execEnc (c v : Byte) (s : State) : Host.Outcome State Fault Refusal := .next (operate (.enc c v) s)

/-- `XFER` (R112; lines `xferLines`): one full-frame duplex transfer of the Frame Buffer. -/
def execXfer (s : State) : Host.Outcome State Fault Refusal := .next (operate .xfer s)

end Sys2Proof.Machine
end

