-- ==== Sys2Proof/Machine/FrameSynchronizer.lean ====
section
/-! DEFINITION. The meanings of the Frame Synchronizer family: `SKIPN`, `SKIPV`, `SYNC`
(spec/41_frame_synchronizer.md). -/

namespace Sys2Proof.Machine

/-- `SKIPN n` (R120; lines `skipnLines`): discard `n` bytes. -/
def execSkipn (n : Half) (s : State) : Host.Outcome State Fault Refusal := .next (operate (.skipn n) s)

/-- `SKIPV` (R121; lines `skipvLines`): discard a length-prefixed filler run. -/
def execSkipv (s : State) : Host.Outcome State Fault Refusal := .next (operate .skipv s)

/-- `SYNC` (R122; lines `syncLines`): force the device into a known framing state. -/
def execSync (s : State) : Host.Outcome State Fault Refusal := .next (operate .sync s)

end Sys2Proof.Machine
end

