-- ==== Sys2Proof/Machine/MeasurementDecoder.lean ====
section
/-! DEFINITION. The meanings of the Measurement Decoder: `RDR`, `RDI`, `RDRG`, `RDIG`
(spec/44_measurement_decoder.md). -/

namespace Sys2Proof.Machine

/-- `RDR` (R177; lines `rdrLines`): read the range scalar. -/
def execRdr (s : State) : Host.Outcome State Fault Refusal := .next (operate .rdr s)

/-- `RDI` (R178; lines `rdiLines`): read the intensity scalar. -/
def execRdi (s : State) : Host.Outcome State Fault Refusal := .next (operate .rdi s)

/-- `RDRG` (R179; lines `rdrgLines`): read the 32-cell range grid. -/
def execRdrg (s : State) : Host.Outcome State Fault Refusal := .next (operate .rdrg s)

/-- `RDIG` (R180; lines `rdigLines`): read the 32-cell intensity grid. -/
def execRdig (s : State) : Host.Outcome State Fault Refusal := .next (operate .rdig s)

end Sys2Proof.Machine
end

