-- ==== Sys2Proof/Machine/ModeConfig.lean ====
section
/-! DEFINITION. The meanings of the mode and configuration setter: `SETMODE`, `CONFIG` (spec/42_mode_config.md). -/

namespace Sys2Proof.Machine

/-- `SETMODE m` (R135; lines `setmodeLines`): record and send the device mode. -/
def execSetmode (m : Mode) (s : State) : Host.Outcome State Fault Refusal := .next (operate (.setmode m) s)

/-- `CONFIG d, r` (R136; lines `configLines`): record and send the distance and rate configuration. -/
def execConfig (d : Dist) (r : Rate) (s : State) : Host.Outcome State Fault Refusal :=
  .next (operate (.config d r) s)

end Sys2Proof.Machine
end

