-- ==== Sys2Proof/Machine/Dispatch.lean ====
section
/-! DEFINITION. One arm per operation: each a direct call of the operation's meaning. -/

namespace Sys2Proof.Machine

def exec (i : Instr) (s : State) : Host.Outcome State Fault Refusal :=
  match i with
  | .enc c v => Sys2Proof.Machine.execEnc c v s
  | .xfer => Sys2Proof.Machine.execXfer s
  | .skipn n => Sys2Proof.Machine.execSkipn n s
  | .skipv => Sys2Proof.Machine.execSkipv s
  | .sync => Sys2Proof.Machine.execSync s
  | .setmode m => Sys2Proof.Machine.execSetmode m s
  | .config d r => Sys2Proof.Machine.execConfig d r s
  | .val => Sys2Proof.Machine.execVal s
  | .acq => Sys2Proof.Machine.execAcq s
  | .rdr => Sys2Proof.Machine.execRdr s
  | .rdi => Sys2Proof.Machine.execRdi s
  | .rdrg => Sys2Proof.Machine.execRdrg s
  | .rdig => Sys2Proof.Machine.execRdig s

end Sys2Proof.Machine
end

