-- ==== Sys2Proof/Machine/HostPort.lean ====
section
/-! DEFINITION. The host's side of the block: the read port (spec/10 R44, R45), reset (spec/70 R230) and the request
port (spec/30 R80, R83, spec/60 R210). -/

namespace Sys2Proof.Machine

/-! ### What the read port shows of a register that may be unwritten (spec/93 U7, log 8) -/

/-- `RNG_RAW` as the port shows it: unspecified while `RV_R` = 0 (spec/10 R26). -/
def shownRng (s : State) : Word := if s.block.rvR then s.block.rngRaw else Config.unwrittenRng s.resets

/-- `INT_RAW` as the port shows it. -/
def shownInt (s : State) : Half := if s.block.rvI then s.block.intRaw else Config.unwrittenInt s.resets

/-- `RGRID_RAW[i]` as the port shows it. -/
def shownRgrid (s : State) (i : Nat) : Word :=
  if s.block.rvRG then s.block.rgridRaw.toList.getD i 0 else Config.unwrittenRgrid s.resets i

/-- `IGRID_RAW[i]` as the port shows it. -/
def shownIgrid (s : State) (i : Nat) : Half :=
  if s.block.rvIG then s.block.igridRaw.toList.getD i 0 else Config.unwrittenIgrid s.resets i

/-- `SESSION` as the port shows it (spec/10 R28). -/
def shownSession (s : State) : Byte :=
  sessionWord
    (if s.block.modeV then s.block.mode else Config.unwrittenMode s.resets)
    (if s.block.cfgV then s.block.dist else Config.unwrittenDist s.resets)
    (if s.block.cfgV then s.block.rate else Config.unwrittenRate s.resets)

/-- The value the read port holds for a select (spec/10 R44), zero-extended to 48 bits. -/
def portValue (s : State) (sel : Byte) : ReadWord :=
  let n := sel.toNat
  if n = 0x00 then (statusWord s.block).setWidth 48
  else if n = 0x01 then (shownSession s).setWidth 48
  else if n = 0x02 then s.block.len.setWidth 48
  else if n = 0x03 then s.block.attempts.setWidth 48
  else if n = 0x04 then (errCode s.block.lastErr).setWidth 48
  else if n = 0x05 then (resvalidWord s.block).setWidth 48
  else if n = 0x10 then (shownRng s).setWidth 48
  else if n = 0x11 then (rangeI (shownRng s)).setWidth 48
  else if n = 0x12 then (rangeF (shownRng s)).setWidth 48
  else if n = 0x13 then BitVec.ofNat 48 (rangeQ (shownRng s))
  else if n = 0x14 then (shownInt s).setWidth 48
  else if n = 0x15 then (intensityQ (shownInt s)).setWidth 48
  else if 0x20 ≤ n ∧ n < 0x40 then (shownRgrid s (n - 0x20)).setWidth 48
  else if 0x40 ≤ n ∧ n < 0x60 then BitVec.ofNat 48 (rangeQ (shownRgrid s (n - 0x40)))
  else if 0x60 ≤ n ∧ n < 0x80 then (shownIgrid s (n - 0x60)).setWidth 48
  else if 0x80 ≤ n ∧ n < 0xA0 then (intensityQ (shownIgrid s (n - 0x80))).setWidth 48
  else 0

/-- `read(sel)` (spec/10 R44): not accepted while `BUSY` = 1, unless it reads `STATUS` (R45). -/
def readPort (sel : Byte) (s : State) : Option ReadWord :=
  if s.block.busy ∧ sel ≠ 0x00 then none else some (portValue s sel)

/-- `fbread(idx)` (spec/10 R44): not accepted while `BUSY` = 1 (R45). -/
def fbreadPort (idx : Byte) (s : State) : Option Byte :=
  if s.block.busy then none else some (fbRead s.params s.block.fb idx.toNat)

/-! ### The host's actions -/

/-- The host's next action is taken from its script. -/
def takeAction (rest : List HostAct) (s : State) : State := setEnv { s.env with host := rest } s

/-- The host reads the read port. A read not yet accepted stays presented and the engine goes on (R45, log 25). An accepted one,
a `STATUS` read during an operation too, stands in the history where it happens (log 27). -/
def hostRead (sel : Byte) (rest : List HostAct) (s : State) : State :=
  match readPort sel s with
  | some v => emit (.hostRead sel v) (takeAction rest s)
  | none => tick s

/-- The host reads a byte of the Frame Buffer, likewise. -/
def hostFbRead (idx : Byte) (rest : List HostAct) (s : State) : State :=
  match fbreadPort idx s with
  | some v => emit (.hostFbRead idx v) (takeAction rest s)
  | none => tick s

/-- Reset (spec/70 R230): every piece of block state takes R40's value, whatever the engine was doing. The parameters,
the environment and the history go on (log 18). -/
def resetBlock (s : State) : State :=
  { s with
    block := Block.reset
    rsp := none
    hist := .reset :: s.hist
    resets := s.resets + 1 }

/-- A word that names no operation, at the request port: `FAULTED` while `FAULT` = 1, otherwise `ILLEGAL` (spec/60
R205, R207, R210). -/
def rejectWord (w : ReqWord) (s : State) : State :=
  if s.block.fault then answerAtOnce .faulted w s else answerAtOnce .illegal w s

/-- A request word accepted with one engine step to follow at a time (spec/00 R6, log 2). -/
def acceptStepped (w : ReqWord) (s : State) : State :=
  match decode w with
  | none => rejectWord w s
  | some i => if s.block.fault then answerAtOnce .faulted w s else accept i s

/-- A request word accepted and its operation run (spec/20 R56). -/
def acceptWord (w : ReqWord) (s : State) : Host.Outcome State Fault Refusal :=
  match decode w with
  | none => .next (rejectWord w s)
  | some i => exec i s

/-- The engine idle and a request word presented, so that the next step accepts it: what a host does that waits for
the response before it presents the next word (spec/70 R240, log 11). -/
def presentWord (w : ReqWord) (s : State) : State :=
  { s with
    block := { s.block with seq := [], busy := false }
    env := { s.env with host := .request w :: s.env.host } }

end Sys2Proof.Machine
end

