-- ==== Sys2Proof/Machine/Step.lean ====
section
/-! DEFINITION. One step of the machine: the host's next action where the block accepts it, else one step of the engine. -/

namespace Sys2Proof.Machine

/-- One step. The head of `env.host` is what the host does now: a request is accepted when `BUSY` = 0 and waits
otherwise (spec/30 R80); a read is served when R45 allows it; reset acts at once (spec/70 R230). With nothing
presented the engine goes on if it is busy, and an idle block waits (spec/70 R230, log 12). -/
def step (s : State) : Host.Outcome State Fault Refusal :=
  match s.env.host with
  | [] => .next (tick s)
  | .wait :: rest => .next (tick (takeAction rest s))
  | .reset :: rest => .next (resetBlock (takeAction rest s))
  | .read sel :: rest => .next (hostRead sel rest s)
  | .fbread idx :: rest => .next (hostFbRead idx rest s)
  | .request w :: rest => if s.block.busy then .next (tick s) else acceptWord w (takeAction rest s)
  | .requestStepped w :: rest =>
    if s.block.busy then .next (tick s) else .next (acceptStepped w (takeAction rest s))

/-- `s` with a table row's word presented at the request port of an idle engine, so that the very next step accepts
it (log 11). -/
def State.withFetchWord (s : State) (nbits w : Nat) : State :=
  presentWord (BitVec.ofNat 24 (w % 2 ^ nbits)) s

end Sys2Proof.Machine
end

