-- ==== Sys2Proof/Machine/Assembly.lean ====
section
/-! DEFINITION. The spec's way of writing a request (spec/30 R89), its pseudo-operations (R90), and a program as the list
of requests a host issues in order. -/

namespace Sys2Proof.Machine

/-- An operand as R89 writes it: a number, or one of the words `SYNC`, `NORMAL`, `SHORT`, `LONG`, `LOW`, `HIGH`. -/
inductive AsmOperand where
  | number (n : Nat)
  | word (w : String)
deriving DecidableEq, Repr

/-- The mnemonic of an operation (spec/30 R81). -/
def mnemonic : Instr → String
  | .enc _ _ => "ENC"
  | .xfer => "XFER"
  | .skipn _ => "SKIPN"
  | .skipv => "SKIPV"
  | .sync => "SYNC"
  | .setmode _ => "SETMODE"
  | .config _ _ => "CONFIG"
  | .val => "VAL"
  | .acq => "ACQ"
  | .rdr => "RDR"
  | .rdi => "RDI"
  | .rdrg => "RDRG"
  | .rdig => "RDIG"

/-- The word for a mode (R89). -/
def modeWord : Mode → String
  | .sync => "SYNC"
  | .normal => "NORMAL"

/-- The word for a distance (R89). -/
def distWord : Dist → String
  | .short => "SHORT"
  | .long => "LONG"

/-- The word for a rate (R89). -/
def rateWord : Rate → String
  | .low => "LOW"
  | .high => "HIGH"

/-- The operands of an operation as R89 writes them. -/
def asmOperands : Instr → List AsmOperand
  | .enc c v => [.number c.toNat, .number v.toNat]
  | .xfer => []
  | .skipn n => [.number n.toNat]
  | .skipv => []
  | .sync => []
  | .setmode m => [.word (modeWord m)]
  | .config d r => [.word (distWord d), .word (rateWord r)]
  | .val => []
  | .acq => []
  | .rdr => []
  | .rdi => []
  | .rdrg => []
  | .rdig => []

/-- An operation from its written form; `none` where R89 gives the line no meaning. -/
def assemble (mn : String) (ops : List AsmOperand) : Option Instr :=
  match ops with
  | [] =>
    if mn = "XFER" then some .xfer
    else if mn = "SKIPV" then some .skipv
    else if mn = "SYNC" then some .sync
    else if mn = "VAL" then some .val
    else if mn = "ACQ" then some .acq
    else if mn = "RDR" then some .rdr
    else if mn = "RDI" then some .rdi
    else if mn = "RDRG" then some .rdrg
    else if mn = "RDIG" then some .rdig
    else none
  | [.number n] => if mn = "SKIPN" ∧ n ≤ 65535 then some (.skipn (BitVec.ofNat 16 n)) else none
  | [.number c, .number v] =>
    if mn = "ENC" ∧ c ≤ 255 ∧ v ≤ 255 then some (.enc (BitVec.ofNat 8 c) (BitVec.ofNat 8 v)) else none
  | [.word m] =>
    if mn = "SETMODE" then
      if m = "SYNC" then some (.setmode .sync) else if m = "NORMAL" then some (.setmode .normal) else none
    else none
  | [.word d, .word r] =>
    if mn = "CONFIG" then
      if d = "SHORT" ∧ r = "LOW" then some (.config .short .low)
      else if d = "SHORT" ∧ r = "HIGH" then some (.config .short .high)
      else if d = "LONG" ∧ r = "LOW" then some (.config .long .low)
      else if d = "LONG" ∧ r = "HIGH" then some (.config .long .high)
      else none
    else none
  | _ => none

/-- The pseudo-operation `SENDCMD c, v` (R90). -/
def pseudoSendCmd (c v : Byte) : List Instr := [.enc c v, .xfer]

/-- The pseudo-operation `FLUSH` (R90). -/
def pseudoFlush : List Instr := [.skipn 256]

/-- A program (R89): the requests the host issues in order, each after the previous response. -/
def hostProgram (prog : List Instr) : List HostAct := prog.map (fun i => .request (encode i))

end Sys2Proof.Machine
end

