-- ==== Sys2Proof/Safety.lean ====
section
/-! DEFINITION. The terms claims use: a block ready for a request, an accepted frame, the canonical Frame Buffer, the call
structure of the sequencer, the invariant of the machine, and the events a run adds to the history. -/

namespace Sys2Proof.Machine

/-- The cells from address `lo` on are canonical: addresses rise strictly within 0..255 and no cell holds what its
address reads as when unlisted. -/
def cellsWf (p : Params) : Nat → Memory → Bool
  | _, [] => true
  | lo, (a, v) :: cells =>
    decide (lo ≤ a) && decide (a < Config.frameSize) && decide (v ≠ fbDefault p a) && cellsWf p (a + 1) cells

/-- The Frame Buffer is in its canonical form (log 6). -/
def Memory.wf (p : Params) (fb : Memory) : Bool := cellsWf p 0 fb

/-- The block is ready: no operation in progress and no bus fault since reset (spec/60 R210 item 1). -/
structure Ready (s : State) : Prop where
  idle : s.block.busy = false
  noFault : s.block.fault = false

/-- The frame in the Frame Buffer satisfies the acceptance condition (spec/30 R86): magic and equal sequence bytes. -/
def frameAccepted (p : Params) (fb : Memory) : Prop :=
  fbRead p fb 0 = Config.rspMagic ∧ fbRead p fb Config.offSeqLead = fbRead p fb Config.offSeqTrail

/-- 256 bytes the acceptance condition holds of (spec/30 R86). -/
structure GoodFrame (f : List Byte) : Prop where
  size : f.length = 256
  magic : f[0]? = some 0xE9
  sequence : f[1]? = f[255]?

/-- 256 bytes with the right magic and unequal sequence bytes: a SequenceError (spec/60 R203). -/
structure TornFrame (f : List Byte) : Prop where
  size : f.length = 256
  magic : f[0]? = some 0xE9
  sequence : f[1]? ≠ f[255]?

/-- 256 bytes with a wrong magic: a FramingError (spec/60 R202). -/
structure MisalignedFrame (f : List Byte) : Prop where
  size : f.length = 256
  magic : f[0]? ≠ some 0xE9

/-- How deep an operation can stand in the call structure (spec/10 R24): the leaves call nothing, `SETMODE` calls
leaves, `SYNC` and `CONFIG` call `SETMODE` and leaves, `ACQ` calls those, a read operation calls `ACQ`. -/
def callRank : Instr → Nat
  | .enc _ _ => 0
  | .xfer => 0
  | .skipn _ => 0
  | .skipv => 0
  | .val => 0
  | .setmode _ => 1
  | .sync => 2
  | .config _ _ => 2
  | .acq => 3
  | .rdr => 4
  | .rdi => 4
  | .rdrg => 4
  | .rdig => 4

/-- Every operation of the stack has a lower rank than the one that called it. -/
def ranksRise : List Position → Bool
  | [] => true
  | [_] => true
  | top :: caller :: below => decide (callRank top.op < callRank caller.op) && ranksRise (caller :: below)

/-- Every caller stands at a line of its operation, and the innermost operation at a line or at its end. -/
def stepsInRange : List Position → Bool
  | [] => true
  | top :: callers =>
    decide (top.step ≤ (linesOf top.op).length)
      && callers.all (fun q => decide (q.step < (linesOf q.op).length))

/-- The engine stands in the loop of a skip, the one place where `CNT` counts down. -/
def inDiscardLoop : List Position → Bool
  | ⟨.skipn _, 1⟩ :: _ => true
  | ⟨.skipv, 2⟩ :: _ => true
  | _ => false

/-- What holds in every state a run from reset can reach. -/
structure Inv (s : State) : Prop where
  /-- The Frame Buffer is canonical. -/
  memory : Memory.wf s.params s.block.fb = true
  /-- `BUSY` is 1 exactly when `SEQ` is not empty (spec/10 R27). -/
  busy : s.block.busy = !s.block.seq.isEmpty
  /-- The calls nest as R24 says. -/
  ranks : ranksRise s.block.seq = true
  /-- `SEQ` names steps of its operations. -/
  steps : stepsInRange s.block.seq = true
  /-- `FBVALID` is 1 only while the Frame Buffer holds a frame that passed validation (spec/10 R25). -/
  valid : s.block.fbValid = true →
    frameAccepted s.params s.block.fb ∧ s.block.magicOk = true ∧ s.block.seqOk = true
  /-- `CNT` is 0 outside a skip's loop, unless a bus fault cut one short (spec/10 R23). -/
  counter : s.block.cnt ≠ 0 → s.block.fault = true ∨ inDiscardLoop s.block.seq = true
  /-- After a bus fault nothing runs (spec/60 R204, R207). -/
  stopped : s.block.fault = true → s.block.seq = []

/-! ### The events of a run -/

/-- The events of a run of discard transfers that received these bytes (spec/41 R120). -/
def discardEvents (fill : Byte) (rx : List Byte) : List Event := rx.map (fun b => .busByte fill (some b))

/-- The event of a command frame's transfer (spec/40 R113), with the bytes received meanwhile. -/
def commandEvent (c v : Byte) (rx : List Byte) : Event := .busBuf (commandFrame c v) (some rx)

/-- The event of a settle delay (spec/00 R13). -/
def settleEvent : Event := .delay 500

/-- The history with these events, in the order they happen, added at its newest end. -/
def History.add (events : List Event) (hist : List Event) : List Event := events.reverse ++ hist

/-- The event of an operation's response (spec/30 R84). -/
def responseEvent (st : Status) (info : Half) : Event := .response (responseWord st info)

/-- The events of acquisition attempts number `k` on, each a full transfer that sends what the last one received (spec/70
R236): torn frames, each with its SequenceError logged (spec/43 R154), then the accepted one. -/
def retryEvents (sent : List Byte) (k : Nat) (torn : List (List Byte)) (good : List Byte) : List Event :=
  match torn with
  | [] => [.busBuf sent (some good)]
  | f :: more => .busBuf sent (some f) :: .log 2 (BitVec.ofNat 16 k) :: retryEvents f (k + 1) more good

/-! ### What acquisitions leave -/

/-- What an acquisition that accepts its first frame leaves of the block, before a result is written (spec/43 R152). -/
def acceptedBlock (s : State) (good : List Byte) : Block :=
  { s.block with
    fb := fbStore s.params good, magicOk := true, seqOk := true, fbValid := true, attempts := 1
    lastErr := .none, seq := [] }

/-- The result registers and their flags (spec/10 R22, R26, R30). -/
def results (b : Block) : Word × Half × Vector Word 32 × Vector Half 32 × Bool × Bool × Bool × Bool :=
  (b.rngRaw, b.intRaw, b.rgridRaw, b.igridRaw, b.rvR, b.rvI, b.rvRG, b.rvIG)

/-- So many steps of the machine. -/
def runSteps (n : Nat) (s : State) : Host.Outcome State Fault Refusal := Host.Core.run Sys2Proof.core n s

end Sys2Proof.Machine
end

