-- ==== Sys2Proof/Certificates/Slice0/Obligations.lean ====
section
/-! DEFINITION. The statements for the provers, family by family. `t` is always the state after; a transfer's answers are
the script of `env` (`fails`, `bytes`), so a statement over every script is a statement over every device. -/

open Sys2Proof Sys2Proof.Machine

/-! ### Encoding (spec/30) -/

/-- R81, R82: no operand bit is dropped on the way out and back. -/
def Obligations.DecodeOfEncode : Prop := ∀ i : Instr, decode (encode i) = some i

/-- R81: a word that decodes is the encoding of what it decodes to, so each operation has one word. -/
def Obligations.EncodeOfDecode : Prop := ∀ (w : ReqWord) (i : Instr), decode w = some i → encode i = w

/-- R81 against R83: the words the opcode rows select are exactly those none of R83's four conditions calls illegal. -/
def Obligations.DecodedWordsAreTheLegalOnes : Prop := ∀ w : ReqWord, (decode w).isSome = Request.legal w

/-- R81: "The 13 patterns are pairwise disjoint", so the order in which a decoder tests them does not matter. -/
def Obligations.OpcodeRowsAreDisjoint : Prop :=
  ∀ (w : ReqWord) (row row' : ReqWord × ReqWord), row ∈ opcodeRows → row' ∈ opcodeRows →
    rowSelects row w = true → rowSelects row' w = true → row = row'

/-- Words of spec/30 R81, one of each family, written out bit by bit. -/
def Obligations.WordsOfEveryFamilyDecode : Prop :=
  decode 0b000000010001001000110100 = some (.enc 0x12 0x34) ∧
    decode 0b000000110000000100000000 = some (.skipn 256) ∧
    decode 0b000001110000000100000000 = some (.config .long .low) ∧
    decode 0b000010010000000000000000 = some .acq ∧
    decode 0b000011000000000000000000 = some .rdrg ∧
    decode 0b000001100000000000000010 = none

/-! ### The request port and reset (spec/30 R80, R83; spec/60; spec/70 R230) -/

/-- A STEP RUNS THE DECODED INSTRUCTION: an idle block with a request word presented accepts it, and what follows is
exactly that operation's meaning with the word taken off the port. -/
def Obligations.StepRunsDecodedInstruction : Prop :=
  ∀ (s : State) (w : ReqWord) (rest : List HostAct) (i : Instr),
    s.block.busy = false → s.env.host = .request w :: rest → decode w = some i →
      step s = exec i (takeAction rest s)

/-- R205: an illegal word is answered `ILLEGAL(0)` at once; no block state changes, no bus answer is drawn, and the word
and the response are all the history shows. -/
def Obligations.IllegalWordChangesNothing : Prop :=
  ∀ (s : State) (w : ReqWord) (rest : List HostAct),
    Ready s → s.env.host = .request w :: rest → Request.illegal w = true →
      step s = .next { s with
        env := { s.env with host := rest }
        rsp := some 0x10000
        hist := .response 0x10000 :: .request w :: s.hist }

/-- R207: while `FAULT` = 1 every word, legal or not, is answered `FAULTED(0)` and nothing of the block changes. -/
def Obligations.FaultedWordChangesNothing : Prop :=
  ∀ (s : State) (w : ReqWord) (rest : List HostAct),
    s.block.busy = false → s.block.fault = true → s.env.host = .request w :: rest →
      step s = .next { s with
        env := { s.env with host := rest }
        rsp := some 0x60000
        hist := .response 0x60000 :: .request w :: s.hist }

/-- R80: while `BUSY` = 1 a presented request waits: the engine takes its own step and the word stays presented (how a
waiting word is held is the model's, log 13 and log 25). -/
def Obligations.RequestWaitsWhileBusy : Prop :=
  ∀ (s : State) (w : ReqWord) (rest : List HostAct),
    s.block.busy = true → s.env.host = .request w :: rest →
      step s = .next (tick s) ∧ (tick s).env.host = .request w :: rest

/-- R230, R40: reset, whenever it is asserted, leaves the flags, counters and session-valid bits R40 states, an idle
engine, and a Frame Buffer that reads as `FB_RESET`; the parameters and the bus script are untouched. (The result
registers and `MODE`, `DIST`, `RATE` are unspecified there: nothing is said of them. That the script goes on is log 18.) -/
def Obligations.ResetTakesStatedValues : Prop :=
  ∀ (s : State) (rest : List HostAct), s.env.host = .reset :: rest →
    ∃ t, step s = .next t ∧ t.params = s.params ∧ t.env = { s.env with host := rest } ∧
      (∀ a < 256, fbRead t.params t.block.fb a = s.params.fbReset.toList.getD a 0) ∧
      t.block.rvR = false ∧ t.block.rvI = false ∧ t.block.rvRG = false ∧ t.block.rvIG = false ∧
      t.block.len = 0 ∧ t.block.cnt = 0 ∧ t.block.attempts = 0 ∧ t.block.seq = [] ∧
      t.block.magicOk = false ∧ t.block.seqOk = false ∧ t.block.fbValid = false ∧
      t.block.busy = false ∧ t.block.fault = false ∧
      t.block.modeV = false ∧ t.block.cfgV = false ∧ t.block.lastErr = .none

/-- R230: an idle block to which nothing is presented does nothing: "it performs no bus transfer and no delay until the
host asks". -/
def Obligations.IdleBlockWaits : Prop :=
  ∀ s : State, s.block.seq = [] → s.env.host = [] → step s = .next s

/-- R204: "`FAULT` is cleared only by reset": no other step clears it. -/
def Obligations.OnlyResetClearsFault : Prop :=
  ∀ s t : State, s.block.fault = true → step s = .next t →
    t.block.fault = true ∨ ∃ rest, s.env.host = .reset :: rest

/-- R26: a result-valid flag "is never cleared except by reset". -/
def Obligations.OnlyResetClearsResultValid : Prop :=
  ∀ s t : State, step s = .next t → (∀ rest, s.env.host ≠ .reset :: rest) →
    (s.block.rvR = true → t.block.rvR = true) ∧ (s.block.rvI = true → t.block.rvI = true) ∧
      (s.block.rvRG = true → t.block.rvRG = true) ∧ (s.block.rvIG = true → t.block.rvIG = true)

/-- The history is only ever added to, and no step changes a parameter (R15, R9; both are fields of the model, log 3 and
log 4). -/
def Obligations.HistoryOnlyGrows : Prop :=
  ∀ s t : State, step s = .next t → (∃ events, t.hist = events ++ s.hist) ∧ t.params = s.params

/-! ### The host read port (spec/10 R27, R28, R44, R45) -/

/-- R45, R44: while `BUSY` = 1 `STATUS` alone can be read, and the step that reads it shows it and changes nothing else
(that the read stands in the history is the model's choice, log 27); another read and every byte read is not accepted, has
no step of its own, and stays presented (log 25). -/
def Obligations.OnlyStatusReadableWhileBusy : Prop :=
  ∀ s : State, s.block.busy = true →
    readPort 0x00 s = some ((statusWord s.block).setWidth 48) ∧
      (∀ rest, s.env.host = .read 0x00 :: rest →
        step s = .next { s with
          env := { s.env with host := rest }
          hist := .hostRead 0x00 ((statusWord s.block).setWidth 48) :: s.hist }) ∧
      (∀ sel, sel ≠ 0x00 → readPort sel s = none) ∧ (∀ idx, fbreadPort idx s = none) ∧
      (∀ sel rest, sel ≠ 0x00 → s.env.host = .read sel :: rest →
        step s = .next (tick s) ∧ (tick s).env.host = .read sel :: rest) ∧
      (∀ idx rest, s.env.host = .fbread idx :: rest →
        step s = .next (tick s) ∧ (tick s).env.host = .fbread idx :: rest)

/-- R44, R57: what each select returns while the engine is idle and the registers it shows have been written; and a step with
a read or byte read presented takes it, shows exactly that value, and changes nothing else. -/
def Obligations.ReadPortReturnsTable : Prop :=
  ∀ s : State, s.block.busy = false →
    readPort 0x00 s = some ((statusWord s.block).setWidth 48) ∧
      (s.block.modeV = true → s.block.cfgV = true →
        readPort 0x01 s = some ((sessionWord s.block.mode s.block.dist s.block.rate).setWidth 48)) ∧
      readPort 0x02 s = some (s.block.len.setWidth 48) ∧
      readPort 0x03 s = some (s.block.attempts.setWidth 48) ∧
      readPort 0x04 s = some ((errCode s.block.lastErr).setWidth 48) ∧
      readPort 0x05 s = some ((resvalidWord s.block).setWidth 48) ∧
      (s.block.rvR = true →
        readPort 0x10 s = some (s.block.rngRaw.setWidth 48) ∧
          readPort 0x11 s = some ((rangeI s.block.rngRaw).setWidth 48) ∧
          readPort 0x12 s = some ((rangeF s.block.rngRaw).setWidth 48) ∧
          readPort 0x13 s = some (BitVec.ofNat 48 (rangeQ s.block.rngRaw))) ∧
      (s.block.rvI = true →
        readPort 0x14 s = some (s.block.intRaw.setWidth 48) ∧
          readPort 0x15 s = some ((intensityQ s.block.intRaw).setWidth 48)) ∧
      (s.block.rvRG = true → ∀ i : Fin 32,
        readPort (BitVec.ofNat 8 (0x20 + i)) s = some ((s.block.rgridRaw[i]).setWidth 48) ∧
          readPort (BitVec.ofNat 8 (0x40 + i)) s = some (BitVec.ofNat 48 (rangeQ s.block.rgridRaw[i]))) ∧
      (s.block.rvIG = true → ∀ i : Fin 32,
        readPort (BitVec.ofNat 8 (0x60 + i)) s = some ((s.block.igridRaw[i]).setWidth 48) ∧
          readPort (BitVec.ofNat 8 (0x80 + i)) s = some ((intensityQ s.block.igridRaw[i]).setWidth 48)) ∧
      (∀ sel : Byte, (0x06 ≤ sel.toNat ∧ sel.toNat < 0x10) ∨ (0x16 ≤ sel.toNat ∧ sel.toNat < 0x20) ∨
        0xA0 ≤ sel.toNat → readPort sel s = some 0) ∧
      (∀ idx : Byte, fbreadPort idx s = some (fbRead s.params s.block.fb idx.toNat)) ∧
      (∀ sel rest, s.env.host = .read sel :: rest → ∃ v, readPort sel s = some v ∧
        step s = .next { s with env := { s.env with host := rest }, hist := .hostRead sel v :: s.hist }) ∧
      (∀ idx rest, s.env.host = .fbread idx :: rest →
        step s = .next { s with
          env := { s.env with host := rest }
          hist := .hostFbRead idx (fbRead s.params s.block.fb idx.toNat) :: s.hist })

/-- R27, R28, R44: the bits of `STATUS`, `SESSION` and `RESVALID`. -/
def Obligations.StatusWordsHaveStatedBits : Prop :=
  ∀ b : Block,
    (List.range 8).map (statusWord b).getLsbD =
        [b.busy, b.fault, b.fbValid, b.magicOk, b.seqOk, b.cfgV, b.modeV, false] ∧
      (List.range 8).map (sessionWord b.mode b.dist b.rate).getLsbD =
        [decide (b.mode = .normal), decide (b.dist = .long), decide (b.rate = .high), false, false, false, false, false] ∧
      (List.range 8).map (resvalidWord b).getLsbD =
        [b.rvR, b.rvI, b.rvRG, b.rvIG, false, false, false, false]

/-! ### Frame Buffer and decode functions (spec/20, spec/44) -/

/-- R50: multi-byte reads are big-endian. -/
def Obligations.MultiByteReadsAreBigEndian : Prop :=
  ∀ (p : Params) (fb : Memory) (a : Nat),
    (memRead4 p fb a).toNat = (fbRead p fb a).toNat * 2 ^ 24 + (fbRead p fb (a + 1)).toNat * 2 ^ 16
        + (fbRead p fb (a + 2)).toNat * 2 ^ 8 + (fbRead p fb (a + 3)).toNat ∧
      (memRead2 p fb a).toNat = (fbRead p fb a).toNat * 2 ^ 8 + (fbRead p fb (a + 1)).toNat

/-- R171, R87: the fields of a range raw value, and bit 31 taking no part. -/
def Obligations.RangeFieldsIgnoreBit31 : Prop :=
  ∀ r : Word,
    (rangeI r).toNat = (r.toNat / 2 ^ 22) % 512 ∧ (rangeF r).toNat = r.toNat % 2 ^ 22 ∧
      rangeI (r ^^^ 0x80000000) = rangeI r ∧ rangeF (r ^^^ 0x80000000) = rangeF r

/-- R172, R175: the scaled integer is the exact value times 10^8, and fits 46 bits. -/
def Obligations.RangeQIsExact : Prop :=
  ∀ r : Word, (rangeQ r : Rat) = decodeRange r * 100000000 ∧ rangeQ r < 2 ^ 46

/-- R172: the decode is not monotonic: one step up from the largest fraction the value falls by 0.00572126, anywhere
else it rises by 0.00023842. -/
def Obligations.RangeDecodeStepsAndFalls : Prop :=
  ∀ r : Word,
    (rangeF r ≠ 0x3FFFFF → rangeQ (r + 1) = rangeQ r + 23842) ∧
      (rangeF r = 0x3FFFFF → rangeI r ≠ 511 → rangeQ (r + 1) + 572126 = rangeQ r)

/-- R173, R175: intensity is the raw value divided by 16, in sixteenths; the low four bits take no part. -/
def Obligations.IntensityIsSixteenths : Prop :=
  ∀ r : Half,
    (intensityQ r).toNat = r.toNat / 16 ∧
      decodeIntensity r * 16 = ((intensityQ r).toNat : Rat) ∧ intensityQ (r &&& 0xFFF0) = intensityQ r

/-! ### Command Encoder (spec/40) -/

/-- R110: `ENC` on a ready block writes the command frame, clears `FBVALID`, and answers OK(0); no other state changes, no
bus answer is drawn. -/
def Obligations.EncWritesCommandFrame : Prop :=
  ∀ (c v : Byte) (s : State), Ready s →
    exec (.enc c v) s = .next { s with
      block := { s.block with fb := fbStore s.params (commandFrame c v), fbValid := false, seq := [] }
      rsp := some 0x00000
      hist := History.add [.request (encode (.enc c v)), responseEvent .ok 0] s.hist }

/-- R111: after `ENC c, v` the bytes of the Frame Buffer, one by one. -/
def Obligations.EncRoundTrip : Prop :=
  ∀ (c v : Byte) (s : State), Ready s →
    ∃ t, exec (.enc c v) s = .next t ∧
      fbRead t.params t.block.fb 0 = 0xEB ∧ fbRead t.params t.block.fb 2 = 0x01 ∧
      fbRead t.params t.block.fb 4 = 0xED ∧ fbRead t.params t.block.fb 1 = c ∧
      fbRead t.params t.block.fb 3 = v ∧ ∀ i, 5 ≤ i → i ≤ 255 → fbRead t.params t.block.fb i = 0x00

/-- R112: `XFER` sends the 256 bytes the Frame Buffer holds and leaves in it the 256 received, `FBVALID` = 0, the
other flags as they were. -/
def Obligations.XferExchangesFrame : Prop :=
  ∀ (s : State) (rx : List Byte) (fs : List Bool) (bs : List Byte),
    Ready s → rx.length = 256 → s.env.fails = false :: fs → s.env.bytes = rx ++ bs →
      exec .xfer s = .next { s with
        block := { s.block with fb := fbStore s.params rx, fbValid := false, seq := [] }
        env := { s.env with fails := fs, bytes := bs }
        rsp := some 0x00000
        hist := History.add
          [.request 0x020000, .busBuf (fbBytes s.params s.block.fb) (some rx), responseEvent .ok 0] s.hist }

/-- R12, R112, R236: what a transfer sends and leaves, byte by byte, for a canonical Frame Buffer. -/
def Obligations.TransferBytesAreTheBuffers : Prop :=
  ∀ (p : Params) (fb : Memory) (rx : List Byte), Memory.wf p fb = true → rx.length = 256 →
    (fbBytes p fb).length = 256 ∧ (∀ i < 256, (fbBytes p fb)[i]? = some (fbRead p fb i)) ∧
      (∀ i < 256, rx[i]? = some (fbRead p (fbStore p rx) i)) ∧ Memory.wf p (fbStore p rx) = true

/-- R204: a failing `XFER` ends `BUSERR(0)`; `FAULT` is set, `FBVALID` cleared, the Frame Buffer holds free bytes (a free
value of Config, whatever it is, log 9), and nothing else of the block changes. -/
def Obligations.XferBusErrorIsFatal : Prop :=
  ∀ (s : State) (fs : List Bool), Ready s → s.env.fails = true :: fs →
    exec .xfer s = .next { s with
      block := { s.block with
        fb := fbStore s.params (freeFrame s.env), fault := true, fbValid := false, seq := [] }
      env := { s.env with fails := fs, drawn := s.env.drawn + 1 }
      rsp := some 0x50000
      hist := History.add
        [.request 0x020000, .busBuf (fbBytes s.params s.block.fb) none, responseEvent .busErr 0] s.hist }

/-! ### Frame Synchronizer (spec/41) -/

/-- R120: `SKIPN n` issues `n` discard transfers, leaves `CNT` = 0 and nothing else of the block changed. -/
def Obligations.SkipnDiscards : Prop :=
  ∀ (n : Half) (s : State) (rx : List Byte) (fs : List Bool) (bs : List Byte),
    Ready s → rx.length = n.toNat → s.env.fails = List.replicate n.toNat false ++ fs → s.env.bytes = rx ++ bs →
      exec (.skipn n) s = .next { s with
        block := { s.block with cnt := 0, seq := [] }
        env := { s.env with fails := fs, bytes := bs }
        rsp := some 0x00000
        hist := History.add
          ([.request (encode (.skipn n))] ++ discardEvents s.params.skipFill rx ++ [responseEvent .ok 0]) s.hist }

/-- R204, R120, R121, R122, R135: a skip cut short by a bus error keeps in `CNT` the discards not completed, the failing one
included, and `LEN` as read; the Frame Buffer is as it was. The clauses: `SKIPN n` whose transfer number `rx.length + 1` fails;
`SKIPV` whose length byte's transfer fails (`LEN` and `CNT` as they were); `SKIPV` whose discard number `rx.length + 1` fails;
`SETMODE` and `SYNC` whose first flush fails, with the mode already recorded. -/
def Obligations.SkipnBusErrorKeepsCount : Prop :=
  ∀ (s : State) (rx : List Byte) (fs : List Bool) (bs : List Byte), Ready s →
    (∀ n : Half, rx.length < n.toNat → s.env.fails = List.replicate rx.length false ++ true :: fs →
      s.env.bytes = rx ++ bs →
      exec (.skipn n) s = .next { s with
        block := { s.block with
          cnt := BitVec.ofNat 16 (n.toNat - rx.length), fault := true, fbValid := false, seq := [] }
        env := { s.env with fails := fs, bytes := bs }
        rsp := some 0x50000
        hist := History.add
          ([.request (encode (.skipn n))] ++ discardEvents s.params.skipFill rx
            ++ [.busByte s.params.skipFill none, responseEvent .busErr 0]) s.hist }) ∧
    (s.env.fails = true :: fs →
      exec .skipv s = .next { s with
        block := { s.block with fault := true, fbValid := false, seq := [] }
        env := { s.env with fails := fs }
        rsp := some 0x50000
        hist := History.add
          [.request 0x040000, .busByte s.params.skipFill none, responseEvent .busErr 0] s.hist }) ∧
    (∀ l : Byte, rx.length < l.toNat → s.env.fails = List.replicate (rx.length + 1) false ++ true :: fs →
      s.env.bytes = l :: (rx ++ bs) →
      exec .skipv s = .next { s with
        block := { s.block with
          len := l, cnt := BitVec.ofNat 16 (l.toNat - rx.length), fault := true, fbValid := false, seq := [] }
        env := { s.env with fails := fs, bytes := bs }
        rsp := some 0x50000
        hist := History.add
          ([.request 0x040000] ++ discardEvents s.params.skipFill (l :: rx)
            ++ [.busByte s.params.skipFill none, responseEvent .busErr 0]) s.hist }) ∧
    (∀ (i : Instr) (m : Mode), (i, m) ∈ [(.setmode .sync, .sync), (.setmode .normal, .normal), (.sync, .sync)] →
      rx.length < 256 → s.env.fails = List.replicate rx.length false ++ true :: fs → s.env.bytes = rx ++ bs →
      exec i s = .next { s with
        block := { s.block with
          mode := m, modeV := true, cnt := BitVec.ofNat 16 (256 - rx.length)
          fault := true, fbValid := false, seq := [] }
        env := { s.env with fails := fs, bytes := bs }
        rsp := some 0x50000
        hist := History.add
          ([.request (encode i)] ++ discardEvents s.params.skipFill rx
            ++ [.busByte s.params.skipFill none, responseEvent .busErr 0]) s.hist })

/-- R121: `SKIPV` reads a length byte into `LEN`, discards that many bytes, leaves `CNT` = 0 and answers OK(LEN). -/
def Obligations.SkipvDiscardsLengthPrefixedRun : Prop :=
  ∀ (l : Byte) (s : State) (rx : List Byte) (fs : List Bool) (bs : List Byte),
    Ready s → rx.length = l.toNat → s.env.fails = List.replicate (l.toNat + 1) false ++ fs →
      s.env.bytes = l :: (rx ++ bs) →
      exec .skipv s = .next { s with
        block := { s.block with len := l, cnt := 0, seq := [] }
        env := { s.env with fails := fs, bytes := bs }
        rsp := some (responseWord .ok (l.setWidth 16))
        hist := History.add
          ([.request 0x040000] ++ discardEvents s.params.skipFill (l :: rx)
            ++ [responseEvent .ok (l.setWidth 16)]) s.hist }

/-- R122: `SYNC` records Sync, flushes a frame, settles, sends the mode command, settles, flushes a frame and then a
length-prefixed run, in that order. -/
def Obligations.SyncRunsInOrder : Prop :=
  ∀ (s : State) (r1 f r2 rx : List Byte) (l : Byte) (fs : List Bool) (bs : List Byte),
    Ready s → r1.length = 256 → f.length = 256 → r2.length = 256 → rx.length = l.toNat →
      s.env.fails = List.replicate (514 + l.toNat) false ++ fs →
      s.env.bytes = r1 ++ (f ++ (r2 ++ l :: (rx ++ bs))) →
      exec .sync s = .next { s with
        block := { s.block with
          mode := .sync, modeV := true, fb := fbStore s.params f, fbValid := false, len := l, cnt := 0, seq := [] }
        env := { s.env with fails := fs, bytes := bs }
        rsp := some 0x00000
        hist := History.add
          ([.request 0x050000] ++ discardEvents s.params.skipFill r1 ++ [settleEvent]
            ++ [commandEvent s.params.cmdMode s.params.modeValSync f] ++ [settleEvent]
            ++ discardEvents s.params.skipFill r2 ++ discardEvents s.params.skipFill (l :: rx)
            ++ [responseEvent .ok 0]) s.hist }

/-- R124: "it reads no block state": two ready blocks with the same parameters and the same device and failures perform the
same sequence of events, whatever their Frame Buffers, session registers and flags hold, to the same response. -/
def Obligations.SyncReadsNoBlockState : Prop :=
  ∀ s s' : State, Ready s → Ready s' → s.params = s'.params → s.env = s'.env →
    ∃ t t' events, exec .sync s = .next t ∧ exec .sync s' = .next t' ∧
      t.hist = History.add events s.hist ∧ t'.hist = History.add events s'.hist ∧ t.rsp = t'.rsp

/-! ### Mode and configuration setter (spec/42) -/

/-- R135: `SETMODE m` records the mode, flushes a frame, settles, sends the mode command, settles. -/
def Obligations.SetmodeRecordsFlushesAndSends : Prop :=
  ∀ (m : Mode) (s : State) (r f : List Byte) (fs : List Bool) (bs : List Byte),
    Ready s → r.length = 256 → f.length = 256 → s.env.fails = List.replicate 257 false ++ fs →
      s.env.bytes = r ++ (f ++ bs) →
      exec (.setmode m) s = .next { s with
        block := { s.block with
          mode := m, modeV := true, fb := fbStore s.params f, fbValid := false, cnt := 0, seq := [] }
        env := { s.env with fails := fs, bytes := bs }
        rsp := some 0x00000
        hist := History.add
          ([.request (encode (.setmode m))] ++ discardEvents s.params.skipFill r ++ [settleEvent]
            ++ [commandEvent s.params.cmdMode (modeVal s.params m) f] ++ [settleEvent]
            ++ [responseEvent .ok 0]) s.hist }

/-- R136: `CONFIG d, r` records both parameters, runs `SETMODE(Normal)`, sends the distance command, settles, flushes, sends
the rate command, settles, flushes. -/
def Obligations.ConfigRunsInOrder : Prop :=
  ∀ (d : Dist) (r : Rate) (s : State) (r1 f1 f2 r2 f3 r3 : List Byte) (fs : List Bool) (bs : List Byte),
    Ready s → r1.length = 256 → f1.length = 256 → f2.length = 256 → r2.length = 256 → f3.length = 256 →
      r3.length = 256 → s.env.fails = List.replicate 771 false ++ fs →
      s.env.bytes = r1 ++ (f1 ++ (f2 ++ (r2 ++ (f3 ++ (r3 ++ bs))))) →
      exec (.config d r) s = .next { s with
        block := { s.block with
          dist := d, rate := r, cfgV := true, mode := .normal, modeV := true
          fb := fbStore s.params f3, fbValid := false, cnt := 0, seq := [] }
        env := { s.env with fails := fs, bytes := bs }
        rsp := some 0x00000
        hist := History.add
          ([.request (encode (.config d r))] ++ discardEvents s.params.skipFill r1 ++ [settleEvent]
            ++ [commandEvent s.params.cmdMode s.params.modeValNormal f1] ++ [settleEvent]
            ++ [commandEvent s.params.cmdDistance (distVal s.params d) f2] ++ [settleEvent]
            ++ discardEvents s.params.skipFill r2
            ++ [commandEvent (rateCmd s.params r) s.params.rateArg f3] ++ [settleEvent]
            ++ discardEvents s.params.skipFill r3 ++ [responseEvent .ok 0]) s.hist }

/-- R204, R135, R136: a bus error, at whatever transfer, ends any operation `BUSERR` with R204's `info`, idle, `FBVALID` =
0, and no operation is answered `BUSERR` without one; inside `CONFIG` it leaves the distance, the rate and the mode
recorded, inside `SETMODE` and `SYNC` the mode. The last clause is one such run: the transfer of `CONFIG`'s mode command
fails. -/
def Obligations.ConfigBusErrorKeepsRecord : Prop :=
  (∀ (i : Instr) (s t : State), Ready s → exec i s = .next t →
    (t.block.fault = true →
      t.rsp = some (responseWord .busErr (if callRank i < 3 then 0 else t.block.attempts)) ∧
        t.block.busy = false ∧ t.block.seq = [] ∧ t.block.fbValid = false) ∧
      (t.block.fault = false → ∀ w, t.rsp = some w → w.extractLsb' 16 4 ≠ 5)) ∧
  (∀ (d : Dist) (r : Rate) (s t : State), Ready s → exec (.config d r) s = .next t → t.block.fault = true →
    t.rsp = some 0x50000 ∧ t.block.dist = d ∧ t.block.rate = r ∧ t.block.cfgV = true ∧
      t.block.mode = .normal ∧ t.block.modeV = true ∧ t.block.fbValid = false) ∧
  (∀ (m : Mode) (s t : State), Ready s → exec (.setmode m) s = .next t → t.block.fault = true →
    t.rsp = some 0x50000 ∧ t.block.mode = m ∧ t.block.modeV = true ∧ t.block.fbValid = false) ∧
  (∀ s t : State, Ready s → exec .sync s = .next t → t.block.fault = true →
    t.rsp = some 0x50000 ∧ t.block.mode = .sync ∧ t.block.modeV = true ∧ t.block.fbValid = false) ∧
  (∀ (d : Dist) (r : Rate) (s : State) (r1 : List Byte) (fs : List Bool) (bs : List Byte),
    Ready s → r1.length = 256 → s.env.fails = List.replicate 256 false ++ true :: fs → s.env.bytes = r1 ++ bs →
      ∃ t, exec (.config d r) s = .next t ∧ t.rsp = some 0x50000 ∧ t.block.fault = true ∧
        t.block.busy = false ∧ t.block.dist = d ∧ t.block.rate = r ∧ t.block.cfgV = true ∧
        t.block.mode = .normal ∧ t.block.modeV = true ∧ t.block.fbValid = false)

/-! ### Frame Validator and Acquisition Loop (spec/43) -/

/-- R150, R151: `VAL` writes the three flags from `FB[0]`, `FB[1]`, `FB[255]` and answers OK(class); nothing else of the
block changes and no bus answer is drawn. -/
def Obligations.ValClassifiesFrame : Prop :=
  ∀ s : State, Ready s →
    exec .val s = .next { s with
      block := { s.block with
        magicOk := fbRead s.params s.block.fb 0 = 0xE9
        seqOk := fbRead s.params s.block.fb 1 = fbRead s.params s.block.fb 255
        fbValid := fbRead s.params s.block.fb 0 = 0xE9
          ∧ fbRead s.params s.block.fb 1 = fbRead s.params s.block.fb 255
        seq := [] }
      rsp := some (if fbRead s.params s.block.fb 0 ≠ 0xE9 then 0x00001
        else if fbRead s.params s.block.fb 1 ≠ fbRead s.params s.block.fb 255 then 0x00002 else 0x00000)
      hist := History.add [.request 0x080000,
        .response (if fbRead s.params s.block.fb 0 ≠ 0xE9 then 0x00001
          else if fbRead s.params s.block.fb 1 ≠ fbRead s.params s.block.fb 255 then 0x00002 else 0x00000)] s.hist }

/-- R157: a wrong magic is rejected whatever else the buffer holds; right magic and equal sequence bytes are accepted. -/
def Obligations.ValidationAcceptsExactly : Prop :=
  ∀ (p : Params) (b : Block),
    (fbRead p b.fb 0 ≠ 0xE9 → frameClass (validate p b) = 1 ∧ (validate p b).fbValid = false) ∧
      (fbRead p b.fb 0 = 0xE9 → fbRead p b.fb 1 = fbRead p b.fb 255 →
        frameClass (validate p b) = 0 ∧ (validate p b).fbValid = true) ∧
      (fbRead p b.fb 0 = 0xE9 → fbRead p b.fb 1 ≠ fbRead p b.fb 255 →
        frameClass (validate p b) = 2 ∧ (validate p b).fbValid = false)

/-- R152, R154: `ACQ` against a device that first sends torn frames and then a good one retries with one full transfer each and
nothing else, logs each SequenceError, and answers OK with the number of transfers. -/
def Obligations.AcqRetriesTornFrames : Prop :=
  ∀ (s : State) (torn : List (List Byte)) (good : List Byte) (fs : List Bool) (bs : List Byte),
    Ready s → (∀ f ∈ torn, TornFrame f) → GoodFrame good → torn.length < 65535 →
      (s.params.maxAttempts = 0 ∨ torn.length < s.params.maxAttempts.toNat) →
      s.env.fails = List.replicate (torn.length + 1) false ++ fs →
      s.env.bytes = torn.flatten ++ (good ++ bs) →
      exec .acq s = .next { s with
        block := { s.block with
          fb := fbStore s.params good, magicOk := true, seqOk := true, fbValid := true
          attempts := BitVec.ofNat 16 (torn.length + 1)
          lastErr := if torn = [] then .none else .sequence
          seq := [] }
        env := { s.env with fails := fs, bytes := bs }
        rsp := some (responseWord .ok (BitVec.ofNat 16 (torn.length + 1)))
        hist := History.add
          ([.request 0x090000] ++ retryEvents (fbBytes s.params s.block.fb) 1 torn good
            ++ [responseEvent .ok (BitVec.ofNat 16 (torn.length + 1))]) s.hist }

/-- R152, R153: `ACQ` that meets one misaligned frame logs a FramingError, runs the whole of `SYNC` and then `CONFIG` with
the recorded distance and rate, and acquires again; the result is OK(2). -/
def Obligations.AcqRecoversFromFramingError : Prop :=
  ∀ (s : State) (bad good r1 f1 r2 rx r3 f2 f3 r4 f4 r5 : List Byte) (l : Byte) (fs : List Bool) (bs : List Byte),
    Ready s → s.block.cfgV = true → s.params.maxAttempts ≠ 1 → MisalignedFrame bad → GoodFrame good →
      r1.length = 256 → f1.length = 256 → r2.length = 256 → rx.length = l.toNat → r3.length = 256 →
      f2.length = 256 → f3.length = 256 → r4.length = 256 → f4.length = 256 → r5.length = 256 →
      s.env.fails = List.replicate (1287 + l.toNat) false ++ fs →
      s.env.bytes = bad ++ (r1 ++ (f1 ++ (r2 ++ l :: (rx ++ (r3 ++ (f2 ++ (f3 ++ (r4 ++ (f4 ++ (r5 ++
        (good ++ bs))))))))))) →
      exec .acq s = .next { s with
        block := { s.block with
          fb := fbStore s.params good, magicOk := true, seqOk := true, fbValid := true, attempts := 2
          lastErr := .framing, len := l, cnt := 0, mode := .normal, modeV := true, seq := [] }
        env := { s.env with fails := fs, bytes := bs }
        rsp := some 0x00002
        hist := History.add
          ([.request 0x090000, .busBuf (fbBytes s.params s.block.fb) (some bad), .log 1 1]
            ++ discardEvents s.params.skipFill r1 ++ [settleEvent]
            ++ [commandEvent s.params.cmdMode s.params.modeValSync f1] ++ [settleEvent]
            ++ discardEvents s.params.skipFill r2 ++ discardEvents s.params.skipFill (l :: rx)
            ++ discardEvents s.params.skipFill r3 ++ [settleEvent]
            ++ [commandEvent s.params.cmdMode s.params.modeValNormal f2] ++ [settleEvent]
            ++ [commandEvent s.params.cmdDistance (distVal s.params s.block.dist) f3] ++ [settleEvent]
            ++ discardEvents s.params.skipFill r4
            ++ [commandEvent (rateCmd s.params s.block.rate) s.params.rateArg f4] ++ [settleEvent]
            ++ discardEvents s.params.skipFill r5
            ++ [.busBuf f4 (some good), responseEvent .ok 2]) s.hist }

/-- R206, R208, R210 item 4: a misaligned first frame on a block that was never configured: with `MAX_ATTEMPTS` = 1 the bound
is tested first and the answer is ERR_FRAMING(1), otherwise CFGUNSET(1); in both no recovery transfer is made. -/
def Obligations.AcqWithoutConfigurationStops : Prop :=
  ∀ (s : State) (bad : List Byte) (fs : List Bool) (bs : List Byte),
    Ready s → s.block.cfgV = false → MisalignedFrame bad → s.env.fails = false :: fs → s.env.bytes = bad ++ bs →
      ∃ t, exec .acq s = .next t ∧
        t.block = { s.block with
          fb := fbStore s.params bad, magicOk := false
          seqOk := sequenceMatches s.params (fbStore s.params bad), fbValid := false
          attempts := 1, lastErr := .framing, seq := [] } ∧
        t.env = { s.env with fails := fs, bytes := bs } ∧
        t.rsp = some (if s.params.maxAttempts = 1 then 0x20001 else 0x40001) ∧
        t.hist = History.add [.request 0x090000, .busBuf (fbBytes s.params s.block.fb) (some bad), .log 1 1,
          .response (if s.params.maxAttempts = 1 then 0x20001 else 0x40001)] s.hist

/-- R208, R155: when step-1 transfer number N = `MAX_ATTEMPTS` fails validation the operation ends with the kind of that
failure and `info` = N, for every N from 1 to 65535, configured or not; a read operation writes no result. The first two clauses
run it: N - 1 torn frames, then a misaligned or a torn one, with no recovery for the last. The last two speak of every such end,
whatever recoveries came before: these statuses come with the bound only, with `ATTEMPTS` = N. -/
def Obligations.ExhaustedRetriesAreReported : Prop :=
  ∀ (i : Instr) (s : State), i ∈ [Instr.acq, .rdr, .rdi, .rdrg, .rdig] → Ready s →
    (∀ (torn : List (List Byte)) (f : List Byte) (fs : List Bool) (bs : List Byte),
      (∀ g ∈ torn, TornFrame g) → torn.length + 1 = s.params.maxAttempts.toNat →
      s.env.fails = List.replicate (torn.length + 1) false ++ fs → s.env.bytes = torn.flatten ++ (f ++ bs) →
      (MisalignedFrame f →
        exec i s = .next { s with
          block := { s.block with
            fb := fbStore s.params f, magicOk := false, seqOk := sequenceMatches s.params (fbStore s.params f)
            fbValid := false, attempts := s.params.maxAttempts, lastErr := .framing, seq := [] }
          env := { s.env with fails := fs, bytes := bs }
          rsp := some (responseWord .errFraming s.params.maxAttempts)
          hist := History.add
            ([.request (encode i)] ++ retryEvents (fbBytes s.params s.block.fb) 1 torn f
              ++ [.log 1 s.params.maxAttempts, responseEvent .errFraming s.params.maxAttempts]) s.hist }) ∧
      (TornFrame f →
        exec i s = .next { s with
          block := { s.block with
            fb := fbStore s.params f, magicOk := true, seqOk := false
            fbValid := false, attempts := s.params.maxAttempts, lastErr := .sequence, seq := [] }
          env := { s.env with fails := fs, bytes := bs }
          rsp := some (responseWord .errSequence s.params.maxAttempts)
          hist := History.add
            ([.request (encode i)] ++ retryEvents (fbBytes s.params s.block.fb) 1 torn f
              ++ [.log 2 s.params.maxAttempts, responseEvent .errSequence s.params.maxAttempts]) s.hist })) ∧
    (∀ (t : State) (w : RspWord), exec i s = .next t → t.rsp = some w →
      (w.extractLsb' 16 4 = 2 →
        s.params.maxAttempts ≠ 0 ∧ w = responseWord .errFraming s.params.maxAttempts ∧
          t.block.attempts = s.params.maxAttempts ∧ t.block.lastErr = .framing ∧ t.block.magicOk = false ∧
          t.block.fbValid = false ∧ t.block.fault = false ∧ results t.block = results s.block) ∧
      (w.extractLsb' 16 4 = 3 →
        s.params.maxAttempts ≠ 0 ∧ w = responseWord .errSequence s.params.maxAttempts ∧
          t.block.attempts = s.params.maxAttempts ∧ t.block.lastErr = .sequence ∧ t.block.magicOk = true ∧
          t.block.seqOk = false ∧ t.block.fbValid = false ∧ t.block.fault = false ∧
          results t.block = results s.block))

/-- R204: a failing first transfer ends `ACQ` and every read operation `BUSERR(1)`, with no result written (the Frame Buffer
holds free bytes, log 9). -/
def Obligations.AcquisitionBusErrorReportsAttempts : Prop :=
  ∀ (i : Instr) (s : State) (fs : List Bool),
    i ∈ [Instr.acq, .rdr, .rdi, .rdrg, .rdig] → Ready s → s.env.fails = true :: fs →
      ∃ t, exec i s = .next t ∧ t.rsp = some 0x50001 ∧
        t.block = { s.block with
          fb := fbStore s.params (freeFrame s.env), fault := true, fbValid := false, attempts := 1
          lastErr := .none, seq := [] }

/-- R156 with the bound: for `MAX_ATTEMPTS` ≠ 0 an acquisition on a ready block always ends, whatever the device does
(within the one step the model takes an operation as, log 2). -/
def Obligations.BoundedAcquisitionEnds : Prop :=
  ∀ (i : Instr) (s : State), i ∈ [Instr.acq, .rdr, .rdi, .rdrg, .rdig] → Ready s → s.params.maxAttempts ≠ 0 →
    ∃ t, exec i s = .next t ∧ t.block.busy = false ∧ t.block.seq = [] ∧ t.rsp.isSome = true ∧
      t.block.attempts.toNat ≤ s.params.maxAttempts.toNat

/-- R237, R155: with `MAX_ATTEMPTS` = 0 a device that keeps sending torn frames keeps the block busy: however many it sends,
after that many attempts the engine is back at step 1 with `ATTEMPTS` saturated (an engine step is the model's `tick`, log
2). -/
def Obligations.UnboundedRetryGoesOn : Prop :=
  ∀ (s : State) (torn : List (List Byte)) (fs : List Bool) (bs : List Byte),
    Ready s → s.params.maxAttempts = 0 → torn ≠ [] → (∀ f ∈ torn, TornFrame f) →
      s.env.fails = List.replicate torn.length false ++ fs → s.env.bytes = torn.flatten ++ bs →
      ∃ n, (drive n (accept .acq s)).block.busy = true ∧ (drive n (accept .acq s)).block.seq = [⟨.acq, 1⟩] ∧
        (drive n (accept .acq s)).block.attempts = BitVec.ofNat 16 (min torn.length 65535) ∧
        (drive n (accept .acq s)).env = { s.env with fails := fs, bytes := bs }

/-! ### Measurement Decoder (spec/44) -/

/-- R152: `ACQ` that accepts its first frame answers OK(1); the Frame Buffer holds the frame, the three validation flags are
1, and the transfer sent what the Frame Buffer held. -/
def Obligations.AcqAcceptsFirstFrame : Prop :=
  ∀ (s : State) (good : List Byte) (fs : List Bool) (bs : List Byte),
    Ready s → GoodFrame good → s.env.fails = false :: fs → s.env.bytes = good ++ bs →
      exec .acq s = .next { s with
        block := acceptedBlock s good
        env := { s.env with fails := fs, bytes := bs }
        rsp := some 0x00001
        hist := History.add
          [.request 0x090000, .busBuf (fbBytes s.params s.block.fb) (some good), responseEvent .ok 1] s.hist }

/-- R177: `RDR` acquires, then `RNG_RAW` is bytes 4 to 7 of the accepted frame, big-endian, and `RV_R` is 1. The second
clause says it of every end OK, after retries and recoveries too: the result is read from the frame the Frame Buffer then
holds, an accepted one. -/
def Obligations.RdrReadsRangeScalar : Prop :=
  (∀ (s : State) (good : List Byte) (fs : List Bool) (bs : List Byte),
      Ready s → GoodFrame good → s.env.fails = false :: fs → s.env.bytes = good ++ bs →
        exec .rdr s = .next { s with
          block := { acceptedBlock s good with
            rngRaw := good.getD 4 0 ++ good.getD 5 0 ++ good.getD 6 0 ++ good.getD 7 0, rvR := true }
          env := { s.env with fails := fs, bytes := bs }
          rsp := some 0x00001
          hist := History.add
            [.request 0x0A0000, .busBuf (fbBytes s.params s.block.fb) (some good), responseEvent .ok 1] s.hist }) ∧
  (∀ (s t : State) (w : RspWord), Ready s → exec .rdr s = .next t → t.rsp = some w → w.extractLsb' 16 4 = 0 →
    t.block.rngRaw = memRead4 t.params t.block.fb 4 ∧ t.block.rvR = true ∧
      frameAccepted t.params t.block.fb ∧ t.block.magicOk = true ∧ t.block.seqOk = true ∧ t.block.fbValid = true ∧
      w = responseWord .ok t.block.attempts)

/-- R178: `RDI` acquires, then `INT_RAW` is bytes 8 and 9 of the accepted frame, big-endian, and `RV_I` is 1. The second
clause says it of every end OK, after retries and recoveries too: the result is read from the frame the Frame Buffer then
holds, an accepted one. -/
def Obligations.RdiReadsIntensityScalar : Prop :=
  (∀ (s : State) (good : List Byte) (fs : List Bool) (bs : List Byte),
      Ready s → GoodFrame good → s.env.fails = false :: fs → s.env.bytes = good ++ bs →
        exec .rdi s = .next { s with
          block := { acceptedBlock s good with intRaw := good.getD 8 0 ++ good.getD 9 0, rvI := true }
          env := { s.env with fails := fs, bytes := bs }
          rsp := some 0x00001
          hist := History.add
            [.request 0x0B0000, .busBuf (fbBytes s.params s.block.fb) (some good), responseEvent .ok 1] s.hist }) ∧
  (∀ (s t : State) (w : RspWord), Ready s → exec .rdi s = .next t → t.rsp = some w → w.extractLsb' 16 4 = 0 →
    t.block.intRaw = memRead2 t.params t.block.fb 8 ∧ t.block.rvI = true ∧
      frameAccepted t.params t.block.fb ∧ t.block.magicOk = true ∧ t.block.seqOk = true ∧ t.block.fbValid = true ∧
      w = responseWord .ok t.block.attempts)

/-- R179: `RDRG` acquires, then `RGRID_RAW[i]` is the four bytes at 10 + 4i of the accepted frame for every cell, and
`RV_RG` is 1. The second clause says it of every end OK, after retries and recoveries too: the result is read from the frame the
Frame Buffer then holds, an accepted one. -/
def Obligations.RdrgReadsRangeGrid : Prop :=
  (∀ (s : State) (good : List Byte) (fs : List Bool) (bs : List Byte),
      Ready s → GoodFrame good → s.env.fails = false :: fs → s.env.bytes = good ++ bs →
        ∃ grid : Vector Word 32,
          (∀ i : Fin 32, grid[i] = good.getD (10 + 4 * i) 0 ++ good.getD (10 + 4 * i + 1) 0
            ++ good.getD (10 + 4 * i + 2) 0 ++ good.getD (10 + 4 * i + 3) 0) ∧
          exec .rdrg s = .next { s with
            block := { acceptedBlock s good with rgridRaw := grid, rvRG := true }
            env := { s.env with fails := fs, bytes := bs }
            rsp := some 0x00001
            hist := History.add
              [.request 0x0C0000, .busBuf (fbBytes s.params s.block.fb) (some good), responseEvent .ok 1] s.hist }) ∧
  (∀ (s t : State) (w : RspWord), Ready s → exec .rdrg s = .next t → t.rsp = some w → w.extractLsb' 16 4 = 0 →
    (∀ i : Fin 32, t.block.rgridRaw[i] = memRead4 t.params t.block.fb (10 + 4 * i)) ∧ t.block.rvRG = true ∧
      frameAccepted t.params t.block.fb ∧ t.block.magicOk = true ∧ t.block.seqOk = true ∧ t.block.fbValid = true ∧
      w = responseWord .ok t.block.attempts)

/-- R180: `RDIG` acquires, then `IGRID_RAW[i]` is the two bytes at 138 + 2i of the accepted frame for every cell, and
`RV_IG` is 1. The second clause says it of every end OK, after retries and recoveries too: the result is read from the frame the
Frame Buffer then holds, an accepted one. -/
def Obligations.RdigReadsIntensityGrid : Prop :=
  (∀ (s : State) (good : List Byte) (fs : List Bool) (bs : List Byte),
      Ready s → GoodFrame good → s.env.fails = false :: fs → s.env.bytes = good ++ bs →
        ∃ grid : Vector Half 32,
          (∀ i : Fin 32, grid[i] = good.getD (138 + 2 * i) 0 ++ good.getD (138 + 2 * i + 1) 0) ∧
          exec .rdig s = .next { s with
            block := { acceptedBlock s good with igridRaw := grid, rvIG := true }
            env := { s.env with fails := fs, bytes := bs }
            rsp := some 0x00001
            hist := History.add
              [.request 0x0D0000, .busBuf (fbBytes s.params s.block.fb) (some good), responseEvent .ok 1] s.hist }) ∧
  (∀ (s t : State) (w : RspWord), Ready s → exec .rdig s = .next t → t.rsp = some w → w.extractLsb' 16 4 = 0 →
    (∀ i : Fin 32, t.block.igridRaw[i] = memRead2 t.params t.block.fb (138 + 2 * i)) ∧ t.block.rvIG = true ∧
      frameAccepted t.params t.block.fb ∧ t.block.magicOk = true ∧ t.block.seqOk = true ∧ t.block.fbValid = true ∧
      w = responseWord .ok t.block.attempts)

/-- R177 to R181: "no partial results on error": an operation answered with any status but OK has written no result register
and no result-valid flag. -/
def Obligations.FailedReadWritesNoResult : Prop :=
  ∀ (i : Instr) (s t : State) (w : RspWord), Ready s → exec i s = .next t → t.rsp = some w →
    w.extractLsb' 16 4 ≠ 0 → results t.block = results s.block

/-! ### Frames (what an operation leaves unchanged, however it ends) -/

/-- R22, R30: `RDR` writes no result but `RNG_RAW`, `RDI` none but `INT_RAW`, `RDRG` none but `RGRID_RAW`, `RDIG` none but
`IGRID_RAW`, each with its flag; every other operation writes none. -/
def Obligations.ResultsWrittenByTheirOperationOnly : Prop :=
  ∀ (i : Instr) (s t : State), exec i s = .next t →
    (i ≠ .rdr → t.block.rngRaw = s.block.rngRaw ∧ t.block.rvR = s.block.rvR) ∧
      (i ≠ .rdi → t.block.intRaw = s.block.intRaw ∧ t.block.rvI = s.block.rvI) ∧
      (i ≠ .rdrg → t.block.rgridRaw = s.block.rgridRaw ∧ t.block.rvRG = s.block.rvRG) ∧
      (i ≠ .rdig → t.block.igridRaw = s.block.igridRaw ∧ t.block.rvIG = s.block.rvIG)

/-- R28: the session registers are written by `SETMODE`, `CONFIG` and what calls them, and `DIST`, `RATE`, `CFGV` are the
same after a recovery, which rewrites them with their own values (R152). -/
def Obligations.SessionWrittenBySettersOnly : Prop :=
  ∀ (i : Instr) (s t : State), exec i s = .next t →
    ((∀ d r, i ≠ .config d r) →
      t.block.dist = s.block.dist ∧ t.block.rate = s.block.rate ∧ t.block.cfgV = s.block.cfgV) ∧
      (callRank i = 0 → t.block.mode = s.block.mode ∧ t.block.modeV = s.block.modeV)

/-- R25: `MAGIC_OK` and `SEQ_OK` are written by validation only, which `VAL`, `ACQ` and the read operations perform. -/
def Obligations.ValidationFlagsWrittenByValidationOnly : Prop :=
  ∀ (i : Instr) (s t : State), exec i s = .next t → callRank i < 3 → i ≠ .val →
    t.block.magicOk = s.block.magicOk ∧ t.block.seqOk = s.block.seqOk

/-- R21, R53: `SKIPN`, `SKIPV` and `VAL` leave every byte of the Frame Buffer as it was, even where a discard fails. -/
def Obligations.SkipsAndValKeepFrameBuffer : Prop :=
  ∀ (i : Instr) (s t : State), (i = .val ∨ i = .skipv ∨ ∃ n, i = .skipn n) → exec i s = .next t →
    ∀ a, fbRead t.params t.block.fb a = fbRead s.params s.block.fb a

/-- R23, R29: `ATTEMPTS` and `LASTERR` are written by `ACQ` and the read operations only; `LEN` by no operation but `SKIPV`,
`SYNC`, `ACQ` and the read operations; `CNT` by no operation but those that skip. -/
def Obligations.CountersWrittenByTheirOperationsOnly : Prop :=
  ∀ (i : Instr) (s t : State), exec i s = .next t →
    (callRank i < 3 → t.block.attempts = s.block.attempts ∧ t.block.lastErr = s.block.lastErr) ∧
      (callRank i < 3 → i ≠ .skipv → i ≠ .sync → t.block.len = s.block.len) ∧
      ((i = .val ∨ i = .xfer ∨ ∃ c v, i = .enc c v) → t.block.cnt = s.block.cnt)

/-! ### The whole machine -/

/-- R200: every error is answered in the response word, so every step of the machine has a next state. -/
def Obligations.EveryStepHasNextState : Prop := ∀ s : State, ∃ t, step s = .next t

/-- The invariant holds at reset. -/
def Obligations.ResetMeetsInvariant : Prop := Inv State.reset

/-- EVERY STEP KEEPS THE INVARIANT, from every state that meets it: the Frame Buffer canonical, `BUSY` as R27 says, the
calls nested as R24 says, `FBVALID` as R25 says, `CNT` as R23 says, nothing running after a fault (R207). The canonical form
is the model's (log 6). -/
def Obligations.StepKeepsInvariant : Prop := ∀ s t : State, Inv s → step s = .next t → Inv t

/-- R20, R24: under the invariant the sequencer stack has at most 5 entries. -/
def Obligations.SequencerStackHasAtMostFive : Prop := ∀ s : State, Inv s → s.block.seq.length ≤ 5

/-- R6, R56: taking an operation one primitive a step, with nothing else presented, comes to the same state as taking it as
one step (both ways of stepping are the model's, log 2). -/
def Obligations.SteppedRunIsTheWholeOperation : Prop :=
  ∀ (i : Instr) (s : State), Ready s → s.env.host = [] →
    runSteps (runBound + 1) { s with env := { s.env with host := [.requestStepped (encode i)] } } = exec i s
end

