-- ==== Sys2Proof/Laws/Memory.lean ====
section
/-! SUPPORT. The laws of the Frame Buffer: what a byte reads as after a whole frame was stored, what a buffer transfer
sends, and that the canonical form is kept (spec/20 R53, log 6). -/

namespace Sys2Proof.Machine

/-- The cells of a list from address `lo` on hold only addresses from `lo` on. -/
theorem cellAt_cellsOf_below (vs ds : List Byte) :
    ∀ (lo a : Nat), a < lo → cellAt (cellsOf lo vs ds) a = none := by
  induction vs generalizing ds with
  | nil => intros; simp [cellsOf, cellAt]
  | cons v vs ih =>
    intro lo a h
    cases ds with
    | nil => simp [cellsOf, cellAt]
    | cons d ds =>
      have hi := ih ds (lo + 1) a (by omega)
      by_cases hv : v = d
      · simp [cellsOf, hv, hi]
      · simp [cellsOf, hv, cellAt, hi, show lo ≠ a by omega]

/-- The byte at offset `i` of stored bytes, with what is unlisted read from the second list. -/
theorem cellAt_cellsOf (vs ds : List Byte) (hlen : vs.length = ds.length) :
    ∀ (lo i : Nat), i < vs.length →
      (cellAt (cellsOf lo vs ds) (lo + i)).getD (ds.getD i 0) = vs.getD i 0 := by
  induction vs generalizing ds with
  | nil => intro lo i h; simp at h
  | cons v vs ih =>
    intro lo i h
    cases ds with
    | nil => simp at hlen
    | cons d ds =>
      have hlen' : vs.length = ds.length := by simpa using hlen
      cases i with
      | zero =>
        by_cases hv : v = d
        · simp [cellsOf, hv, cellAt_cellsOf_below vs ds (lo + 1) lo (by omega)]
        · simp [cellsOf, hv, cellAt]
      | succ i =>
        have hi := ih ds hlen' (lo + 1) i (by simpa using h)
        have hadd : lo + 1 + i = lo + (i + 1) := by omega
        rw [hadd] at hi
        by_cases hv : v = d
        · simpa [cellsOf, hv] using hi
        · simpa [cellsOf, hv, cellAt] using hi

/-- READ AFTER STORE: after a 256-byte frame is stored, `FB[i]` is byte `i` of the frame (spec/00 R12). -/
theorem fbRead_fbStore (p : Params) (frame : List Byte) (hlen : frame.length = 256) (i : Nat) (hi : i < 256) :
    fbRead p (fbStore p frame) i = frame.getD i 0 := by
  have h := cellAt_cellsOf frame p.fbReset.toList (by simp [hlen]) 0 i (by omega)
  simpa [fbRead, fbStore, fbDefault] using h

/-- An unlisted Frame Buffer reads as `FB_RESET`. -/
@[simp] theorem fbRead_nil (p : Params) (i : Nat) : fbRead p [] i = fbDefault p i := rfl

/-- What is sent after a store is what was stored: `overlay` undoes `cellsOf`. -/
theorem overlay_below (vs ds : List Byte) (hlen : vs.length = ds.length) :
    ∀ lo, overlay lo (cellsOf lo vs ds) ds = vs := by
  induction vs generalizing ds with
  | nil =>
    intro lo
    cases ds with
    | nil => simp [overlay]
    | cons d ds => simp at hlen
  | cons v vs ih =>
    intro lo
    cases ds with
    | nil => simp at hlen
    | cons d ds =>
      have hlen' : vs.length = ds.length := by simpa using hlen
      have hi := ih ds hlen' (lo + 1)
      by_cases hv : v = d
      · have hskip : overlay lo (cellsOf (lo + 1) vs ds) (d :: ds) = d :: overlay (lo + 1) (cellsOf (lo + 1) vs ds) ds := by
          cases hc : cellsOf (lo + 1) vs ds with
          | nil =>
            cases ds with
            | nil => simp [overlay]
            | cons e es => simp [overlay]
          | cons cell cells =>
            have hb := cellAt_cellsOf_below vs ds (lo + 1) lo (by omega)
            obtain ⟨b, x⟩ := cell
            have hne : b ≠ lo := by
              intro hbl
              simp [hc, cellAt, hbl] at hb
            simp [overlay, hne]
        simp [cellsOf, hv, hskip, hi]
      · simp [cellsOf, hv, overlay, hi]

/-- WHAT A TRANSFER SENDS AFTER A STORE: the stored frame (spec/70 R236). -/
theorem fbBytes_fbStore (p : Params) (frame : List Byte) (hlen : frame.length = 256) :
    fbBytes p (fbStore p frame) = frame :=
  overlay_below frame p.fbReset.toList (by simp [hlen]) 0

/-- After reset a transfer sends `FB_RESET` (spec/70 R236). -/
@[simp] theorem fbBytes_nil (p : Params) : fbBytes p [] = p.fbReset.toList := by
  unfold fbBytes
  cases p.fbReset.toList <;> rfl

theorem overlay_length (fb : Memory) (ds : List Byte) : ∀ lo, (overlay lo fb ds).length = ds.length := by
  induction ds generalizing fb with
  | nil => intro lo; cases fb <;> rfl
  | cons d ds ih =>
    intro lo
    cases fb with
    | nil => rfl
    | cons cell cells =>
      obtain ⟨b, v⟩ := cell
      by_cases h : b = lo <;> simp [overlay, h, ih]

/-- A buffer transfer sends 256 bytes. -/
@[simp] theorem fbBytes_length (p : Params) (fb : Memory) : (fbBytes p fb).length = 256 := by
  simp [fbBytes, overlay_length]

theorem cellAt_below (p : Params) (fb : Memory) :
    ∀ lo a, cellsWf p lo fb = true → a < lo → cellAt fb a = none := by
  induction fb with
  | nil => intros; rfl
  | cons cell cells ih =>
    obtain ⟨b, v⟩ := cell
    intro lo a hwf ha
    simp only [cellsWf, Bool.and_eq_true, decide_eq_true_eq] at hwf
    have hb : b ≠ a := by omega
    simp [cellAt, hb, ih (b + 1) a hwf.2 (by omega)]

theorem overlay_getD (p : Params) (ds : List Byte) :
    ∀ (fb : Memory) (lo i : Nat), cellsWf p lo fb = true → i < ds.length →
      (overlay lo fb ds).getD i 0 = (cellAt fb (lo + i)).getD (ds.getD i 0) := by
  induction ds with
  | nil => intro fb lo i _ hi; simp at hi
  | cons d ds ih =>
    intro fb lo i hwf hi
    cases fb with
    | nil => simp [overlay, cellAt]
    | cons cell cells =>
      obtain ⟨b, v⟩ := cell
      have hwf' := hwf
      simp only [cellsWf, Bool.and_eq_true, decide_eq_true_eq] at hwf'
      by_cases hb : b = lo
      · subst hb
        cases i with
        | zero => simp [overlay, cellAt]
        | succ i =>
          have h := ih cells (b + 1) i hwf'.2 (by simpa using hi)
          have hadd : b + 1 + i = b + (i + 1) := by omega
          rw [hadd] at h
          simpa [overlay, cellAt] using h
      · have hlt : lo + 1 ≤ b := by omega
        cases i with
        | zero => simp [overlay, hb, cellAt, cellAt_below p cells (b + 1) lo hwf'.2 (by omega)]
        | succ i =>
          have hw : cellsWf p (lo + 1) ((b, v) :: cells) = true := by
            simp only [cellsWf, Bool.and_eq_true, decide_eq_true_eq]
            exact ⟨⟨⟨hlt, hwf'.1.1.2⟩, hwf'.1.2⟩, hwf'.2⟩
          have h := ih ((b, v) :: cells) (lo + 1) i hw (by simpa using hi)
          have hadd : lo + 1 + i = lo + (i + 1) := by omega
          rw [hadd] at h
          simpa [overlay, hb] using h

/-- WHAT A TRANSFER SENDS: byte `i` is `FB[i]` (spec/00 R12), for a canonical Frame Buffer. -/
theorem fbBytes_getD (p : Params) (fb : Memory) (hwf : Memory.wf p fb = true) (i : Nat) (hi : i < 256) :
    (fbBytes p fb).getD i 0 = fbRead p fb i := by
  have h := overlay_getD p p.fbReset.toList fb 0 i hwf (by simpa using hi)
  simpa [fbBytes, fbRead, fbDefault] using h

theorem cellsWf_mono (p : Params) (fb : Memory) (lo hi : Nat) (h : lo ≤ hi) (hwf : cellsWf p hi fb = true) :
    cellsWf p lo fb = true := by
  cases fb with
  | nil => rfl
  | cons cell cells =>
    obtain ⟨b, v⟩ := cell
    simp only [cellsWf, Bool.and_eq_true, decide_eq_true_eq] at hwf ⊢
    exact ⟨⟨⟨by omega, hwf.1.1.2⟩, hwf.1.2⟩, hwf.2⟩

theorem cellsOf_wf (p : Params) (vs ds : List Byte) :
    ∀ lo, lo + ds.length ≤ 256 → (∀ i, i < ds.length → ds.getD i 0 = fbDefault p (lo + i)) →
      cellsWf p lo (cellsOf lo vs ds) = true := by
  induction vs generalizing ds with
  | nil => intros; simp [cellsOf, cellsWf]
  | cons v vs ih =>
    intro lo hlo hd
    cases ds with
    | nil => simp [cellsOf, cellsWf]
    | cons d ds =>
      have hd0 : d = fbDefault p lo := by simpa using hd 0 (by simp)
      have hrec := ih ds (lo + 1) (by simp at hlo; omega) (by
        intro i hi
        have h := hd (i + 1) (by simpa using hi)
        have hadd : lo + 1 + i = lo + (i + 1) := by omega
        rw [hadd]
        simpa using h)
      by_cases hv : v = d
      · simpa [cellsOf, hv] using cellsWf_mono p _ lo (lo + 1) (by omega) hrec
      · have hlt : lo < 256 := by simp at hlo; omega
        simp [cellsOf, hv, cellsWf, Config.frameSize, hlt, ← hd0, hrec]

/-- STORING A FRAME KEEPS THE CANONICAL FORM. -/
theorem fbStore_wf (p : Params) (frame : List Byte) : Memory.wf p (fbStore p frame) = true := by
  refine cellsOf_wf p frame p.fbReset.toList 0 (by simp) ?_
  intro i hi
  simp [fbDefault]

/-- The Frame Buffer after reset is canonical. -/
theorem reset_memory_wf (p : Params) : Memory.wf p Block.reset.fb = true := rfl

theorem framePadding_length : framePadding.length = 251 := List.length_replicate

/-- A command frame is 256 bytes (spec/30 R85). -/
@[simp] theorem commandFrame_length (c v : Byte) : (commandFrame c v).length = 256 := by
  rw [commandFrame, List.length_append, framePadding_length]
  rfl

/-- The bytes of a command frame, one by one (spec/40 R111). -/
theorem commandFrame_getD (c v : Byte) :
    (commandFrame c v).getD 0 0 = 0xEB ∧ (commandFrame c v).getD 1 0 = c ∧ (commandFrame c v).getD 2 0 = 0x01 ∧
      (commandFrame c v).getD 3 0 = v ∧ (commandFrame c v).getD 4 0 = 0xED ∧
      ∀ i, 5 ≤ i → (commandFrame c v).getD i 0 = 0x00 := by
  refine ⟨rfl, rfl, rfl, rfl, rfl, fun i hi => ?_⟩
  have hpad : framePadding.getD (i - 5) 0 = 0 := by
    unfold framePadding
    rw [List.getD_eq_getElem?_getD, List.getElem?_replicate]
    split <;> rfl
  rw [commandFrame, List.getD_append_right _ _ _ _ (by simpa using hi)]
  exact hpad

end Sys2Proof.Machine
end

