-- ==== Sys2Proof/Laws/State.lean ====
section
/-! SUPPORT. One lemma per field per named update of the state, each true by rfl and in the simp set, so that no later
proof unfolds a record update; and the field lemmas of the two block updates every transfer and validation makes. -/

namespace Sys2Proof.Machine

/-! ### `emit` -/

@[simp] theorem emit_block (ev : Event) (s : State) : (emit ev s).block = s.block := rfl
@[simp] theorem emit_params (ev : Event) (s : State) : (emit ev s).params = s.params := rfl
@[simp] theorem emit_env (ev : Event) (s : State) : (emit ev s).env = s.env := rfl
@[simp] theorem emit_rsp (ev : Event) (s : State) : (emit ev s).rsp = s.rsp := rfl
@[simp] theorem emit_hist (ev : Event) (s : State) : (emit ev s).hist = ev :: s.hist := rfl
@[simp] theorem emit_resets (ev : Event) (s : State) : (emit ev s).resets = s.resets := rfl

/-! ### `setBlock` -/

@[simp] theorem setBlock_block (b : Block) (s : State) : (setBlock b s).block = b := rfl
@[simp] theorem setBlock_params (b : Block) (s : State) : (setBlock b s).params = s.params := rfl
@[simp] theorem setBlock_env (b : Block) (s : State) : (setBlock b s).env = s.env := rfl
@[simp] theorem setBlock_rsp (b : Block) (s : State) : (setBlock b s).rsp = s.rsp := rfl
@[simp] theorem setBlock_hist (b : Block) (s : State) : (setBlock b s).hist = s.hist := rfl
@[simp] theorem setBlock_resets (b : Block) (s : State) : (setBlock b s).resets = s.resets := rfl

/-! ### `setEnv` -/

@[simp] theorem setEnv_block (e : Env) (s : State) : (setEnv e s).block = s.block := rfl
@[simp] theorem setEnv_params (e : Env) (s : State) : (setEnv e s).params = s.params := rfl
@[simp] theorem setEnv_env (e : Env) (s : State) : (setEnv e s).env = e := rfl
@[simp] theorem setEnv_rsp (e : Env) (s : State) : (setEnv e s).rsp = s.rsp := rfl
@[simp] theorem setEnv_hist (e : Env) (s : State) : (setEnv e s).hist = s.hist := rfl
@[simp] theorem setEnv_resets (e : Env) (s : State) : (setEnv e s).resets = s.resets := rfl

/-! ### `setSeq` -/

@[simp] theorem setSeq_block (q : List Position) (s : State) : (setSeq q s).block = { s.block with seq := q } := rfl
@[simp] theorem setSeq_params (q : List Position) (s : State) : (setSeq q s).params = s.params := rfl
@[simp] theorem setSeq_env (q : List Position) (s : State) : (setSeq q s).env = s.env := rfl
@[simp] theorem setSeq_rsp (q : List Position) (s : State) : (setSeq q s).rsp = s.rsp := rfl
@[simp] theorem setSeq_hist (q : List Position) (s : State) : (setSeq q s).hist = s.hist := rfl
@[simp] theorem setSeq_resets (q : List Position) (s : State) : (setSeq q s).resets = s.resets := rfl

/-! ### `respond` -/

@[simp] theorem respond_block (st : Status) (info : Half) (s : State) : (respond st info s).block = s.block := rfl
@[simp] theorem respond_params (st : Status) (info : Half) (s : State) : (respond st info s).params = s.params := rfl
@[simp] theorem respond_env (st : Status) (info : Half) (s : State) : (respond st info s).env = s.env := rfl
@[simp] theorem respond_rsp (st : Status) (info : Half) (s : State) :
    (respond st info s).rsp = some (responseWord st info) := rfl
@[simp] theorem respond_hist (st : Status) (info : Half) (s : State) :
    (respond st info s).hist = .response (responseWord st info) :: s.hist := rfl
@[simp] theorem respond_resets (st : Status) (info : Half) (s : State) : (respond st info s).resets = s.resets := rfl

/-! ### `delay` -/

@[simp] theorem delay_block (ms : Nat) (s : State) : (delay ms s).block = s.block := rfl
@[simp] theorem delay_params (ms : Nat) (s : State) : (delay ms s).params = s.params := rfl
@[simp] theorem delay_env (ms : Nat) (s : State) : (delay ms s).env = s.env := rfl
@[simp] theorem delay_rsp (ms : Nat) (s : State) : (delay ms s).rsp = s.rsp := rfl
@[simp] theorem delay_hist (ms : Nat) (s : State) : (delay ms s).hist = .delay ms :: s.hist := rfl
@[simp] theorem delay_resets (ms : Nat) (s : State) : (delay ms s).resets = s.resets := rfl

/-! ### `logError` -/

@[simp] theorem logError_block (kind : ErrKind) (s : State) : (logError kind s).block = s.block := rfl
@[simp] theorem logError_params (kind : ErrKind) (s : State) : (logError kind s).params = s.params := rfl
@[simp] theorem logError_env (kind : ErrKind) (s : State) : (logError kind s).env = s.env := rfl
@[simp] theorem logError_rsp (kind : ErrKind) (s : State) : (logError kind s).rsp = s.rsp := rfl
@[simp] theorem logError_hist (kind : ErrKind) (s : State) :
    (logError kind s).hist = .log (errCode kind) s.block.attempts :: s.hist := rfl
@[simp] theorem logError_resets (kind : ErrKind) (s : State) : (logError kind s).resets = s.resets := rfl

/-! ### `answerAtOnce` -/

@[simp] theorem answerAtOnce_block (st : Status) (w : ReqWord) (s : State) :
    (answerAtOnce st w s).block = s.block := rfl
@[simp] theorem answerAtOnce_params (st : Status) (w : ReqWord) (s : State) :
    (answerAtOnce st w s).params = s.params := rfl
@[simp] theorem answerAtOnce_env (st : Status) (w : ReqWord) (s : State) : (answerAtOnce st w s).env = s.env := rfl
@[simp] theorem answerAtOnce_rsp (st : Status) (w : ReqWord) (s : State) :
    (answerAtOnce st w s).rsp = some (responseWord st 0) := rfl
@[simp] theorem answerAtOnce_hist (st : Status) (w : ReqWord) (s : State) :
    (answerAtOnce st w s).hist = .response (responseWord st 0) :: .request w :: s.hist := rfl
@[simp] theorem answerAtOnce_resets (st : Status) (w : ReqWord) (s : State) :
    (answerAtOnce st w s).resets = s.resets := rfl

/-! ### `accept` -/

@[simp] theorem accept_block (i : Instr) (s : State) :
    (accept i s).block = { s.block with busy := true, seq := [⟨i, 0⟩] } := rfl
@[simp] theorem accept_params (i : Instr) (s : State) : (accept i s).params = s.params := rfl
@[simp] theorem accept_env (i : Instr) (s : State) : (accept i s).env = s.env := rfl
@[simp] theorem accept_rsp (i : Instr) (s : State) : (accept i s).rsp = none := rfl
@[simp] theorem accept_hist (i : Instr) (s : State) : (accept i s).hist = .request (encode i) :: s.hist := rfl
@[simp] theorem accept_resets (i : Instr) (s : State) : (accept i s).resets = s.resets := rfl

/-! ### `present` -/

@[simp] theorem present_block (i : Instr) (s : State) : (present i s).block = s.block := rfl
@[simp] theorem present_params (i : Instr) (s : State) : (present i s).params = s.params := rfl
@[simp] theorem present_env (i : Instr) (s : State) :
    (present i s).env = { s.env with host := .request (encode i) :: s.env.host } := rfl
@[simp] theorem present_rsp (i : Instr) (s : State) : (present i s).rsp = s.rsp := rfl
@[simp] theorem present_hist (i : Instr) (s : State) : (present i s).hist = s.hist := rfl
@[simp] theorem present_resets (i : Instr) (s : State) : (present i s).resets = s.resets := rfl

/-! ### `advance` -/

@[simp] theorem advance_block (top : Position) (rest : List Position) (s : State) :
    (advance top rest s).block = { s.block with seq := ⟨top.op, top.step + 1⟩ :: rest } := rfl
@[simp] theorem advance_params (top : Position) (rest : List Position) (s : State) :
    (advance top rest s).params = s.params := rfl
@[simp] theorem advance_env (top : Position) (rest : List Position) (s : State) :
    (advance top rest s).env = s.env := rfl
@[simp] theorem advance_rsp (top : Position) (rest : List Position) (s : State) :
    (advance top rest s).rsp = s.rsp := rfl
@[simp] theorem advance_hist (top : Position) (rest : List Position) (s : State) :
    (advance top rest s).hist = s.hist := rfl
@[simp] theorem advance_resets (top : Position) (rest : List Position) (s : State) :
    (advance top rest s).resets = s.resets := rfl

/-! ### `endOperation` -/

@[simp] theorem endOperation_block (st : Status) (s : State) :
    (endOperation st s).block = { s.block with seq := [], busy := false } := rfl
@[simp] theorem endOperation_params (st : Status) (s : State) : (endOperation st s).params = s.params := rfl
@[simp] theorem endOperation_env (st : Status) (s : State) : (endOperation st s).env = s.env := rfl
@[simp] theorem endOperation_rsp (st : Status) (s : State) :
    (endOperation st s).rsp = some (responseWord st (currentInfo st s.block)) := rfl
@[simp] theorem endOperation_hist (st : Status) (s : State) :
    (endOperation st s).hist = .response (responseWord st (currentInfo st s.block)) :: s.hist := rfl
@[simp] theorem endOperation_resets (st : Status) (s : State) : (endOperation st s).resets = s.resets := rfl

/-! ### `takeAction` -/

@[simp] theorem takeAction_block (rest : List HostAct) (s : State) : (takeAction rest s).block = s.block := rfl
@[simp] theorem takeAction_params (rest : List HostAct) (s : State) : (takeAction rest s).params = s.params := rfl
@[simp] theorem takeAction_env (rest : List HostAct) (s : State) :
    (takeAction rest s).env = { s.env with host := rest } := rfl
@[simp] theorem takeAction_rsp (rest : List HostAct) (s : State) : (takeAction rest s).rsp = s.rsp := rfl
@[simp] theorem takeAction_hist (rest : List HostAct) (s : State) : (takeAction rest s).hist = s.hist := rfl
@[simp] theorem takeAction_resets (rest : List HostAct) (s : State) : (takeAction rest s).resets = s.resets := rfl

/-! ### `resetBlock` -/

@[simp] theorem resetBlock_block (s : State) : (resetBlock s).block = Block.reset := rfl
@[simp] theorem resetBlock_params (s : State) : (resetBlock s).params = s.params := rfl
@[simp] theorem resetBlock_env (s : State) : (resetBlock s).env = s.env := rfl
@[simp] theorem resetBlock_rsp (s : State) : (resetBlock s).rsp = none := rfl
@[simp] theorem resetBlock_hist (s : State) : (resetBlock s).hist = .reset :: s.hist := rfl
@[simp] theorem resetBlock_resets (s : State) : (resetBlock s).resets = s.resets + 1 := rfl

/-! ### `presentWord` -/

@[simp] theorem presentWord_block (w : ReqWord) (s : State) :
    (presentWord w s).block = { s.block with seq := [], busy := false } := rfl
@[simp] theorem presentWord_params (w : ReqWord) (s : State) : (presentWord w s).params = s.params := rfl
@[simp] theorem presentWord_env (w : ReqWord) (s : State) :
    (presentWord w s).env = { s.env with host := .request w :: s.env.host } := rfl
@[simp] theorem presentWord_rsp (w : ReqWord) (s : State) : (presentWord w s).rsp = s.rsp := rfl
@[simp] theorem presentWord_hist (w : ReqWord) (s : State) : (presentWord w s).hist = s.hist := rfl
@[simp] theorem presentWord_resets (w : ReqWord) (s : State) : (presentWord w s).resets = s.resets := rfl

/-! ### `validate` -/

@[simp] theorem validate_fb (p : Params) (b : Block) : (validate p b).fb = b.fb := rfl
@[simp] theorem validate_rngRaw (p : Params) (b : Block) : (validate p b).rngRaw = b.rngRaw := rfl
@[simp] theorem validate_intRaw (p : Params) (b : Block) : (validate p b).intRaw = b.intRaw := rfl
@[simp] theorem validate_rgridRaw (p : Params) (b : Block) : (validate p b).rgridRaw = b.rgridRaw := rfl
@[simp] theorem validate_igridRaw (p : Params) (b : Block) : (validate p b).igridRaw = b.igridRaw := rfl
@[simp] theorem validate_len (p : Params) (b : Block) : (validate p b).len = b.len := rfl
@[simp] theorem validate_cnt (p : Params) (b : Block) : (validate p b).cnt = b.cnt := rfl
@[simp] theorem validate_attempts (p : Params) (b : Block) : (validate p b).attempts = b.attempts := rfl
@[simp] theorem validate_seq (p : Params) (b : Block) : (validate p b).seq = b.seq := rfl
@[simp] theorem validate_magicOk (p : Params) (b : Block) : (validate p b).magicOk = magicMatches p b.fb := rfl
@[simp] theorem validate_seqOk (p : Params) (b : Block) : (validate p b).seqOk = sequenceMatches p b.fb := rfl
@[simp] theorem validate_fbValid (p : Params) (b : Block) : (validate p b).fbValid = (magicMatches p b.fb && sequenceMatches p b.fb) := rfl
@[simp] theorem validate_rvR (p : Params) (b : Block) : (validate p b).rvR = b.rvR := rfl
@[simp] theorem validate_rvI (p : Params) (b : Block) : (validate p b).rvI = b.rvI := rfl
@[simp] theorem validate_rvRG (p : Params) (b : Block) : (validate p b).rvRG = b.rvRG := rfl
@[simp] theorem validate_rvIG (p : Params) (b : Block) : (validate p b).rvIG = b.rvIG := rfl
@[simp] theorem validate_busy (p : Params) (b : Block) : (validate p b).busy = b.busy := rfl
@[simp] theorem validate_fault (p : Params) (b : Block) : (validate p b).fault = b.fault := rfl
@[simp] theorem validate_mode (p : Params) (b : Block) : (validate p b).mode = b.mode := rfl
@[simp] theorem validate_dist (p : Params) (b : Block) : (validate p b).dist = b.dist := rfl
@[simp] theorem validate_rate (p : Params) (b : Block) : (validate p b).rate = b.rate := rfl
@[simp] theorem validate_modeV (p : Params) (b : Block) : (validate p b).modeV = b.modeV := rfl
@[simp] theorem validate_cfgV (p : Params) (b : Block) : (validate p b).cfgV = b.cfgV := rfl
@[simp] theorem validate_lastErr (p : Params) (b : Block) : (validate p b).lastErr = b.lastErr := rfl

/-! ### `receiveFrame` -/

@[simp] theorem receiveFrame_fb (p : Params) (f : List Byte) (b : Block) : (receiveFrame p f b).fb = fbStore p f := rfl
@[simp] theorem receiveFrame_rngRaw (p : Params) (f : List Byte) (b : Block) : (receiveFrame p f b).rngRaw = b.rngRaw := rfl
@[simp] theorem receiveFrame_intRaw (p : Params) (f : List Byte) (b : Block) : (receiveFrame p f b).intRaw = b.intRaw := rfl
@[simp] theorem receiveFrame_rgridRaw (p : Params) (f : List Byte) (b : Block) : (receiveFrame p f b).rgridRaw = b.rgridRaw := rfl
@[simp] theorem receiveFrame_igridRaw (p : Params) (f : List Byte) (b : Block) : (receiveFrame p f b).igridRaw = b.igridRaw := rfl
@[simp] theorem receiveFrame_len (p : Params) (f : List Byte) (b : Block) : (receiveFrame p f b).len = b.len := rfl
@[simp] theorem receiveFrame_cnt (p : Params) (f : List Byte) (b : Block) : (receiveFrame p f b).cnt = b.cnt := rfl
@[simp] theorem receiveFrame_attempts (p : Params) (f : List Byte) (b : Block) : (receiveFrame p f b).attempts = b.attempts := rfl
@[simp] theorem receiveFrame_seq (p : Params) (f : List Byte) (b : Block) : (receiveFrame p f b).seq = b.seq := rfl
@[simp] theorem receiveFrame_magicOk (p : Params) (f : List Byte) (b : Block) : (receiveFrame p f b).magicOk = b.magicOk := rfl
@[simp] theorem receiveFrame_seqOk (p : Params) (f : List Byte) (b : Block) : (receiveFrame p f b).seqOk = b.seqOk := rfl
@[simp] theorem receiveFrame_fbValid (p : Params) (f : List Byte) (b : Block) : (receiveFrame p f b).fbValid = false := rfl
@[simp] theorem receiveFrame_rvR (p : Params) (f : List Byte) (b : Block) : (receiveFrame p f b).rvR = b.rvR := rfl
@[simp] theorem receiveFrame_rvI (p : Params) (f : List Byte) (b : Block) : (receiveFrame p f b).rvI = b.rvI := rfl
@[simp] theorem receiveFrame_rvRG (p : Params) (f : List Byte) (b : Block) : (receiveFrame p f b).rvRG = b.rvRG := rfl
@[simp] theorem receiveFrame_rvIG (p : Params) (f : List Byte) (b : Block) : (receiveFrame p f b).rvIG = b.rvIG := rfl
@[simp] theorem receiveFrame_busy (p : Params) (f : List Byte) (b : Block) : (receiveFrame p f b).busy = b.busy := rfl
@[simp] theorem receiveFrame_fault (p : Params) (f : List Byte) (b : Block) : (receiveFrame p f b).fault = b.fault := rfl
@[simp] theorem receiveFrame_mode (p : Params) (f : List Byte) (b : Block) : (receiveFrame p f b).mode = b.mode := rfl
@[simp] theorem receiveFrame_dist (p : Params) (f : List Byte) (b : Block) : (receiveFrame p f b).dist = b.dist := rfl
@[simp] theorem receiveFrame_rate (p : Params) (f : List Byte) (b : Block) : (receiveFrame p f b).rate = b.rate := rfl
@[simp] theorem receiveFrame_modeV (p : Params) (f : List Byte) (b : Block) : (receiveFrame p f b).modeV = b.modeV := rfl
@[simp] theorem receiveFrame_cfgV (p : Params) (f : List Byte) (b : Block) : (receiveFrame p f b).cfgV = b.cfgV := rfl
@[simp] theorem receiveFrame_lastErr (p : Params) (f : List Byte) (b : Block) : (receiveFrame p f b).lastErr = b.lastErr := rfl

end Sys2Proof.Machine
end

