-- ==== Sys2Proof/Laws/Ops.lean ====
section
/-! SUPPORT. One lemma per shared operation that says everything it can do: the environment's answers, the bus primitives,
the end of an operation and BusError, a step of the engine. Provers cite these and do not unfold the operations. -/

namespace Sys2Proof.Machine

/-! ### The environment's answers -/

theorem drawFail_scripted (e : Env) (f : Bool) (fs : List Bool) (h : e.fails = f :: fs) :
    drawFail e = (f, { e with fails := fs }) := by
  simp [drawFail, h]

theorem drawFail_free (e : Env) (h : e.fails = []) :
    drawFail e = (Config.freeFail e.drawn, { e with drawn := e.drawn + 1 }) := by
  simp [drawFail, h]

/-- A draw of a failure bit never touches the host's script or the bytes to come. -/
theorem drawFail_frame (e : Env) : (drawFail e).2.host = e.host ∧ (drawFail e).2.bytes = e.bytes := by
  unfold drawFail
  split <;> exact ⟨rfl, rfl⟩

theorem drawByte_scripted (e : Env) (b : Byte) (bs : List Byte) (h : e.bytes = b :: bs) :
    drawByte e = (b, { e with bytes := bs }) := by
  simp [drawByte, h]

theorem drawByte_free (e : Env) (h : e.bytes = []) :
    drawByte e = (Config.freeRx e.drawn, { e with drawn := e.drawn + 1 }) := by
  simp [drawByte, h]

/-- A draw of a byte never touches the host's script or the failures to come. -/
theorem drawByte_frame (e : Env) : (drawByte e).2.host = e.host ∧ (drawByte e).2.fails = e.fails := by
  unfold drawByte
  split <;> exact ⟨rfl, rfl⟩

/-- A frame's worth of scripted bytes is received in order. -/
theorem drawBytes_scripted (rx bs : List Byte) :
    ∀ e : Env, e.bytes = rx ++ bs → drawBytes rx.length e = (rx, { e with bytes := bs }) := by
  induction rx with
  | nil =>
    intro e h
    have hb : e.bytes = bs := by simpa using h
    subst hb
    rfl
  | cons b rx ih =>
    intro e h
    have hd := drawByte_scripted e b (rx ++ bs) (by simpa using h)
    have hr := ih { e with bytes := rx ++ bs } rfl
    simp [drawBytes, hd, hr]

/-- However the bytes come, as many come as were asked for. -/
theorem drawBytes_length (n : Nat) : ∀ e : Env, (drawBytes n e).1.length = n := by
  induction n with
  | zero => intro e; rfl
  | succ n ih => intro e; simp [drawBytes, ih]

theorem drawBytes_frame (n : Nat) :
    ∀ e : Env, (drawBytes n e).2.host = e.host ∧ (drawBytes n e).2.fails = e.fails := by
  induction n with
  | zero => intro e; exact ⟨rfl, rfl⟩
  | succ n ih =>
    intro e
    have h1 := drawByte_frame e
    have h2 := ih (drawByte e).2
    simp [drawBytes, h1, h2]

/-! ### The bus primitives -/

/-- `BusByte` answers nothing and leaves a failed event, or a byte and the event with it; it writes no block state. -/
theorem busByte_cases (tx : Byte) (s : State) :
    (∃ e, busByte tx s = (none, emit (.busByte tx none) (setEnv e s))) ∨
      (∃ rx e, busByte tx s = (some rx, emit (.busByte tx (some rx)) (setEnv e s))) := by
  unfold busByte
  generalize drawFail s.env = df
  obtain ⟨failed, e1⟩ := df
  cases failed with
  | true => exact .inl ⟨e1, rfl⟩
  | false => exact .inr ⟨(drawByte e1).1, (drawByte e1).2, rfl⟩

/-- A `BusByte` the script lets succeed. -/
theorem busByte_scripted (tx b : Byte) (fs : List Bool) (bs : List Byte) (s : State)
    (hf : s.env.fails = false :: fs) (hb : s.env.bytes = b :: bs) :
    busByte tx s = (some b, emit (.busByte tx (some b)) (setEnv { s.env with fails := fs, bytes := bs } s)) := by
  have hd := drawFail_scripted s.env false fs hf
  have hr := drawByte_scripted { s.env with fails := fs } b bs hb
  simp [busByte, hd, hr]

/-- A `BusByte` the script lets fail. -/
theorem busByte_failed (tx : Byte) (fs : List Bool) (s : State) (hf : s.env.fails = true :: fs) :
    busByte tx s = (none, emit (.busByte tx none) (setEnv { s.env with fails := fs } s)) := by
  have hd := drawFail_scripted s.env true fs hf
  simp [busByte, hd]

/-- `BusBuf` fails and leaves a failed event, or overwrites the Frame Buffer with 256 received bytes. -/
theorem busBuf_cases (s : State) :
    (∃ e, busBuf s = (false, emit (.busBuf (fbBytes s.params s.block.fb) none) (setEnv e s))) ∨
      (∃ rx e, rx.length = 256 ∧
        busBuf s = (true, emit (.busBuf (fbBytes s.params s.block.fb) (some rx))
          (setEnv e (setBlock (receiveFrame s.params rx s.block) s)))) := by
  unfold busBuf
  generalize drawFail s.env = df
  obtain ⟨failed, e1⟩ := df
  cases failed with
  | true => exact .inl ⟨e1, rfl⟩
  | false =>
    refine .inr ⟨(drawBytes Config.frameSize e1).1, (drawBytes Config.frameSize e1).2, ?_, ?_⟩
    · rw [drawBytes_length, Config.frameSize]
    · simp

/-- A `BusBuf` the script lets succeed. -/
theorem busBuf_scripted (rx : List Byte) (fs : List Bool) (bs : List Byte) (s : State) (hlen : rx.length = 256)
    (hf : s.env.fails = false :: fs) (hb : s.env.bytes = rx ++ bs) :
    busBuf s = (true, emit (.busBuf (fbBytes s.params s.block.fb) (some rx))
      (setEnv { s.env with fails := fs, bytes := bs } (setBlock (receiveFrame s.params rx s.block) s))) := by
  have hd := drawFail_scripted s.env false fs hf
  have hr := drawBytes_scripted rx bs { s.env with fails := fs } hb
  rw [hlen] at hr
  simp [busBuf, hd, Config.frameSize, hr]

/-- A `BusBuf` the script lets fail. -/
theorem busBuf_failed (fs : List Bool) (s : State) (hf : s.env.fails = true :: fs) :
    busBuf s = (false, emit (.busBuf (fbBytes s.params s.block.fb) none) (setEnv { s.env with fails := fs } s)) := by
  have hd := drawFail_scripted s.env true fs hf
  simp [busBuf, hd]

/-- A `BusByte` leaves the host's script as it was. -/
theorem busByte_host (tx : Byte) (s : State) : (busByte tx s).2.env.host = s.env.host := by
  have hfail := (drawFail_frame s.env).1
  unfold busByte
  generalize drawFail s.env = df at hfail
  obtain ⟨failed, e⟩ := df
  have he : e.host = s.env.host := hfail
  cases failed <;> simp [(drawByte_frame e).1, he]

/-- A `BusBuf` leaves the host's script as it was. -/
theorem busBuf_host (s : State) : (busBuf s).2.env.host = s.env.host := by
  have hfail := (drawFail_frame s.env).1
  unfold busBuf
  generalize drawFail s.env = df at hfail
  obtain ⟨failed, e⟩ := df
  have he : e.host = s.env.host := hfail
  cases failed <;> simp [(drawBytes_frame _ e).1, he]

/-! ### The end of an operation -/

/-- After `raise BusError` the block is idle and `FAULT` is set (spec/60 R204). -/
theorem raiseBusError_block (s : State) :
    (raiseBusError s).block =
      { s.block with fault := true, fbValid := false, seq := [], busy := false } := rfl

/-- After `raise BusError` of a `BusBuf` the Frame Buffer holds free bytes as well (spec/93 U5). -/
theorem raiseBufferError_block (s : State) :
    (raiseBufferError s).block =
      { s.block with
        fb := fbStore s.params (freeFrame s.env), fault := true, fbValid := false, seq := [], busy := false } := rfl

@[simp] theorem raiseBusError_params (s : State) : (raiseBusError s).params = s.params := rfl
@[simp] theorem raiseBusError_env (s : State) : (raiseBusError s).env = s.env := rfl
@[simp] theorem raiseBusError_resets (s : State) : (raiseBusError s).resets = s.resets := rfl
@[simp] theorem raiseBufferError_params (s : State) : (raiseBufferError s).params = s.params := rfl
@[simp] theorem raiseBufferError_resets (s : State) : (raiseBufferError s).resets = s.resets := rfl

/-! ### One step of the engine -/

@[simp] theorem tick_idle (s : State) (h : s.block.seq = []) : tick s = s := by
  unfold tick
  rw [h]

/-- The engine runs the line `SEQ` stands at. -/
theorem tick_line (s : State) (top : Position) (rest : List Position) (line : Line)
    (hseq : s.block.seq = top :: rest) (hline : (linesOf top.op)[top.step]? = some line) :
    tick s = runLine line top rest s := by
  unfold tick
  rw [hseq]
  simp [hline]

/-- Past its last line an operation ends `OK`. -/
theorem tick_end (s : State) (top : Position) (rest : List Position)
    (hseq : s.block.seq = top :: rest) (hline : (linesOf top.op)[top.step]? = none) :
    tick s = returnFrom rest s := by
  unfold tick
  rw [hseq]
  simp [hline]

/-- EVERYTHING A STEP OF THE ENGINE CAN DO: nothing when idle, a line of the innermost operation, or its end. -/
theorem tick_cases (s : State) :
    (s.block.seq = [] ∧ tick s = s) ∨
      (∃ top rest line, s.block.seq = top :: rest ∧ (linesOf top.op)[top.step]? = some line ∧
        tick s = runLine line top rest s) ∨
      (∃ top rest, s.block.seq = top :: rest ∧ (linesOf top.op)[top.step]? = none ∧ tick s = returnFrom rest s) := by
  cases hseq : s.block.seq with
  | nil => exact .inl ⟨rfl, tick_idle s hseq⟩
  | cons top rest =>
    cases hline : (linesOf top.op)[top.step]? with
    | none => exact .inr (.inr ⟨top, rest, rfl, hline, tick_end s top rest hseq hline⟩)
    | some line => exact .inr (.inl ⟨top, rest, line, rfl, hline, tick_line s top rest line hseq hline⟩)

/-- A step of the engine takes nothing from the host's script. -/
theorem tick_host (s : State) : (tick s).env.host = s.env.host := by
  rcases tick_cases s with ⟨_, h⟩ | ⟨top, rest, line, _, _, h⟩ | ⟨_, rest, _, _, h⟩
  · rw [h]
  · rw [h]
    cases line with
    | assign f => rfl
    | call f => rfl
    | busBuf =>
      have hb := busBuf_host s
      simp only [runLine, transferFrame]
      generalize busBuf s = bb at hb
      obtain ⟨ok, s1⟩ := bb
      cases ok <;> simpa [raiseBufferError] using hb
    | readLen =>
      have hb := busByte_host s.params.skipFill s
      simp only [runLine, readLength]
      generalize busByte s.params.skipFill s = bb at hb
      obtain ⟨rx, s1⟩ := bb
      cases rx <;> simpa using hb
    | discard =>
      have hb := busByte_host s.params.skipFill s
      simp only [runLine, discardOne]
      split
      · rfl
      · generalize busByte s.params.skipFill s = bb at hb
        obtain ⟨rx, s1⟩ := bb
        cases rx <;> simpa using hb
    | delay => rfl
    | log kind => rfl
    | test f =>
      simp only [runLine]
      cases f s.params s.block <;> rfl
  · rw [h]
    cases rest <;> rfl

/-! ### Runs of the engine -/

/-- A run of at most `n` steps is `n` steps, because an idle engine stands still. -/
theorem drive_eq_iterate (n : Nat) : ∀ s, drive n s = tick^[n] s := by
  induction n with
  | zero => intro s; rfl
  | succ n ih =>
    intro s
    rw [Function.iterate_succ_apply]
    cases hseq : s.block.seq with
    | nil =>
      have hfix : ∀ m, tick^[m] s = s := fun m => Function.iterate_fixed (tick_idle s hseq) m
      rw [tick_idle s hseq, hfix]
      unfold drive
      rw [hseq]
    | cons top rest =>
      have hd : drive (n + 1) s = drive n (tick s) := by
        conv => lhs; unfold drive
        rw [hseq]
      rw [hd, ih]

/-- Runs compose. -/
theorem drive_add (a b : Nat) (s : State) : drive (a + b) s = drive b (drive a s) := by
  simp only [drive_eq_iterate]
  rw [Nat.add_comm, Function.iterate_add_apply]

/-- A run of one step is the step. -/
theorem drive_one (s : State) : drive 1 s = tick s := by
  rw [drive_eq_iterate]
  rfl

/-- One run after another. -/
theorem drive_trans {a b : Nat} {s t u : State} (h1 : drive a s = t) (h2 : drive b t = u) :
    drive (a + b) s = u := by
  rw [drive_add, h1, h2]

/-- One step, then a run. -/
theorem drive_cons {b : Nat} {s t u : State} (h1 : tick s = t) (h2 : drive b t = u) : drive (1 + b) s = u :=
  drive_trans ((drive_one s).trans h1) h2

/-- A run, then one step. -/
theorem drive_snoc {a : Nat} {s t u : State} (h1 : drive a s = t) (h2 : tick t = u) : drive (a + 1) s = u :=
  drive_trans h1 ((drive_one t).trans h2)

/-- An idle engine stands still however long it is run. -/
theorem drive_idle (n : Nat) (s : State) (h : s.block.seq = []) : drive n s = s := by
  rw [drive_eq_iterate]
  exact Function.iterate_fixed (tick_idle s h) n

/-- A run that has become idle within the bound is over. -/
theorem drive_done (a n : Nat) (s t : State) (hle : a ≤ n) (hrun : drive a s = t) (hidle : t.block.seq = []) :
    drive n s = t := by
  obtain ⟨b, rfl⟩ := Nat.exists_eq_add_of_le hle
  rw [drive_add, hrun, drive_idle b t hidle]

/-- A property every engine step keeps is kept by a run. -/
theorem drive_keeps (P : State → Prop) (hstep : ∀ s, P s → P (tick s)) (n : Nat) :
    ∀ s, P s → P (drive n s) := by
  intro s hs
  rw [drive_eq_iterate]
  induction n generalizing s with
  | zero => exact hs
  | succ n ih => exact ih (tick s) (hstep s hs)

/-! ### Runs of the machine -/

/-- A run whose first step goes on is that step and the rest of the run. -/
theorem run_next (M : Host.Core) (n : Nat) (s t : M.State) (h : M.step s = .next t) :
    Host.Core.run M (n + 1) s = Host.Core.run M n t := by
  simp [Host.Core.run, h]

theorem runSteps_next (n : Nat) (s t : State) (h : step s = .next t) : runSteps (n + 1) s = runSteps n t :=
  run_next core n s t h

/-! ### A request -/

/-- A request presented while the block is busy waits. -/
theorem operate_busy (i : Instr) (s : State) (h : s.block.busy = true) : operate i s = present i s := by
  simp [operate, h]

/-- A request while `FAULT` = 1 is answered `FAULTED`. -/
theorem operate_faulted (i : Instr) (s : State) (hi : s.block.busy = false) (hf : s.block.fault = true) :
    operate i s = answerAtOnce .faulted (encode i) s := by
  simp [operate, hi, hf]

/-- A request to a ready block is accepted and run. -/
theorem operate_ready (i : Instr) (s : State) (h : Ready s) : operate i s = drive runBound (accept i s) := by
  simp [operate, h.idle, h.noFault]

/-- Every meaning is the request of its own operation. -/
theorem exec_eq_operate (i : Instr) (s : State) : exec i s = .next (operate i s) := by
  cases i <;> rfl

/-- An operation that is over after `n` steps from its acceptance is over in one step of the model. -/
theorem exec_done (i : Instr) (n : Nat) (s t : State) (hready : Ready s) (hle : n ≤ runBound)
    (hrun : drive n (accept i s) = t) (hidle : t.block.seq = []) : exec i s = .next t := by
  rw [exec_eq_operate, operate_ready i s hready, drive_done n runBound _ t hle hrun hidle]

end Sys2Proof.Machine
end

