-- ==== Sys2Proof/Laws/Runs.lean ====
section
/-! SUPPORT. What a nested or outermost leaf operation does when the script lets its transfers succeed, as a run of a known
number of engine steps from `setSeq (position :: callers) s` to `setSeq (end :: callers) (effect s)`. Longer
operations are these runs one after another. -/

namespace Sys2Proof.Machine

/-! ### The sequencer position apart from the rest of the state -/

theorem setSeq_self (s : State) : setSeq s.block.seq s = s := rfl

@[simp] theorem setSeq_setSeq (q q' : List Position) (s : State) : setSeq q (setSeq q' s) = setSeq q s := rfl

theorem advance_setSeq (top : Position) (rest q : List Position) (s : State) :
    advance top rest (setSeq q s) = setSeq (⟨top.op, top.step + 1⟩ :: rest) s := rfl

/-! ### Effects -/

/-- The environment after transfers that left these scripts. -/
def leftover (fs : List Bool) (bs : List Byte) (s : State) : State :=
  setEnv { s.env with fails := fs, bytes := bs } s

/-- The block after an assignment. -/
def updated (f : Params → Block → Block) (s : State) : State := setBlock (f s.params s.block) s

/-- After discards that received `rx`: `CNT` is 0 and the events are in the history. -/
def discarded (rx : List Byte) (fs : List Bool) (bs : List Byte) (s : State) : State :=
  { s with
    block := { s.block with cnt := 0 }
    env := { s.env with fails := fs, bytes := bs }
    hist := (discardEvents s.params.skipFill rx).reverse ++ s.hist }

/-- After a buffer transfer that received `rx`. -/
def exchanged (rx : List Byte) (fs : List Bool) (bs : List Byte) (s : State) : State :=
  { s with
    block := receiveFrame s.params rx s.block
    env := { s.env with fails := fs, bytes := bs }
    hist := .busBuf (fbBytes s.params s.block.fb) (some rx) :: s.hist }

/-- After a command was sent and `rx` received meanwhile (spec/40 R113): nothing of the command is left in the Frame
Buffer. -/
def commanded (c v : Byte) (rx : List Byte) (fs : List Bool) (bs : List Byte) (s : State) : State :=
  { s with
    block := receiveFrame s.params rx s.block
    env := { s.env with fails := fs, bytes := bs }
    hist := commandEvent c v rx :: s.hist }

/-- After a settle delay. -/
def settled (s : State) : State := emit settleEvent s

/-! ### One line -/

/-- The engine runs the line at a position. -/
theorem tick_at (op : Instr) (k : Nat) (rest : List Position) (line : Line) (s : State)
    (hline : (linesOf op)[k]? = some line) :
    tick (setSeq (⟨op, k⟩ :: rest) s) = runLine line ⟨op, k⟩ rest (setSeq (⟨op, k⟩ :: rest) s) :=
  tick_line _ _ _ _ rfl hline

/-- An assignment that does not look at `SEQ`. -/
theorem tick_assign (op : Instr) (k : Nat) (rest : List Position) (f : Params → Block → Block) (s : State)
    (hline : (linesOf op)[k]? = some (.assign f))
    (hf : ∀ q, { f s.params { s.block with seq := q } with seq := [] } = { f s.params s.block with seq := [] }) :
    tick (setSeq (⟨op, k⟩ :: rest) s) = setSeq (⟨op, k + 1⟩ :: rest) (updated f s) := by
  have h := hf (⟨op, k⟩ :: rest)
  have hb : { f s.params { s.block with seq := ⟨op, k⟩ :: rest } with seq := ⟨op, k + 1⟩ :: rest } =
      { f s.params s.block with seq := ⟨op, k + 1⟩ :: rest } := by
    have h2 := congrArg (fun b : Block => { b with seq := ⟨op, k + 1⟩ :: rest }) h
    simpa using h2
  rw [tick_at op k rest _ s hline]
  simp only [runLine, advance, setSeq, updated, setBlock]
  exact congrArg (fun b => { s with block := b }) hb

/-- A call pushes the callee at its first line. -/
theorem tick_call (op : Instr) (k : Nat) (rest : List Position) (f : Params → Block → Instr) (s : State)
    (hline : (linesOf op)[k]? = some (.call f)) :
    tick (setSeq (⟨op, k⟩ :: rest) s) =
      setSeq (⟨f s.params { s.block with seq := ⟨op, k⟩ :: rest }, 0⟩ :: ⟨op, k⟩ :: rest) s := by
  rw [tick_at op k rest _ s hline]
  rfl

theorem tick_delay (op : Instr) (k : Nat) (rest : List Position) (s : State)
    (hline : (linesOf op)[k]? = some .delay) :
    tick (setSeq (⟨op, k⟩ :: rest) s) = setSeq (⟨op, k + 1⟩ :: rest) (settled s) := by
  rw [tick_at op k rest _ s hline]
  rfl

theorem tick_log (op : Instr) (k : Nat) (rest : List Position) (kind : ErrKind) (s : State)
    (hline : (linesOf op)[k]? = some (.log kind)) :
    tick (setSeq (⟨op, k⟩ :: rest) s) = setSeq (⟨op, k + 1⟩ :: rest) (logError kind s) := by
  rw [tick_at op k rest _ s hline]
  rfl

theorem tick_test (op : Instr) (k : Nat) (rest : List Position) (f : Params → Block → Flow) (s : State)
    (hline : (linesOf op)[k]? = some (.test f)) :
    tick (setSeq (⟨op, k⟩ :: rest) s) =
      follow (f s.params { s.block with seq := ⟨op, k⟩ :: rest }) ⟨op, k⟩ rest (setSeq (⟨op, k⟩ :: rest) s) := by
  rw [tick_at op k rest _ s hline]
  rfl

/-- A nested operation past its last line returns to its caller's next line. -/
theorem tick_return (op : Instr) (k : Nat) (caller : Position) (below : List Position) (s : State)
    (hline : (linesOf op)[k]? = none) :
    tick (setSeq (⟨op, k⟩ :: caller :: below) s) = setSeq (⟨caller.op, caller.step + 1⟩ :: below) s := by
  rw [tick_end _ ⟨op, k⟩ (caller :: below) rfl hline]
  rfl

/-- The outermost operation past its last line ends `OK`. -/
theorem tick_finish (op : Instr) (k : Nat) (s : State) (hline : (linesOf op)[k]? = none) :
    tick (setSeq [⟨op, k⟩] s) = endOperation .ok (setSeq [⟨op, k⟩] s) :=
  tick_end _ ⟨op, k⟩ [] rfl hline

theorem tick_busBuf (op : Instr) (k : Nat) (rest : List Position) (rx : List Byte) (fs : List Bool) (bs : List Byte)
    (s : State) (hline : (linesOf op)[k]? = some .busBuf) (hlen : rx.length = 256)
    (hf : s.env.fails = false :: fs) (hb : s.env.bytes = rx ++ bs) :
    tick (setSeq (⟨op, k⟩ :: rest) s) = setSeq (⟨op, k + 1⟩ :: rest) (exchanged rx fs bs s) := by
  have hbuf := busBuf_scripted rx fs bs (setSeq (⟨op, k⟩ :: rest) s) hlen hf hb
  rw [tick_at op k rest _ s hline]
  simp only [runLine, transferFrame, hbuf]
  rfl

/-! ### Runs of the leaves -/

/-- `ENC` from its first line to its end. -/
theorem enc_run (c v : Byte) (rest : List Position) (s : State) :
    drive 1 (setSeq (⟨.enc c v, 0⟩ :: rest) s) =
      setSeq (⟨.enc c v, 1⟩ :: rest)
        (updated (fun p b => { b with fb := fbStore p (commandFrame c v), fbValid := false }) s) := by
  rw [drive_eq_iterate]
  exact tick_assign (.enc c v) 0 rest _ s rfl (fun _ => rfl)

/-- `XFER` from its first line to its end. -/
theorem xfer_run (rest : List Position) (rx : List Byte) (fs : List Bool) (bs : List Byte) (s : State)
    (hlen : rx.length = 256) (hf : s.env.fails = false :: fs) (hb : s.env.bytes = rx ++ bs) :
    drive 2 (setSeq (⟨.xfer, 0⟩ :: rest) s) = setSeq (⟨.xfer, 2⟩ :: rest) (exchanged rx fs bs s) := by
  have h1 := tick_busBuf .xfer 0 rest rx fs bs s rfl hlen hf hb
  have h2 := tick_assign .xfer 1 rest (fun _ b => { b with fbValid := false }) (exchanged rx fs bs s) rfl
    (fun _ => rfl)
  exact drive_cons h1 ((drive_one _).trans h2)

/-- The loop of a skip: as many transfers as `CNT` says, and one step that finds it 0. -/
theorem discard_run (op : Instr) (k : Nat) (rest : List Position) (hline : (linesOf op)[k]? = some .discard)
    (fs : List Bool) (bs : List Byte) (rx : List Byte) :
    ∀ s : State, s.block.cnt.toNat = rx.length → s.env.fails = List.replicate rx.length false ++ fs →
      s.env.bytes = rx ++ bs →
      drive (rx.length + 1) (setSeq (⟨op, k⟩ :: rest) s) = setSeq (⟨op, k + 1⟩ :: rest) (discarded rx fs bs s) := by
  induction rx with
  | nil =>
    intro s hcnt hf hb
    have hc : s.block.cnt = 0 := BitVec.eq_of_toNat_eq (by simpa using hcnt)
    have hd : discarded [] fs bs s = s := by
      have hf' : s.env.fails = fs := by simpa using hf
      have hb' : s.env.bytes = bs := by simpa using hb
      subst hf' hb'
      unfold discarded
      rw [← hc]
      rfl
    rw [drive_eq_iterate]
    show tick (setSeq (⟨op, k⟩ :: rest) s) = _
    rw [tick_at op k rest _ s hline, hd]
    simp only [runLine, discardOne]
    rw [if_pos (show (setSeq (⟨op, k⟩ :: rest) s).block.cnt = 0 from hc)]
    rfl
  | cons b rx ih =>
    intro s hcnt hf hb
    have hpos : s.block.cnt.toNat = rx.length + 1 := by simpa using hcnt
    have hne : s.block.cnt ≠ 0 := by
      intro h
      rw [h] at hpos
      simp at hpos
    let s1 : State :=
      { s with
        block := { s.block with cnt := s.block.cnt - 1 }
        env := { s.env with fails := List.replicate rx.length false ++ fs, bytes := rx ++ bs }
        hist := .busByte s.params.skipFill (some b) :: s.hist }
    have hbus := busByte_scripted s.params.skipFill b (List.replicate rx.length false ++ fs) (rx ++ bs)
      (setSeq (⟨op, k⟩ :: rest) s) (by simpa [List.replicate_succ] using hf) (by simpa using hb)
    have htick : tick (setSeq (⟨op, k⟩ :: rest) s) = setSeq (⟨op, k⟩ :: rest) s1 := by
      rw [tick_at op k rest _ s hline]
      simp only [runLine, discardOne]
      rw [if_neg (show (setSeq (⟨op, k⟩ :: rest) s).block.cnt ≠ 0 from hne)]
      simp only [setSeq_params, hbus]
      rfl
    have hcnt1 : s1.block.cnt.toNat = rx.length := by
      show (s.block.cnt - 1).toNat = rx.length
      have hlt := s.block.cnt.isLt
      rw [BitVec.toNat_sub]
      simp
      omega
    have hrec := ih s1 hcnt1 rfl rfl
    have hdrive : drive (rx.length + 1 + 1) (setSeq (⟨op, k⟩ :: rest) s) =
        drive (rx.length + 1) (setSeq (⟨op, k⟩ :: rest) s1) := by
      rw [drive_eq_iterate, drive_eq_iterate, Function.iterate_succ_apply, htick]
    simp only [List.length_cons]
    rw [hdrive, hrec]
    simp [discarded, s1, discardEvents]

/-- What a skip's loop leaves whose transfer after `rx` fails: `CNT` holds the discards not completed (spec/60 R204). -/
def cutShort (rx : List Byte) (fs : List Bool) (bs : List Byte) (s : State) : State :=
  { s with
    block := { s.block with cnt := s.block.cnt - BitVec.ofNat 16 rx.length }
    env := { s.env with fails := fs, bytes := bs }
    hist := .busByte s.params.skipFill none :: ((discardEvents s.params.skipFill rx).reverse ++ s.hist) }

/-- The loop of a skip cut short: as many transfers as there are bytes, and one that fails. -/
theorem discard_failed (op : Instr) (k : Nat) (rest : List Position) (hline : (linesOf op)[k]? = some .discard)
    (fs : List Bool) (bs : List Byte) (rx : List Byte) :
    ∀ s : State, rx.length < s.block.cnt.toNat → s.env.fails = List.replicate rx.length false ++ true :: fs →
      s.env.bytes = rx ++ bs →
      drive (rx.length + 1) (setSeq (⟨op, k⟩ :: rest) s) =
        raiseBusError (setSeq (⟨op, k⟩ :: rest) (cutShort rx fs bs s)) := by
  induction rx with
  | nil =>
    intro s hcnt hf hb
    have hne : s.block.cnt ≠ 0 := by
      rintro h
      simp [h] at hcnt
    have hb' : s.env.bytes = bs := by simpa using hb
    subst hb'
    have hbus := busByte_failed s.params.skipFill fs (setSeq (⟨op, k⟩ :: rest) s) hf
    refine (drive_one _).trans ?_
    rw [tick_at op k rest _ s hline]
    simp only [runLine, discardOne]
    rw [if_neg (show (setSeq (⟨op, k⟩ :: rest) s).block.cnt ≠ 0 from hne)]
    simp only [setSeq_params, hbus]
    simp [setSeq, emit, setEnv, discardEvents, cutShort]
  | cons b rx ih =>
    intro s hcnt hf hb
    have hne : s.block.cnt ≠ 0 := by
      rintro h
      simp [h] at hcnt
    let s1 : State :=
      { s with
        block := { s.block with cnt := s.block.cnt - 1 }
        env := { s.env with fails := List.replicate rx.length false ++ true :: fs, bytes := rx ++ bs }
        hist := .busByte s.params.skipFill (some b) :: s.hist }
    have hbus := busByte_scripted s.params.skipFill b (List.replicate rx.length false ++ true :: fs) (rx ++ bs)
      (setSeq (⟨op, k⟩ :: rest) s) (by simpa [List.replicate_succ] using hf) (by simpa using hb)
    have htick : tick (setSeq (⟨op, k⟩ :: rest) s) = setSeq (⟨op, k⟩ :: rest) s1 := by
      rw [tick_at op k rest _ s hline]
      simp only [runLine, discardOne]
      rw [if_neg (show (setSeq (⟨op, k⟩ :: rest) s).block.cnt ≠ 0 from hne)]
      simp only [setSeq_params, hbus]
      rfl
    have hcnt1 : rx.length < s1.block.cnt.toNat := by
      show _ < (s.block.cnt - 1).toNat
      have hlt := s.block.cnt.isLt
      rw [BitVec.toNat_sub]
      simp at hcnt ⊢
      omega
    have hleft : s.block.cnt - 1 - BitVec.ofNat 16 rx.length = s.block.cnt - BitVec.ofNat 16 (rx.length + 1) := by
      rw [BitVec.ofNat_add, BitVec.sub_sub, BitVec.add_comm]
      rfl
    rw [List.length_cons, Nat.add_comm]
    refine (drive_cons htick (ih s1 hcnt1 rfl rfl)).trans ?_
    simp [s1, cutShort, discardEvents, setSeq, ← hleft]

/-- `SKIPN` from its first line to its end. -/
theorem skipn_run (n : Half) (rest : List Position) (rx : List Byte) (fs : List Bool) (bs : List Byte) (s : State)
    (hlen : rx.length = n.toNat) (hf : s.env.fails = List.replicate n.toNat false ++ fs)
    (hb : s.env.bytes = rx ++ bs) :
    drive (n.toNat + 2) (setSeq (⟨.skipn n, 0⟩ :: rest) s) =
      setSeq (⟨.skipn n, 2⟩ :: rest) (discarded rx fs bs s) := by
  have h1 := tick_assign (.skipn n) 0 rest (fun _ b => { b with cnt := n }) s rfl (fun _ => rfl)
  have h2 := discard_run (.skipn n) 1 rest rfl fs bs rx (updated (fun _ b => { b with cnt := n }) s)
    hlen.symm (by rw [hlen]; exact hf) hb
  have h : drive (n.toNat + 2) (setSeq (⟨.skipn n, 0⟩ :: rest) s) =
      drive (rx.length + 1) (tick (setSeq (⟨.skipn n, 0⟩ :: rest) s)) := by
    rw [hlen, drive_eq_iterate, drive_eq_iterate, ← Function.iterate_succ_apply]
  rw [h, h1, h2]
  rfl

/-- What `SKIPV` leaves when the length byte is `rx.length`. -/
def skippedVariable (l : Byte) (rx : List Byte) (fs : List Bool) (bs : List Byte) (s : State) : State :=
  { s with
    block := { s.block with len := l, cnt := 0 }
    env := { s.env with fails := fs, bytes := bs }
    hist := (discardEvents s.params.skipFill (l :: rx)).reverse ++ s.hist }

/-- `SKIPV` from its first line to its end. -/
theorem skipv_run (l : Byte) (rest : List Position) (rx : List Byte) (fs : List Bool) (bs : List Byte) (s : State)
    (hlen : rx.length = l.toNat) (hf : s.env.fails = List.replicate (l.toNat + 1) false ++ fs)
    (hb : s.env.bytes = l :: (rx ++ bs)) :
    drive (l.toNat + 3) (setSeq (⟨.skipv, 0⟩ :: rest) s) =
      setSeq (⟨.skipv, 3⟩ :: rest) (skippedVariable l rx fs bs s) := by
  let s1 : State :=
    { s with
      block := { s.block with len := l }
      env := { s.env with fails := List.replicate l.toNat false ++ fs, bytes := rx ++ bs }
      hist := .busByte s.params.skipFill (some l) :: s.hist }
  have hbus := busByte_scripted s.params.skipFill l (List.replicate l.toNat false ++ fs) (rx ++ bs)
    (setSeq (⟨.skipv, 0⟩ :: rest) s) (by simpa [List.replicate_succ] using hf) hb
  have hmask : l &&& 0xFF = l := by
    exact BitVec.and_allOnes
  have htick : tick (setSeq (⟨.skipv, 0⟩ :: rest) s) = setSeq (⟨.skipv, 1⟩ :: rest) s1 := by
    rw [tick_at .skipv 0 rest .readLen s rfl]
    simp only [runLine, readLength, setSeq_params, hbus, hmask]
    rfl
  have h1 := tick_assign .skipv 1 rest (fun _ b => { b with cnt := b.len.setWidth 16 }) s1 rfl (fun _ => rfl)
  have hcnt : (updated (fun _ b => { b with cnt := b.len.setWidth 16 }) s1).block.cnt.toNat = rx.length := by
    show (l.setWidth 16).toNat = rx.length
    have hl := l.isLt
    rw [hlen, BitVec.toNat_setWidth]
    omega
  have h2 := discard_run .skipv 2 rest rfl fs bs rx
    (updated (fun _ b => { b with cnt := b.len.setWidth 16 }) s1) hcnt (by rw [hlen]; rfl) rfl
  have h : drive (l.toNat + 3) (setSeq (⟨.skipv, 0⟩ :: rest) s) =
      drive (rx.length + 1) (tick (tick (setSeq (⟨.skipv, 0⟩ :: rest) s))) := by
    rw [hlen, drive_eq_iterate, drive_eq_iterate, ← Function.iterate_succ_apply, ← Function.iterate_succ_apply]
  rw [h, htick, h1, h2]
  simp [skippedVariable, discarded, updated, s1, discardEvents, setBlock]

/-! ### Calls of the leaves: from the caller's call line to the line after it -/

/-- `call SKIPN(256)`, the flush of one frame. -/
theorem call_flush_run (op : Instr) (k : Nat) (rest : List Position) (rx : List Byte) (fs : List Bool)
    (bs : List Byte) (s : State) (hline : (linesOf op)[k]? = some (.call (fun _ _ => .skipn 256)))
    (hlen : rx.length = 256) (hf : s.env.fails = List.replicate 256 false ++ fs) (hb : s.env.bytes = rx ++ bs) :
    drive 260 (setSeq (⟨op, k⟩ :: rest) s) = setSeq (⟨op, k + 1⟩ :: rest) (discarded rx fs bs s) := by
  have h1 := tick_call op k rest _ s hline
  have h2 := skipn_run 256 (⟨op, k⟩ :: rest) rx fs bs s hlen hf hb
  have h3 := tick_return (.skipn 256) 2 ⟨op, k⟩ rest (discarded rx fs bs s) rfl
  exact drive_cons h1 (drive_snoc h2 h3)

/-- `SendCmd(c, v)` (spec/40 R113): from the `call ENC` line to the line after the `call XFER` line. -/
theorem sendCmd_run (op : Instr) (k : Nat) (rest : List Position) (c v : Byte) (fc : Params → Block → Instr)
    (rx : List Byte) (fs : List Bool) (bs : List Byte) (s : State)
    (hline : (linesOf op)[k]? = some (.call fc)) (hline' : (linesOf op)[k + 1]? = some (.call (fun _ _ => .xfer)))
    (hcv : ∀ q, fc s.params { s.block with seq := q } = .enc c v)
    (hlen : rx.length = 256) (hf : s.env.fails = false :: fs) (hb : s.env.bytes = rx ++ bs) :
    drive 7 (setSeq (⟨op, k⟩ :: rest) s) = setSeq (⟨op, k + 2⟩ :: rest) (commanded c v rx fs bs s) := by
  let s1 := updated (fun p b => { b with fb := fbStore p (commandFrame c v), fbValid := false }) s
  have h1 := tick_call op k rest _ s hline
  have h2 := enc_run c v (⟨op, k⟩ :: rest) s
  have h3 := tick_return (.enc c v) 1 ⟨op, k⟩ rest s1 rfl
  have h4 := tick_call op (k + 1) rest _ s1 hline'
  have h5 := xfer_run (⟨op, k + 1⟩ :: rest) rx fs bs s1 hlen hf hb
  have h6 := tick_return .xfer 2 ⟨op, k + 1⟩ rest (exchanged rx fs bs s1) rfl
  have hs : exchanged rx fs bs s1 = commanded c v rx fs bs s := by
    have hfb : fbBytes s1.params s1.block.fb = commandFrame c v := fbBytes_fbStore s.params _ (commandFrame_length c v)
    unfold exchanged
    rw [hfb]
    rfl
  rw [hcv] at h1
  rw [hs] at h5 h6
  exact drive_cons h1 (drive_trans h2 (drive_cons h3 (drive_cons h4 (drive_snoc h5 h6))))

/-! ### Runs of the composite operations, nested or outermost -/

/-- A call of any operation whose run to its end is known: from the caller's call line to the line after it. -/
theorem call_run (op callee : Instr) (k n m : Nat) (rest : List Position) (f : Params → Block → Instr) (s t : State)
    (hline : (linesOf op)[k]? = some (.call f)) (hcallee : ∀ q, f s.params { s.block with seq := q } = callee)
    (hrun : drive n (setSeq (⟨callee, 0⟩ :: ⟨op, k⟩ :: rest) s) = setSeq (⟨callee, m⟩ :: ⟨op, k⟩ :: rest) t)
    (hend : (linesOf callee)[m]? = none) :
    drive (1 + (n + 1)) (setSeq (⟨op, k⟩ :: rest) s) = setSeq (⟨op, k + 1⟩ :: rest) t := by
  have h1 := tick_call op k rest f s hline
  rw [hcallee] at h1
  exact drive_cons h1 (drive_snoc hrun (tick_return callee m ⟨op, k⟩ rest t hend))

/-- The outermost operation past its last line: its response is delivered and the engine is idle. -/
theorem finish_run (op : Instr) (m n : Nat) (s t : State)
    (hrun : drive n s = setSeq [⟨op, m⟩] t) (hend : (linesOf op)[m]? = none) :
    drive (n + 1) s = respond .ok (responseInfo op .ok { t.block with seq := [⟨op, m⟩] })
      (setBlock { t.block with seq := [], busy := false } t) :=
  (drive_snoc hrun (tick_finish op m t hend)).trans rfl

/-- What `SETMODE m` leaves when its 256 discards received `r` and the command's transfer `f`. -/
def modeSet (m : Mode) (r f : List Byte) (fs : List Bool) (bs : List Byte) (s : State) : State :=
  { s with
    block := { s.block with mode := m, modeV := true, fb := fbStore s.params f, fbValid := false, cnt := 0 }
    env := { s.env with fails := fs, bytes := bs }
    hist := History.add
      (discardEvents s.params.skipFill r ++ [settleEvent]
        ++ [commandEvent s.params.cmdMode (modeVal s.params m) f] ++ [settleEvent]) s.hist }

/-- `SETMODE m` from its first line to its end. -/
theorem setmode_run (m : Mode) (rest : List Position) (r f : List Byte) (fs : List Bool) (bs : List Byte) (s : State)
    (hr : r.length = 256) (hf : f.length = 256) (hfails : s.env.fails = List.replicate 257 false ++ fs)
    (hbytes : s.env.bytes = r ++ (f ++ bs)) :
    drive 270 (setSeq (⟨.setmode m, 0⟩ :: rest) s) = setSeq (⟨.setmode m, 6⟩ :: rest) (modeSet m r f fs bs s) := by
  have h0 := tick_assign (.setmode m) 0 rest (fun _ b => { b with mode := m, modeV := true }) s rfl (fun _ => rfl)
  let s1 := updated (fun _ b => { b with mode := m, modeV := true }) s
  have h1 := call_flush_run (.setmode m) 1 rest r (false :: fs) (f ++ bs) s1 rfl hr
    (by
      rw [show s1.env.fails = s.env.fails from rfl, hfails, show (257 : Nat) = 256 + 1 from rfl, List.replicate_add,
        List.append_assoc]
      rfl) hbytes
  let s2 := discarded r (false :: fs) (f ++ bs) s1
  have h2 := tick_delay (.setmode m) 2 rest s2 rfl
  have h3 := sendCmd_run (.setmode m) 3 rest s.params.cmdMode (modeVal s.params m)
    (fun p _ => .enc p.cmdMode (modeVal p m)) f fs bs (settled s2) rfl rfl (fun _ => rfl) hf rfl rfl
  let s3 := commanded s.params.cmdMode (modeVal s.params m) f fs bs (settled s2)
  have h4 := tick_delay (.setmode m) 5 rest s3 rfl
  have hfin : settled s3 = modeSet m r f fs bs s := by
    simp [s3, s2, s1, settled, commanded, discarded, updated, modeSet, History.add, emit, setBlock, receiveFrame]
  rw [hfin] at h4
  exact drive_cons h0 (drive_trans h1 (drive_cons h2 (drive_snoc h3 h4)))

/-- What `SYNC` leaves. -/
def synced (r1 f r2 : List Byte) (l : Byte) (rx : List Byte) (fs : List Bool) (bs : List Byte) (s : State) : State :=
  { s with
    block := { s.block with
      mode := .sync, modeV := true, fb := fbStore s.params f, fbValid := false, len := l, cnt := 0 }
    env := { s.env with fails := fs, bytes := bs }
    hist := History.add
      (discardEvents s.params.skipFill r1 ++ [settleEvent]
        ++ [commandEvent s.params.cmdMode s.params.modeValSync f] ++ [settleEvent]
        ++ discardEvents s.params.skipFill r2 ++ discardEvents s.params.skipFill (l :: rx)) s.hist }

/-- `SYNC` from its first line to its end. -/
theorem sync_run (rest : List Position) (r1 f r2 rx : List Byte) (l : Byte) (fs : List Bool) (bs : List Byte)
    (s : State) (h1 : r1.length = 256) (h2 : f.length = 256) (h3 : r2.length = 256) (h4 : rx.length = l.toNat)
    (hfails : s.env.fails = List.replicate (514 + l.toNat) false ++ fs)
    (hbytes : s.env.bytes = r1 ++ (f ++ (r2 ++ l :: (rx ++ bs)))) :
    drive (537 + l.toNat) (setSeq (⟨.sync, 0⟩ :: rest) s) =
      setSeq (⟨.sync, 3⟩ :: rest) (synced r1 f r2 l rx fs bs s) := by
  let fs1 := List.replicate (256 + (l.toNat + 1)) false ++ fs
  let fs2 := List.replicate (l.toNat + 1) false ++ fs
  have hsplit1 : s.env.fails = List.replicate 257 false ++ fs1 := by
    rw [hfails, show 514 + l.toNat = 257 + (256 + (l.toNat + 1)) by omega, List.replicate_add, List.append_assoc]
  have hsplit2 : fs1 = List.replicate 256 false ++ fs2 := by
    simp only [fs1, fs2]
    rw [List.replicate_add, List.append_assoc]
  have ha := call_run .sync (.setmode .sync) 0 270 6 rest (fun _ _ => .setmode .sync) s _ rfl (fun _ => rfl)
    (setmode_run .sync (⟨.sync, 0⟩ :: rest) r1 f fs1 (r2 ++ l :: (rx ++ bs)) s h1 h2 hsplit1 hbytes) rfl
  let s1 := modeSet .sync r1 f fs1 (r2 ++ l :: (rx ++ bs)) s
  have hb := call_flush_run .sync 1 rest r2 fs2 (l :: (rx ++ bs)) s1 rfl h3 hsplit2 rfl
  let s2 := discarded r2 fs2 (l :: (rx ++ bs)) s1
  have hc := call_run .sync .skipv 2 (l.toNat + 3) 3 rest (fun _ _ => .skipv) s2 _ rfl (fun _ => rfl)
    (skipv_run l (⟨.sync, 2⟩ :: rest) rx fs bs s2 h4 rfl rfl) rfl
  have hfin : skippedVariable l rx fs bs s2 = synced r1 f r2 l rx fs bs s := by
    simp [s2, s1, skippedVariable, discarded, modeSet, synced, History.add, modeVal]
  rw [hfin] at hc
  have hall := drive_trans ha (drive_trans hb hc)
  rw [show 537 + l.toNat = 1 + (270 + 1) + (260 + (1 + (l.toNat + 3 + 1))) by omega]
  exact hall

/-- What `CONFIG d, r` leaves. -/
def configured (d : Dist) (r : Rate) (r1 f1 f2 r2 f3 r3 : List Byte) (fs : List Bool) (bs : List Byte)
    (s : State) : State :=
  { s with
    block := { s.block with
      dist := d, rate := r, cfgV := true, mode := .normal, modeV := true
      fb := fbStore s.params f3, fbValid := false, cnt := 0 }
    env := { s.env with fails := fs, bytes := bs }
    hist := History.add
      (discardEvents s.params.skipFill r1 ++ [settleEvent]
        ++ [commandEvent s.params.cmdMode s.params.modeValNormal f1] ++ [settleEvent]
        ++ [commandEvent s.params.cmdDistance (distVal s.params d) f2] ++ [settleEvent]
        ++ discardEvents s.params.skipFill r2
        ++ [commandEvent (rateCmd s.params r) s.params.rateArg f3] ++ [settleEvent]
        ++ discardEvents s.params.skipFill r3) s.hist }

/-- `CONFIG d, r` from its first line to its end. -/
theorem config_run (d : Dist) (r : Rate) (rest : List Position) (r1 f1 f2 r2 f3 r3 : List Byte) (fs : List Bool)
    (bs : List Byte) (s : State) (h1 : r1.length = 256) (h2 : f1.length = 256) (h3 : f2.length = 256)
    (h4 : r2.length = 256) (h5 : f3.length = 256) (h6 : r3.length = 256)
    (hfails : s.env.fails = List.replicate 771 false ++ fs)
    (hbytes : s.env.bytes = r1 ++ (f1 ++ (f2 ++ (r2 ++ (f3 ++ (r3 ++ bs)))))) :
    drive 809 (setSeq (⟨.config d r, 0⟩ :: rest) s) =
      setSeq (⟨.config d r, 10⟩ :: rest) (configured d r r1 f1 f2 r2 f3 r3 fs bs s) := by
  let op := Instr.config d r
  let g1 := List.replicate 514 false ++ fs
  let g2 := List.replicate 513 false ++ fs
  let g3 := List.replicate 257 false ++ fs
  let g4 := List.replicate 256 false ++ fs
  have e0 : s.env.fails = List.replicate 257 false ++ g1 := by
    rw [hfails, show (771 : Nat) = 257 + 514 from rfl, List.replicate_add, List.append_assoc]
  have e1 : g1 = false :: g2 := rfl
  have e2 : g2 = List.replicate 256 false ++ g3 := by
    simp only [g2, g3]
    rw [show (513 : Nat) = 256 + 257 from rfl, List.replicate_add, List.append_assoc]
  have e3 : g3 = false :: g4 := rfl
  have ha := tick_assign op 0 rest (fun _ b => { b with dist := d, rate := r, cfgV := true }) s rfl (fun _ => rfl)
  let s0 := updated (fun _ b => { b with dist := d, rate := r, cfgV := true }) s
  let b1 := f2 ++ (r2 ++ (f3 ++ (r3 ++ bs)))
  have hb := call_run op (.setmode .normal) 1 270 6 rest (fun _ _ => .setmode .normal) s0 _ rfl (fun _ => rfl)
    (setmode_run .normal (⟨op, 1⟩ :: rest) r1 f1 g1 b1 s0 h1 h2 e0 hbytes) rfl
  let s1 := modeSet .normal r1 f1 g1 b1 s0
  have hc := sendCmd_run op 2 rest s.params.cmdDistance (distVal s.params d)
    (fun p _ => .enc p.cmdDistance (distVal p d)) f2 g2 (r2 ++ (f3 ++ (r3 ++ bs))) s1 rfl rfl (fun _ => rfl) h3 e1 rfl
  let s2 := commanded s.params.cmdDistance (distVal s.params d) f2 g2 (r2 ++ (f3 ++ (r3 ++ bs))) s1
  have hd := tick_delay op 4 rest s2 rfl
  have he := call_flush_run op 5 rest r2 g3 (f3 ++ (r3 ++ bs)) (settled s2) rfl h4 e2 rfl
  let s3 := discarded r2 g3 (f3 ++ (r3 ++ bs)) (settled s2)
  have hf := sendCmd_run op 6 rest (rateCmd s.params r) s.params.rateArg
    (fun p _ => .enc (rateCmd p r) p.rateArg) f3 g4 (r3 ++ bs) s3 rfl rfl (fun _ => rfl) h5 e3 rfl
  let s4 := commanded (rateCmd s.params r) s.params.rateArg f3 g4 (r3 ++ bs) s3
  have hg := tick_delay op 8 rest s4 rfl
  have hh := call_flush_run op 9 rest r3 fs bs (settled s4) rfl h6 rfl rfl
  have hfin : discarded r3 fs bs (settled s4) = configured d r r1 f1 f2 r2 f3 r3 fs bs s := by
    simp [s4, s3, s2, s1, s0, settled, commanded, discarded, updated, modeSet, configured, History.add, emit, setBlock,
      receiveFrame, modeVal]
  rw [hfin] at hh
  exact drive_cons ha (drive_trans hb (drive_trans hc (drive_cons hd (drive_trans he (drive_trans hf
    (drive_cons hg hh))))))

end Sys2Proof.Machine
end

