-- ==== Sys2Proof/Laws/Acquisition.lean ====
section
/-! SUPPORT. One attempt of the acquisition loop (spec/43 R152), nested or outermost: how validation judges a received
frame, and the run of an attempt that accepts, of one that retries, and of one that recovers. -/

namespace Sys2Proof.Machine

/-! ### How validation judges a stored frame -/

theorem getD_of_length (f : List Byte) (hlen : f.length = 256) (i : Nat) (hi : i < 256) :
    f[i]? = some (f.getD i 0) := by
  rw [List.getD_eq_getElem?_getD, List.getElem?_eq_getElem (by omega)]
  rfl

theorem magicMatches_store (p : Params) (f : List Byte) (hlen : f.length = 256) :
    magicMatches p (fbStore p f) = decide (f[0]? = some 0xE9) := by
  unfold magicMatches
  rw [fbRead_fbStore p f hlen 0 (by omega), getD_of_length f hlen 0 (by omega)]
  simp [Config.rspMagic]

theorem sequenceMatches_store (p : Params) (f : List Byte) (hlen : f.length = 256) :
    sequenceMatches p (fbStore p f) = decide (f[1]? = f[255]?) := by
  unfold sequenceMatches
  rw [fbRead_fbStore p f hlen _ (by simp [Config.offSeqLead]), fbRead_fbStore p f hlen _ (by simp [Config.offSeqTrail]),
    getD_of_length f hlen 1 (by omega), getD_of_length f hlen 255 (by omega)]
  simp [Config.offSeqLead, Config.offSeqTrail]

theorem GoodFrame.matches {f : List Byte} (h : GoodFrame f) (p : Params) :
    magicMatches p (fbStore p f) = true ∧ sequenceMatches p (fbStore p f) = true := by
  rw [magicMatches_store p f h.size, sequenceMatches_store p f h.size]
  exact ⟨decide_eq_true h.magic, decide_eq_true h.sequence⟩

theorem TornFrame.matches {f : List Byte} (h : TornFrame f) (p : Params) :
    magicMatches p (fbStore p f) = true ∧ sequenceMatches p (fbStore p f) = false := by
  rw [magicMatches_store p f h.size, sequenceMatches_store p f h.size]
  exact ⟨decide_eq_true h.magic, decide_eq_false h.sequence⟩

theorem MisalignedFrame.matches {f : List Byte} (h : MisalignedFrame f) (p : Params) :
    magicMatches p (fbStore p f) = false := by
  rw [magicMatches_store p f h.size]
  exact decide_eq_false h.magic

/-! ### Attempts -/

/-- The block and history after a step-1 transfer that received `f` was validated: `ATTEMPTS` counts it. -/
def attempted (f : List Byte) (fs : List Bool) (bs : List Byte) (s : State) : State :=
  { s with
    block := { s.block with
      fb := fbStore s.params f
      magicOk := magicMatches s.params (fbStore s.params f)
      seqOk := sequenceMatches s.params (fbStore s.params f)
      fbValid := magicMatches s.params (fbStore s.params f) && sequenceMatches s.params (fbStore s.params f)
      attempts := satinc s.block.attempts }
    env := { s.env with fails := fs, bytes := bs }
    hist := .busBuf (fbBytes s.params s.block.fb) (some f) :: s.hist }

/-- An attempt from `step1` to the magic test of `step2`, whatever was received. -/
theorem attempt_run (rest : List Position) (f : List Byte) (fs : List Bool) (bs : List Byte) (s : State)
    (hlen : f.length = 256) (hfails : s.env.fails = false :: fs) (hbytes : s.env.bytes = f ++ bs) :
    drive 6 (setSeq (⟨.acq, 1⟩ :: rest) s) = setSeq (⟨.acq, 4⟩ :: rest) (attempted f fs bs s) := by
  have h1 := tick_assign .acq 1 rest (fun _ b => { b with attempts := satinc b.attempts }) s rfl (fun _ => rfl)
  let s1 := updated (fun _ b => { b with attempts := satinc b.attempts }) s
  have h2 := call_run .acq .xfer 2 2 2 rest (fun _ _ => .xfer) s1 _ rfl (fun _ => rfl)
    (xfer_run (⟨.acq, 2⟩ :: rest) f fs bs s1 hlen hfails hbytes) rfl
  have h3 := tick_assign .acq 3 rest validate (exchanged f fs bs s1) rfl (fun _ => rfl)
  exact (drive_cons h1 (drive_snoc h2 h3)).trans rfl

/-- An attempt that accepts: `step4` is reached. -/
theorem accept_run (rest : List Position) (good : List Byte) (fs : List Bool) (bs : List Byte) (s : State)
    (hgood : GoodFrame good) (hfails : s.env.fails = false :: fs) (hbytes : s.env.bytes = good ++ bs) :
    drive 8 (setSeq (⟨.acq, 1⟩ :: rest) s) = setSeq (⟨.acq, 17⟩ :: rest) (attempted good fs bs s) := by
  have hm := hgood.matches s.params
  have h1 := attempt_run rest good fs bs s hgood.size hfails hbytes
  have h2 := tick_test .acq 4 rest (fun _ b => if b.magicOk = false then .next else .goto 12) (attempted good fs bs s) rfl
  have h3 := tick_test .acq 12 rest (fun _ b => if b.seqOk = false then .next else .goto 17) (attempted good fs bs s) rfl
  simp only [attempted, hm.1, hm.2, Bool.true_eq_false, if_false, follow, setSeq_setSeq, Bool.and_true] at h1 h2 h3 ⊢
  exact drive_trans h1 (drive_cons h2 ((drive_one _).trans h3))

/-- A torn attempt with the bound not reached: one log event, and `step1` again (spec/43 R154). -/
theorem retry_run (rest : List Position) (torn : List Byte) (fs : List Bool) (bs : List Byte) (s : State)
    (htorn : TornFrame torn) (hfails : s.env.fails = false :: fs) (hbytes : s.env.bytes = torn ++ bs)
    (hbound : boundReached s.params (attempted torn fs bs s).block = false) :
    drive 12 (setSeq (⟨.acq, 1⟩ :: rest) s) =
      setSeq (⟨.acq, 1⟩ :: rest)
        (logError .sequence (updated (fun _ b => { b with lastErr := .sequence }) (attempted torn fs bs s))) := by
  have hm := htorn.matches s.params
  have h1 := attempt_run rest torn fs bs s htorn.size hfails hbytes
  have h2 := tick_test .acq 4 rest (fun _ b => if b.magicOk = false then .next else .goto 12) (attempted torn fs bs s) rfl
  have h3 := tick_test .acq 12 rest (fun _ b => if b.seqOk = false then .next else .goto 17) (attempted torn fs bs s) rfl
  have hmo : (attempted torn fs bs s).block.magicOk = true := hm.1
  have hso : (attempted torn fs bs s).block.seqOk = false := hm.2
  simp only [hmo, hso, Bool.true_eq_false, if_false, if_true, follow, setSeq_setSeq, advance_setSeq] at h2 h3
  have h4 := tick_assign .acq 13 rest (fun _ b => { b with lastErr := .sequence }) (attempted torn fs bs s) rfl
    (fun _ => rfl)
  let s1 := updated (fun _ b => { b with lastErr := .sequence }) (attempted torn fs bs s)
  have h5 := tick_log .acq 14 rest .sequence s1 rfl
  have h6 := tick_test .acq 15 rest (fun p b => if boundReached p b then .stop .errSequence else .next)
    (logError .sequence s1) rfl
  have hb : boundReached (logError .sequence s1).params
      { (logError .sequence s1).block with seq := ⟨.acq, 15⟩ :: rest } = false := hbound
  simp only [hb, follow, advance_setSeq] at h6
  have h7 := tick_test .acq 16 rest (fun _ _ => .goto 1) (logError .sequence s1) rfl
  simp only [follow, setSeq_setSeq] at h7
  exact drive_trans h1 (drive_cons h2 (drive_cons h3 (drive_cons h4 (drive_cons h5 (drive_cons h6
    ((drive_one _).trans h7))))))

/-- A misaligned attempt up to the test of the bound: one log event of kind 1 (spec/60 R202). -/
theorem misaligned_run (rest : List Position) (bad : List Byte) (fs : List Bool) (bs : List Byte) (s : State)
    (hbad : MisalignedFrame bad) (hfails : s.env.fails = false :: fs) (hbytes : s.env.bytes = bad ++ bs) :
    drive 9 (setSeq (⟨.acq, 1⟩ :: rest) s) =
      setSeq (⟨.acq, 7⟩ :: rest)
        (logError .framing (updated (fun _ b => { b with lastErr := .framing }) (attempted bad fs bs s))) := by
  have hm := hbad.matches s.params
  have h1 := attempt_run rest bad fs bs s hbad.size hfails hbytes
  have h2 := tick_test .acq 4 rest (fun _ b => if b.magicOk = false then .next else .goto 12) (attempted bad fs bs s) rfl
  have hmo : (attempted bad fs bs s).block.magicOk = false := hm
  simp only [hmo, if_true, follow, advance_setSeq] at h2
  have h3 := tick_assign .acq 5 rest (fun _ b => { b with lastErr := .framing }) (attempted bad fs bs s) rfl
    (fun _ => rfl)
  have h4 := tick_log .acq 6 rest .framing (updated (fun _ b => { b with lastErr := .framing }) (attempted bad fs bs s)) rfl
  exact drive_trans h1 (drive_cons h2 (drive_cons h3 ((drive_one _).trans h4)))

/-- The recovery (spec/43 R153), from the test of the bound back to `step1`. -/
theorem recovery_run (rest : List Position) (r1 f1 r2 rx r3 f2 f3 r4 f4 r5 : List Byte) (l : Byte) (fs : List Bool)
    (bs : List Byte) (s : State) (hbound : boundReached s.params s.block = false) (hcfg : s.block.cfgV = true)
    (h1 : r1.length = 256) (h2 : f1.length = 256) (h3 : r2.length = 256) (h4 : rx.length = l.toNat)
    (h5 : r3.length = 256) (h6 : f2.length = 256) (h7 : f3.length = 256) (h8 : r4.length = 256)
    (h9 : f4.length = 256) (h10 : r5.length = 256)
    (hfails : s.env.fails = List.replicate (514 + l.toNat) false ++ (List.replicate 771 false ++ fs))
    (hbytes : s.env.bytes =
      r1 ++ (f1 ++ (r2 ++ l :: (rx ++ (r3 ++ (f2 ++ (f3 ++ (r4 ++ (f4 ++ (r5 ++ bs)))))))))) :
    drive (1353 + l.toNat) (setSeq (⟨.acq, 7⟩ :: rest) s) =
      setSeq (⟨.acq, 1⟩ :: rest)
        (configured s.block.dist s.block.rate r3 f2 f3 r4 f4 r5 fs bs
          (synced r1 f1 r2 l rx (List.replicate 771 false ++ fs)
            (r3 ++ (f2 ++ (f3 ++ (r4 ++ (f4 ++ (r5 ++ bs)))))) s)) := by
  have t1 := tick_test .acq 7 rest (fun p b => if boundReached p b then .stop .errFraming else .next) s rfl
  have hb : boundReached s.params { s.block with seq := ⟨.acq, 7⟩ :: rest } = false := hbound
  simp only [hb, follow, advance_setSeq] at t1
  have t2 := tick_test .acq 8 rest (fun _ b => if b.cfgV = false then .stop .cfgUnset else .next) s rfl
  simp only [hcfg, Bool.true_eq_false, if_false, follow, advance_setSeq] at t2
  let s1 := synced r1 f1 r2 l rx (List.replicate 771 false ++ fs) (r3 ++ (f2 ++ (f3 ++ (r4 ++ (f4 ++ (r5 ++ bs)))))) s
  have t3 := call_run .acq .sync 9 (537 + l.toNat) 3 rest (fun _ _ => .sync) s _ rfl (fun _ => rfl)
    (sync_run (⟨.acq, 9⟩ :: rest) r1 f1 r2 rx l _ _ s h1 h2 h3 h4 hfails hbytes) rfl
  have t4 := call_run .acq (.config s.block.dist s.block.rate) 10 809 10 rest (fun _ b => .config b.dist b.rate) s1 _ rfl
    (fun _ => rfl)
    (config_run s.block.dist s.block.rate (⟨.acq, 10⟩ :: rest) r3 f2 f3 r4 f4 r5 fs bs s1 h5 h6 h7 h8 h9 h10 rfl rfl) rfl
  let s2 := configured s.block.dist s.block.rate r3 f2 f3 r4 f4 r5 fs bs s1
  have t5 := tick_test .acq 11 rest (fun _ _ => .goto 1) s2 rfl
  simp only [follow, setSeq_setSeq] at t5
  rw [show 1353 + l.toNat = 1 + (1 + ((1 + ((537 + l.toNat) + 1)) + ((1 + (809 + 1)) + 1))) by omega]
  exact drive_cons t1 (drive_cons t2 (drive_trans t3 (drive_snoc t4 t5)))

end Sys2Proof.Machine
end

