-- ==== Sys2Proof/Laws/Encoding.lean ====
section
/-! SUPPORT. The opcode rows seen field by field: a word is an operation code and 16 operand bits, and a row selects it by a
test on each (spec/30 R80, R81); and the written form of an operation (spec/30 R89). -/

namespace Sys2Proof

/-- A request word is its operation code and its operand bits (R80). -/
theorem word_eq_fields (w : ReqWord) : w = w.extractLsb' 16 8 ++ w.extractLsb' 0 16 := by
  have h := BitVec.extractLsb'_append_extractLsb'_eq_extractLsb' (x := w) (start₁ := 0) (len₁ := 16) (start₂ := 16)
    (len₂ := 8) rfl
  rw [h]
  exact BitVec.extractLsb'_eq_self.symm

theorem append_eq_iff (a a' : Byte) (n n' : Half) : (a ++ n : ReqWord) = a' ++ n' ↔ a = a' ∧ n = n' := by
  constructor
  · intro h
    have h1 := congrArg (fun w : ReqWord => w.extractLsb' 16 8) h
    have h2 := congrArg (fun w : ReqWord => w.extractLsb' 0 16) h
    rw [BitVec.extractLsb'_append_eq_left, BitVec.extractLsb'_append_eq_left] at h1
    rw [BitVec.extractLsb'_append_eq_right, BitVec.extractLsb'_append_eq_right] at h2
    exact ⟨h1, h2⟩
  · rintro ⟨rfl, rfl⟩
    rfl

/-- A row whose match and mask are given field by field selects a word by a test on each field (R81). -/
theorem rowSelects_fields (k m op : Byte) (k' m' n : Half) :
    rowSelects (k ++ k', m ++ m') (op ++ n) = (decide (op &&& m = k) && decide (n &&& m' = k')) := by
  unfold rowSelects
  rw [show (op ++ n : ReqWord) &&& (m ++ m') = (op &&& m) ++ (n &&& m') from BitVec.and_append]
  simp only [append_eq_iff, Bool.decide_and]

/-- The rows of R81 as an operation code and the operand bits that must be 0. -/
def fieldRows : List (Byte × Half) :=
  [ (0x01, 0x0000), (0x02, 0xFFFF), (0x03, 0x0000), (0x04, 0xFFFF), (0x05, 0xFFFF), (0x06, 0xFFFE), (0x07, 0xFEFE),
    (0x08, 0xFFFF), (0x09, 0xFFFF), (0x0A, 0xFFFF), (0x0B, 0xFFFF), (0x0C, 0xFFFF), (0x0D, 0xFFFF) ]

theorem opcodeRows_fields : opcodeRows = fieldRows.map (fun r => (r.1 ++ 0#16, 0xFF#8 ++ r.2)) := by
  decide

/-- The decoder, field by field: the row whose code is `op` and whose forbidden operand bits are 0 in `n`. -/
theorem decode_fields (op : Byte) (n : Half) :
    decode (op ++ n) =
      (fieldRows.find? (fun r => decide (op = r.1) && decide (n &&& r.2 = 0))).bind
        (fun r => operationOf (op ++ n) (r.1 ++ 0#16, 0xFF#8 ++ r.2)) := by
  have hpred : (fun row => rowSelects row (op ++ n)) ∘ (fun r : Byte × Half => (r.1 ++ 0#16, 0xFF#8 ++ r.2)) =
      fun r => decide (op = r.1) && decide (n &&& r.2 = 0) := by
    funext r
    simp only [Function.comp, rowSelects_fields]
    rw [show op &&& 0xFF#8 = op from BitVec.and_allOnes]
    rfl
  rw [decode, opcodeRows_fields, List.find?_map, hpred]
  cases fieldRows.find? (fun r => decide (op = r.1) && decide (n &&& r.2 = 0)) <;> rfl

/-- The fields of a word with two operand bytes. -/
theorem operandByte_high (op c v : Byte) : (op ++ (c ++ v) : ReqWord).extractLsb' 8 8 = c := by
  rw [BitVec.extractLsb'_append_eq_of_add_le (by omega), BitVec.extractLsb'_append_eq_left]

theorem operandByte_low (op c v : Byte) : (op ++ (c ++ v) : ReqWord).extractLsb' 0 8 = v := by
  rw [BitVec.extractLsb'_append_eq_of_add_le (by omega), BitVec.extractLsb'_append_eq_right]

theorem operandHalf (op : Byte) (n : Half) : (op ++ n : ReqWord).extractLsb' 0 16 = n :=
  BitVec.extractLsb'_append_eq_right

namespace Machine

/-- The written form of an operation names it again (R89). -/
theorem assemble_written (i : Instr) : assemble (mnemonic i) (asmOperands i) = some i := by
  cases i with
  | enc c v =>
    have hc := c.isLt
    have hv := v.isLt
    simp [assemble, mnemonic, asmOperands, show c.toNat ≤ 255 by omega, show v.toNat ≤ 255 by omega]
  | skipn n =>
    have hn := n.isLt
    simp [assemble, mnemonic, asmOperands, show n.toNat ≤ 65535 by omega]
  | setmode m => cases m <;> rfl
  | config d r => cases d <;> cases r <;> rfl
  | xfer => rfl
  | skipv => rfl
  | sync => rfl
  | val => rfl
  | acq => rfl
  | rdr => rfl
  | rdi => rfl
  | rdrg => rfl
  | rdig => rfl

end Machine

end Sys2Proof
end

