-- ==== Sys2Proof/Laws/Frames.lean ====
section
/-! SUPPORT. Everything one step of the engine can do to the block, as one case list (`TickEffect`), so that an invariant or a
frame is proved by its cases and never by unfolding the engine; every response it delivers, and why
(`tick_response`); how a whole request ends (`exec_ends`); and the frame principle that follows. -/

namespace Sys2Proof.Machine

/-- What one step of the engine can make of a block. -/
inductive TickEffect (p : Params) (b : Block) : Block → Prop where
  /-- An idle engine does nothing. -/
  | idle (hseq : b.seq = []) : TickEffect p b b
  /-- An assignment, and the next line. -/
  | assign (top : Position) (rest : List Position) (f : Params → Block → Block) (hseq : b.seq = top :: rest)
      (hline : (linesOf top.op)[top.step]? = some (.assign f)) :
      TickEffect p b { f p b with seq := ⟨top.op, top.step + 1⟩ :: rest }
  /-- A call: the callee is pushed at its first line. -/
  | call (top : Position) (rest : List Position) (f : Params → Block → Instr) (hseq : b.seq = top :: rest)
      (hline : (linesOf top.op)[top.step]? = some (.call f)) :
      TickEffect p b { b with seq := ⟨f p b, 0⟩ :: top :: rest }
  /-- A buffer transfer that succeeds. -/
  | transfer (top : Position) (rest : List Position) (rx : List Byte) (hseq : b.seq = top :: rest)
      (hline : (linesOf top.op)[top.step]? = some .busBuf) (hlen : rx.length = 256) :
      TickEffect p b { receiveFrame p rx b with seq := ⟨top.op, top.step + 1⟩ :: rest }
  /-- A buffer transfer that fails (spec/60 R204): the Frame Buffer holds free bytes. -/
  | bufferError (top : Position) (rest : List Position) (frame : List Byte) (hseq : b.seq = top :: rest)
      (hline : (linesOf top.op)[top.step]? = some .busBuf) :
      TickEffect p b { b with fb := fbStore p frame, fault := true, fbValid := false, seq := [], busy := false }
  /-- A byte transfer that fails (spec/60 R204). -/
  | byteError (top : Position) (rest : List Position) (hseq : b.seq = top :: rest)
      (hline : (linesOf top.op)[top.step]? = some .readLen ∨ (linesOf top.op)[top.step]? = some .discard) :
      TickEffect p b { b with fault := true, fbValid := false, seq := [], busy := false }
  /-- A length byte is received. -/
  | length (top : Position) (rest : List Position) (l : Byte) (hseq : b.seq = top :: rest)
      (hline : (linesOf top.op)[top.step]? = some .readLen) :
      TickEffect p b { b with len := l, seq := ⟨top.op, top.step + 1⟩ :: rest }
  /-- A skip's loop is over. -/
  | loopEnd (top : Position) (rest : List Position) (hseq : b.seq = top :: rest)
      (hline : (linesOf top.op)[top.step]? = some .discard) (hcnt : b.cnt = 0) :
      TickEffect p b { b with seq := ⟨top.op, top.step + 1⟩ :: rest }
  /-- One discard of a skip's loop. -/
  | discard (top : Position) (rest : List Position) (hseq : b.seq = top :: rest)
      (hline : (linesOf top.op)[top.step]? = some .discard) (hcnt : b.cnt ≠ 0) :
      TickEffect p b { b with cnt := b.cnt - 1 }
  /-- A delay or a log event, and the next line. -/
  | event (top : Position) (rest : List Position) (hseq : b.seq = top :: rest)
      (hline : (linesOf top.op)[top.step]? = some .delay ∨ ∃ k, (linesOf top.op)[top.step]? = some (.log k)) :
      TickEffect p b { b with seq := ⟨top.op, top.step + 1⟩ :: rest }
  /-- A test that goes to the next line. -/
  | testNext (top : Position) (rest : List Position) (f : Params → Block → Flow) (hseq : b.seq = top :: rest)
      (hline : (linesOf top.op)[top.step]? = some (.test f)) (hflow : f p b = .next) :
      TickEffect p b { b with seq := ⟨top.op, top.step + 1⟩ :: rest }
  /-- A test that goes elsewhere in the operation. -/
  | testGoto (top : Position) (rest : List Position) (f : Params → Block → Flow) (k : Nat) (hseq : b.seq = top :: rest)
      (hline : (linesOf top.op)[top.step]? = some (.test f)) (hflow : f p b = .goto k) :
      TickEffect p b { b with seq := ⟨top.op, k⟩ :: rest }
  /-- A test that ends the outermost operation with an error. -/
  | testStop (top : Position) (rest : List Position) (f : Params → Block → Flow) (st : Status)
      (hseq : b.seq = top :: rest) (hline : (linesOf top.op)[top.step]? = some (.test f)) (hflow : f p b = .stop st) :
      TickEffect p b { b with seq := [], busy := false }
  /-- A nested operation ends and its caller goes on. -/
  | returned (top caller : Position) (below : List Position) (hseq : b.seq = top :: caller :: below)
      (hline : (linesOf top.op)[top.step]? = none) :
      TickEffect p b { b with seq := ⟨caller.op, caller.step + 1⟩ :: below }
  /-- The outermost operation ends `OK`. -/
  | finish (top : Position) (hseq : b.seq = [top]) (hline : (linesOf top.op)[top.step]? = none) :
      TickEffect p b { b with seq := [], busy := false }

/-- EVERYTHING A STEP OF THE ENGINE CAN DO TO THE BLOCK, and that it leaves the parameters alone. -/
theorem tick_effect (s : State) : TickEffect s.params s.block (tick s).block ∧ (tick s).params = s.params := by
  rcases tick_cases s with ⟨hseq, h⟩ | ⟨top, rest, line, hseq, hline, h⟩ | ⟨top, rest, hseq, hline, h⟩
  · rw [h]
    exact ⟨.idle hseq, rfl⟩
  · rw [h]
    cases line with
    | assign f => exact ⟨.assign top rest f hseq hline, rfl⟩
    | call f => exact ⟨.call top rest f hseq hline, rfl⟩
    | busBuf =>
      rcases busBuf_cases s with ⟨e, hb⟩ | ⟨rx, e, hlen, hb⟩
      · simp only [runLine, transferFrame, hb]
        exact ⟨.bufferError top rest _ hseq hline, rfl⟩
      · simp only [runLine, transferFrame, hb]
        exact ⟨.transfer top rest rx hseq hline hlen, rfl⟩
    | readLen =>
      rcases busByte_cases s.params.skipFill s with ⟨e, hb⟩ | ⟨rx, e, hb⟩
      · simp only [runLine, readLength, hb]
        exact ⟨.byteError top rest hseq (.inl hline), rfl⟩
      · simp only [runLine, readLength, hb]
        exact ⟨.length top rest _ hseq hline, rfl⟩
    | discard =>
      simp only [runLine, discardOne]
      split
      · next hcnt => exact ⟨.loopEnd top rest hseq hline hcnt, rfl⟩
      · next hcnt =>
        rcases busByte_cases s.params.skipFill s with ⟨e, hb⟩ | ⟨rx, e, hb⟩
        · rw [hb]
          exact ⟨.byteError top rest hseq (.inr hline), rfl⟩
        · rw [hb]
          exact ⟨.discard top rest hseq hline hcnt, rfl⟩
    | delay => exact ⟨.event top rest hseq (.inl hline), rfl⟩
    | log kind => exact ⟨.event top rest hseq (.inr ⟨kind, hline⟩), rfl⟩
    | test f =>
      simp only [runLine]
      cases hflow : f s.params s.block with
      | next => exact ⟨.testNext top rest f hseq hline hflow, rfl⟩
      | goto k => exact ⟨.testGoto top rest f k hseq hline hflow, rfl⟩
      | stop st => exact ⟨.testStop top rest f st hseq hline hflow, rfl⟩
  · rw [h]
    cases rest with
    | nil => exact ⟨.finish top hseq hline, rfl⟩
    | cons caller below => exact ⟨.returned top caller below hseq hline, rfl⟩

/-- A run of the engine leaves the parameters alone. -/
theorem drive_params (n : Nat) (s : State) : (drive n s).params = s.params :=
  drive_keeps (fun t => t.params = s.params) (fun t h => (tick_effect t).2.trans h) n s rfl

/-! ### Responses -/

/-- Why the engine's step from `s` ends the operation in progress, and with which status. -/
inductive EndsWith (s : State) : Status → Prop where
  /-- The outermost operation ran off its last line. -/
  | ok (top : Position) (hseq : s.block.seq = [top]) (hline : (linesOf top.op)[top.step]? = none) : EndsWith s .ok
  /-- A transfer failed (spec/60 R204). -/
  | busErr (top : Position) (rest : List Position) (line : Line) (hseq : s.block.seq = top :: rest)
      (hline : (linesOf top.op)[top.step]? = some line) (hbus : line = .busBuf ∨ line = .readLen ∨ line = .discard)
      (hfault : (tick s).block.fault = true) : EndsWith s .busErr
  /-- A test said so. -/
  | stop (top : Position) (rest : List Position) (f : Params → Block → Flow) (st : Status)
      (hseq : s.block.seq = top :: rest) (hline : (linesOf top.op)[top.step]? = some (.test f))
      (hflow : f s.params s.block = .stop st) : EndsWith s st

/-- EVERY RESPONSE OF THE ENGINE: a step either delivers none and leaves the operation in progress, or it ends the operation
for one of three reasons and delivers that status with the `info` of the block it leaves. -/
theorem tick_response (s : State) :
    ((tick s).rsp = s.rsp ∧ ((tick s).block.seq = [] → s.block.seq = [])) ∨
      ((tick s).block.seq = [] ∧ ∃ st, EndsWith s st ∧
        (tick s).rsp = some (responseWord st (currentInfo st { (tick s).block with seq := s.block.seq }))) := by
  rcases tick_cases s with ⟨hseq, h⟩ | ⟨top, rest, line, hseq, hline, h⟩ | ⟨top, rest, hseq, hline, h⟩
  · exact .inl ⟨by rw [h], fun _ => hseq⟩
  · cases line with
    | assign f => exact .inl (by rw [h]; exact ⟨rfl, by simp [runLine, advance]⟩)
    | call f => exact .inl (by rw [h]; exact ⟨rfl, by simp [runLine]⟩)
    | busBuf =>
      rcases busBuf_cases s with ⟨e, hb⟩ | ⟨rx, e, hlen, hb⟩
      · simp only [runLine, transferFrame, hb] at h
        exact .inr ⟨by rw [h]; rfl, .busErr, .busErr top rest _ hseq hline (.inl rfl) (by rw [h]; rfl), by rw [h]; rfl⟩
      · simp only [runLine, transferFrame, hb] at h
        exact .inl (by rw [h]; exact ⟨rfl, by simp [advance]⟩)
    | readLen =>
      rcases busByte_cases s.params.skipFill s with ⟨e, hb⟩ | ⟨rx, e, hb⟩
      · simp only [runLine, readLength, hb] at h
        exact .inr ⟨by rw [h]; rfl, .busErr, .busErr top rest _ hseq hline (.inr (.inl rfl)) (by rw [h]; rfl),
          by rw [h]; rfl⟩
      · simp only [runLine, readLength, hb] at h
        exact .inl (by rw [h]; exact ⟨rfl, by simp [advance]⟩)
    | discard =>
      simp only [runLine, discardOne] at h
      split at h
      · exact .inl (by rw [h]; exact ⟨rfl, by simp [advance]⟩)
      · rcases busByte_cases s.params.skipFill s with ⟨e, hb⟩ | ⟨rx, e, hb⟩
        · simp only [hb] at h
          exact .inr ⟨by rw [h]; rfl, .busErr, .busErr top rest _ hseq hline (.inr (.inr rfl)) (by rw [h]; rfl),
            by rw [h]; rfl⟩
        · simp only [hb] at h
          exact .inl (by rw [h]; exact ⟨rfl, id⟩)
    | delay => exact .inl (by rw [h]; exact ⟨rfl, by simp [runLine, advance]⟩)
    | log kind => exact .inl (by rw [h]; exact ⟨rfl, by simp [runLine, advance]⟩)
    | test f =>
      simp only [runLine] at h
      cases hflow : f s.params s.block with
      | next => exact .inl (by rw [h, hflow]; exact ⟨rfl, by simp [follow, advance]⟩)
      | goto k => exact .inl (by rw [h, hflow]; exact ⟨rfl, by simp [follow]⟩)
      | stop st =>
        rw [hflow] at h
        exact .inr ⟨by rw [h]; rfl, st, .stop top rest f st hseq hline hflow, by rw [h]; rfl⟩
  · cases rest with
    | nil => exact .inr ⟨by rw [h]; rfl, .ok, .ok top hseq hline, by rw [h]; rfl⟩
    | cons caller below => exact .inl (by rw [h]; exact ⟨rfl, by simp [returnFrom, advance]⟩)

/-! ### How a request ends -/

/-- No assignment of any operation writes `FAULT`. -/
theorem assign_fault (op : Instr) (f : Params → Block → Block) (h : .assign f ∈ linesOf op) (p : Params) (b : Block) :
    (f p b).fault = b.fault := by
  cases op <;>
    simp [linesOf, encLines, xferLines, skipnLines, skipvLines, syncLines, setmodeLines, configLines, valLines, acqLines,
      rdrLines, rdiLines, rdrgLines, rdigLines, sendCmd, flushFrame] at h <;>
    first | (subst h; rfl) | (rcases h with rfl | rfl | rfl | rfl | rfl <;> rfl)

/-- The bottom of a stack of two or more positions is that of what lies under the top. -/
theorem getLast_op (top : Position) (q : Position) (rest : List Position) :
    ((top :: q :: rest).getLast?.map Position.op) = (q :: rest).getLast?.map Position.op := by
  simp [List.getLast?_cons]

/-- The bottom's operation does not depend on the step the top stands at. -/
theorem getLast_step (top : Position) (k : Nat) (rest : List Position) :
    ((⟨top.op, k⟩ :: rest : List Position).getLast?.map Position.op) = (top :: rest).getLast?.map Position.op := by
  cases rest <;> simp [List.getLast?_cons]

/-- A step that leaves the operation in progress leaves its outermost operation the same, and no fault appears. -/
theorem TickEffect.goes_on {p : Params} {b b' : Block} (e : TickEffect p b b') (h : b'.seq ≠ []) :
    outermost b' = outermost b ∧ (b.fault = false → b'.fault = false) := by
  unfold outermost
  cases e with
  | idle hseq => exact ⟨rfl, id⟩
  | assign top rest f hseq hline =>
    exact ⟨by rw [hseq]; exact getLast_step _ _ _,
      fun hf => (assign_fault top.op f (List.mem_of_getElem? hline) p b).trans hf⟩
  | call top rest f hseq hline => exact ⟨by rw [hseq]; exact getLast_op _ _ _, id⟩
  | bufferError top rest frame hseq hline => exact absurd rfl h
  | byteError top rest hseq hline => exact absurd rfl h
  | testStop top rest f st hseq hline hflow => exact absurd rfl h
  | finish top hseq hline => exact absurd rfl h
  | discard top rest hseq hline hcnt => exact ⟨rfl, id⟩
  | returned top caller below hseq hline =>
    exact ⟨by rw [hseq]; exact (getLast_step _ _ _).trans (getLast_op _ _ _).symm, id⟩
  | transfer top rest rx hseq hline hlen => exact ⟨by rw [hseq]; exact getLast_step _ _ _, id⟩
  | length top rest l hseq hline => exact ⟨by rw [hseq]; exact getLast_step _ _ _, id⟩
  | loopEnd top rest hseq hline hcnt => exact ⟨by rw [hseq]; exact getLast_step _ _ _, id⟩
  | event top rest hseq hline => exact ⟨by rw [hseq]; exact getLast_step _ _ _, id⟩
  | testNext top rest f hseq hline hflow => exact ⟨by rw [hseq]; exact getLast_step _ _ _, id⟩
  | testGoto top rest f k hseq hline hflow => exact ⟨by rw [hseq]; exact getLast_step _ _ _, id⟩

/-- HOW A REQUEST TO A READY BLOCK ENDS. For any property `C` of the block that holds when the operation is accepted and that
every step which goes on keeps: the operation is still in progress with `C`, or its last step was taken from a state `u` with
`C`, for a reason that `EndsWith` gives, and the response is that status with the operation's `info`. -/
theorem exec_ends (i : Instr) (s t : State) (C : Block → Prop) (hready : Ready s) (hexec : exec i s = .next t)
    (hinit : C { s.block with busy := true, seq := [⟨i, 0⟩] })
    (hstep : ∀ b b', C b → TickEffect s.params b b' → b'.seq ≠ [] → C b') :
    (t.rsp = none ∧ t.block.fault = false ∧ t.block.seq ≠ [] ∧ C t.block) ∨
      ∃ u st, C u.block ∧ u.params = s.params ∧ outermost u.block = some i ∧ u.block.fault = false ∧
        TickEffect s.params u.block t.block ∧ t.block.seq = [] ∧ t = tick u ∧ EndsWith u st ∧
        t.rsp = some (responseWord st (responseInfo i st t.block)) := by
  have ht : t = drive runBound (accept i s) := by
    rw [exec_eq_operate, operate_ready i s hready] at hexec
    exact (Host.Outcome.next.inj hexec).symm
  let going (v : State) : Prop :=
    v.rsp = none ∧ v.block.fault = false ∧ v.block.seq ≠ [] ∧ C v.block ∧ outermost v.block = some i
  let ended (v : State) : Prop :=
    ∃ u st, C u.block ∧ u.params = s.params ∧ outermost u.block = some i ∧ u.block.fault = false ∧
      TickEffect s.params u.block v.block ∧ v.block.seq = [] ∧ v = tick u ∧ EndsWith u st ∧
      v.rsp = some (responseWord st (responseInfo i st v.block))
  have hkeep : ∀ v : State, v.params = s.params ∧ (going v ∨ ended v) →
      (tick v).params = s.params ∧ (going (tick v) ∨ ended (tick v)) := by
    rintro v ⟨hp, hv⟩
    refine ⟨(tick_effect v).2.trans hp, ?_⟩
    rcases hv with ⟨hrsp, hfault, hbusy, hC, hout⟩ | hv
    · have he := (tick_effect v).1
      rw [hp] at he
      rcases tick_response v with ⟨hr, hseq⟩ | ⟨hseq, st, hst, hr⟩
      · have hne : (tick v).block.seq ≠ [] := fun h => hbusy (hseq h)
        have hon := he.goes_on hne
        exact .inl ⟨hr.trans hrsp, hon.2 hfault, hne, hstep _ _ hC he hne, hon.1.trans hout⟩
      · refine .inr ⟨v, st, hC, hp, hout, hfault, he, hseq, rfl, hst, ?_⟩
        have hbottom : outermost { (tick v).block with seq := v.block.seq } = some i := hout
        rw [hr]
        unfold currentInfo
        rw [hbottom]
        cases i <;> rfl
    · have hidle : tick v = v := by
        obtain ⟨_, _, _, _, _, _, _, hseq, _⟩ := hv
        exact tick_idle v hseq
      rw [hidle]
      exact .inr hv
  rw [ht]
  exact (drive_keeps _ hkeep runBound (accept i s)
    ⟨rfl, .inl ⟨rfl, hready.noFault, by simp [accept], hinit, rfl⟩⟩).2.imp
    (fun h => ⟨h.1, h.2.1, h.2.2.1, h.2.2.2.1⟩) id

/-! ### The frame principle -/

/-- What must hold of a part `g` of the block, and of a set `Q` of operations closed under calling, so that the engine never
changes `g` while it runs operations of `Q`. -/
structure Untouched {α : Type} (Q : Instr → Prop) (g : Block → α) : Prop where
  /-- The sequencer and the busy flag are no part of `g`. -/
  position : ∀ b q busy, g { b with seq := q, busy := busy } = g b
  /-- The flags a bus error writes are no part of `g`. -/
  error : ∀ b, g { b with fault := true, fbValid := false } = g b
  /-- An operation of `Q` calls operations of `Q` only. -/
  closed : ∀ op f p b, Q op → .call f ∈ linesOf op → Q (f p b)
  /-- The assignments of the operations of `Q` leave `g` alone. -/
  assign : ∀ op f p b, Q op → .assign f ∈ linesOf op → g (f p b) = g b
  /-- If an operation of `Q` transfers a frame, `g` holds nothing of the Frame Buffer and of `FBVALID`. -/
  transfer : ∀ op, Q op → .busBuf ∈ linesOf op → ∀ b fb, g { b with fb := fb, fbValid := false } = g b
  /-- If an operation of `Q` reads a length byte, `g` does not hold `LEN`. -/
  length : ∀ op, Q op → .readLen ∈ linesOf op → ∀ b l, g { b with len := l } = g b
  /-- If an operation of `Q` discards, `g` does not hold `CNT`. -/
  discard : ∀ op, Q op → .discard ∈ linesOf op → ∀ b c, g { b with cnt := c } = g b

/-- One step: what is untouched is the same, and the stack still holds operations of `Q`. -/
theorem Untouched.tick {α : Type} {Q : Instr → Prop} {g : Block → α} (h : Untouched Q g) (s : State)
    (hq : ∀ pos ∈ s.block.seq, Q pos.op) :
    g (tick s).block = g s.block ∧ ∀ pos ∈ (Machine.tick s).block.seq, Q pos.op := by
  have hpos : ∀ b q, g { b with seq := q } = g b := fun b q => h.position b q b.busy
  have heff := (tick_effect s).1
  revert heff
  generalize (Machine.tick s).block = b'
  intro heff
  cases heff with
  | idle hseq => exact ⟨rfl, hq⟩
  | assign top rest f hseq hline =>
    rw [hseq] at hq
    have htop : Q top.op := hq top (by simp)
    refine ⟨by rw [hpos]; exact h.assign _ f _ _ htop (List.mem_of_getElem? hline), ?_⟩
    intro pos hm
    rcases List.mem_cons.mp hm with rfl | hm
    · exact htop
    · exact hq pos (List.mem_cons_of_mem _ hm)
  | call top rest f hseq hline =>
    rw [hseq] at hq
    refine ⟨hpos _ _, ?_⟩
    intro pos hm
    rcases List.mem_cons.mp hm with rfl | hm
    · exact h.closed _ f _ _ (hq top (by simp)) (List.mem_of_getElem? hline)
    · exact hq pos hm
  | transfer top rest rx hseq hline hlen =>
    rw [hseq] at hq
    have htop : Q top.op := hq top (by simp)
    refine ⟨by rw [hpos]; exact h.transfer _ htop (List.mem_of_getElem? hline) _ _, ?_⟩
    intro pos hm
    rcases List.mem_cons.mp hm with rfl | hm
    · exact htop
    · exact hq pos (List.mem_cons_of_mem _ hm)
  | bufferError top rest frame hseq hline =>
    rw [hseq] at hq
    refine ⟨?_, by simp⟩
    have h1 := h.transfer _ (hq top (by simp)) (List.mem_of_getElem? hline) s.block (fbStore s.params frame)
    have h2 := h.error { s.block with fb := fbStore s.params frame, fbValid := false }
    have h3 := h.position { s.block with fb := fbStore s.params frame, fault := true, fbValid := false } [] false
    exact h3.trans (h2.trans h1)
  | byteError top rest hseq hline =>
    exact ⟨(h.position { s.block with fault := true, fbValid := false } [] false).trans (h.error _), by simp⟩
  | length top rest l hseq hline =>
    rw [hseq] at hq
    have htop : Q top.op := hq top (by simp)
    refine ⟨(hpos { s.block with len := l } _).trans (h.length _ htop (List.mem_of_getElem? hline) _ _), ?_⟩
    intro pos hm
    rcases List.mem_cons.mp hm with rfl | hm
    · exact htop
    · exact hq pos (List.mem_cons_of_mem _ hm)
  | discard top rest hseq hline hcnt =>
    exact ⟨h.discard _ (hq top (by simp [hseq])) (List.mem_of_getElem? hline) _ _, hq⟩
  | testStop top rest f st hseq hline hflow => exact ⟨h.position _ _ _, by simp⟩
  | finish top hseq hline => exact ⟨h.position _ _ _, by simp⟩
  | returned top caller below hseq hline =>
    rw [hseq] at hq
    refine ⟨hpos _ _, ?_⟩
    intro pos hm
    rcases List.mem_cons.mp hm with rfl | hm
    · exact hq caller (by simp)
    · exact hq pos (List.mem_cons_of_mem _ (List.mem_cons_of_mem _ hm))
  | loopEnd top rest hseq hline hcnt =>
    rw [hseq] at hq
    refine ⟨hpos _ _, ?_⟩
    intro pos hm
    rcases List.mem_cons.mp hm with rfl | hm
    · exact hq top (by simp)
    · exact hq pos (List.mem_cons_of_mem _ hm)
  | event top rest hseq hline =>
    rw [hseq] at hq
    refine ⟨hpos _ _, ?_⟩
    intro pos hm
    rcases List.mem_cons.mp hm with rfl | hm
    · exact hq top (by simp)
    · exact hq pos (List.mem_cons_of_mem _ hm)
  | testNext top rest f hseq hline hflow =>
    rw [hseq] at hq
    refine ⟨hpos _ _, ?_⟩
    intro pos hm
    rcases List.mem_cons.mp hm with rfl | hm
    · exact hq top (by simp)
    · exact hq pos (List.mem_cons_of_mem _ hm)
  | testGoto top rest f k hseq hline hflow =>
    rw [hseq] at hq
    refine ⟨hpos _ _, ?_⟩
    intro pos hm
    rcases List.mem_cons.mp hm with rfl | hm
    · exact hq top (by simp)
    · exact hq pos (List.mem_cons_of_mem _ hm)

/-- A whole request: an operation of `Q` leaves `g` alone, however it ends and also where it waits or is turned away. -/
theorem Untouched.operate {α : Type} {Q : Instr → Prop} {g : Block → α} (h : Untouched Q g) (i : Instr) (s : State)
    (hi : Q i) : g (operate i s).block = g s.block := by
  unfold Machine.operate
  split
  · rfl
  · split
    · rfl
    · have hrun := drive_keeps (fun t => g t.block = g s.block ∧ ∀ pos ∈ t.block.seq, Q pos.op)
        (fun t ht => ⟨(h.tick t ht.2).1.trans ht.1, (h.tick t ht.2).2⟩) runBound (accept i s)
        ⟨h.position s.block [⟨i, 0⟩] true, by simpa using hi⟩
      exact hrun.1

end Sys2Proof.Machine
end

