-- ==== Sys2Proof/Laws/PerInstr.lean ====
section
/-! SUPPORT. The statements made per instruction. `LegalWord`: the word of an operation is one of those none of the four
conditions of spec/30_encoding.md R83 calls illegal. -/

namespace Sys2Proof.Laws

/-- The word of an operation is legal (R83). -/
def LegalWord.Statement (i : Instr) : Prop := Request.legal (encode i) = true

/-- The operation code of an encoded operation is its code in R81. -/
theorem op_encode (i : Instr) : Request.op (encode i) = opcode i :=
  BitVec.extractLsb'_append_eq_left

/-- An operation whose code takes any operands has a legal word whatever they are (R82, R83). -/
theorem legal_of_anyOperands (i : Instr) (h : opcode i = 0x01 ∨ opcode i = 0x03) : LegalWord.Statement i := by
  have hop := op_encode i
  unfold LegalWord.Statement Request.legal Request.illegal Request.unassignedOp Request.strayOperand Request.takesNoOperand
    Request.badSetmode Request.badConfig
  rw [hop]
  rcases h with h | h <;> simp [h]

theorem LegalWord.enc (c v : Byte) : LegalWord.Statement (.enc c v) := legal_of_anyOperands _ (.inl rfl)
theorem LegalWord.xfer : LegalWord.Statement .xfer := by unfold Statement; decide
theorem LegalWord.skipn (n : Half) : LegalWord.Statement (.skipn n) := legal_of_anyOperands _ (.inr rfl)
theorem LegalWord.skipv : LegalWord.Statement .skipv := by unfold Statement; decide
theorem LegalWord.sync : LegalWord.Statement .sync := by unfold Statement; decide
theorem LegalWord.setmode (m : Mode) : LegalWord.Statement (.setmode m) := by unfold Statement; cases m <;> decide
theorem LegalWord.config (d : Dist) (r : Rate) : LegalWord.Statement (.config d r) := by
  unfold Statement
  cases d <;> cases r <;> decide
theorem LegalWord.val : LegalWord.Statement .val := by unfold Statement; decide
theorem LegalWord.acq : LegalWord.Statement .acq := by unfold Statement; decide
theorem LegalWord.rdr : LegalWord.Statement .rdr := by unfold Statement; decide
theorem LegalWord.rdi : LegalWord.Statement .rdi := by unfold Statement; decide
theorem LegalWord.rdrg : LegalWord.Statement .rdrg := by unfold Statement; decide
theorem LegalWord.rdig : LegalWord.Statement .rdig := by unfold Statement; decide

end Sys2Proof.Laws
end

