-- ==== Sys2Proof/Tests/Slice0.lean ====
section
/-! SUPPORT. Tests with expected results from spec/95_test_vectors.md, under its test instantiation of the open parameters,
and for each statement with hypotheses a witness that meets them. -/

namespace Sys2Proof.Machine.Tests

/-! ### Helpers -/

/-- The test instantiation of spec/95, with a `MAX_ATTEMPTS`. -/
def testParams (maxAttempts : Half) : Params where
  cmdMode := 0xA0
  modeValSync := 0xA1
  modeValNormal := 0xA2
  cmdDistance := 0xB0
  distValShort := 0xB1
  distValLong := 0xB2
  rateCmdLow := 0xC1
  rateCmdHigh := 0xC2
  rateArg := 0x00
  skipFill := 0x00
  maxAttempts := maxAttempts
  busMode := 0
  fbReset := Vector.replicate 256 0x55

/-- A block just reset, with a `MAX_ATTEMPTS` and the answers the bus will give. -/
def bounded (n : Half) (fails : List Bool) (bytes : List Byte) : State :=
  { State.reset with params := testParams n, env := { host := [], fails := fails, bytes := bytes, drawn := 0 } }

/-- A block just reset whose retry is unbounded. -/
def start (fails : List Bool) (bytes : List Byte) : State := bounded 0 fails bytes

/-- A block on which `CONFIG LONG, HIGH` was done. -/
def configuredBlock (fails : List Bool) (bytes : List Byte) : State :=
  let s := start fails bytes
  { s with block := { s.block with dist := .long, rate := .high, cfgV := true, mode := .normal, modeV := true } }

/-- A state with something presented by the host. -/
def hosted (s : State) (host : List HostAct) : State := { s with env := { s.env with host := host } }

/-- A state whose engine stands at the first step of `XFER`. -/
def busyState (host : List HostAct) : State :=
  let s := hosted (start [false] []) host
  { s with block := { s.block with busy := true, seq := [⟨.xfer, 0⟩] } }

/-- A state after a bus fault. -/
def faultedState (host : List HostAct) : State :=
  let s := hosted (start [] []) host
  { s with block := { s.block with fault := true } }

/-- What a test asks of the state after a step; a stop fails it. -/
def after (o : Host.Outcome State Fault Refusal) (ask : State → Bool) : Bool :=
  match o with
  | .next t => ask t
  | .fault _ => false
  | .refused _ => false

/-- 256 equal bytes. -/
def junk (b : Byte) : List Byte := List.replicate 256 b

/-- A response frame `[magic lead payload 00 .. trail]`. -/
def frame (magic lead trail : Byte) (payload : List Byte) : List Byte :=
  [magic, lead] ++ payload ++ List.replicate (253 - payload.length) 0 ++ [trail]

/-- How many events of a history are single-byte transfers. -/
def byteTransfers (h : List Event) : Nat := h.countP (fun e => match e with | .busByte _ _ => true | _ => false)

/-! ### WellFormed: a word for each of R83's conditions, which the check and the decoder refuse (spec/95 section 2.10) -/

theorem test_illegal_op_00 : Request.unassignedOp 0x000000 = true ∧ decode 0x000000 = none := by decide
theorem test_illegal_op_0E : Request.unassignedOp 0x0E0000 = true ∧ decode 0x0E0000 = none := by decide
theorem test_illegal_op_FF : Request.unassignedOp 0xFF0000 = true ∧ decode 0xFF0000 = none := by decide
theorem test_illegal_stray_b : Request.strayOperand 0x020001 = true ∧ decode 0x020001 = none := by decide
theorem test_illegal_stray_a : Request.strayOperand 0x040100 = true ∧ decode 0x040100 = none := by decide
theorem test_illegal_stray_val : Request.strayOperand 0x08FFFF = true ∧ decode 0x08FFFF = none := by decide
theorem test_illegal_stray_rdig : Request.strayOperand 0x0D0001 = true ∧ decode 0x0D0001 = none := by decide
theorem test_illegal_setmode_b : Request.badSetmode 0x060002 = true ∧ decode 0x060002 = none := by decide
theorem test_illegal_setmode_a : Request.badSetmode 0x060100 = true ∧ decode 0x060100 = none := by decide
theorem test_illegal_config_a : Request.badConfig 0x070200 = true ∧ decode 0x070200 = none := by decide
theorem test_illegal_config_b : Request.badConfig 0x070002 = true ∧ decode 0x070002 = none := by decide
theorem test_legal_neighbours :
    [0x010000, 0x01FFFF, 0x030000, 0x03FFFF, 0x060000, 0x060001, 0x070000, 0x070001, 0x070100, 0x070101].all Request.legal
      = true := by decide

/-! ### Decode: every operation from its word, written out bit by bit from spec/30 R80 to R82 -/

theorem test_decode_enc : decode 0b000000010001001000110100 = some (.enc 0x12 0x34) := by decide
theorem test_decode_xfer : decode 0b000000100000000000000000 = some .xfer := by decide
theorem test_decode_skipn : decode 0b000000111111111111111110 = some (.skipn 65534) := by decide
theorem test_decode_skipv : decode 0b000001000000000000000000 = some .skipv := by decide
theorem test_decode_sync : decode 0b000001010000000000000000 = some .sync := by decide
theorem test_decode_setmode_sync : decode 0b000001100000000000000000 = some (.setmode .sync) := by decide
theorem test_decode_setmode_normal : decode 0b000001100000000000000001 = some (.setmode .normal) := by decide
theorem test_decode_config_long_low : decode 0b000001110000000100000000 = some (.config .long .low) := by decide
theorem test_decode_config_short_high : decode 0b000001110000000000000001 = some (.config .short .high) := by decide
theorem test_decode_val : decode 0b000010000000000000000000 = some .val := by decide
theorem test_decode_acq : decode 0b000010010000000000000000 = some .acq := by decide
theorem test_decode_rdr : decode 0b000010100000000000000000 = some .rdr := by decide
theorem test_decode_rdi : decode 0b000010110000000000000000 = some .rdi := by decide
theorem test_decode_rdrg : decode 0b000011000000000000000000 = some .rdrg := by decide
theorem test_decode_rdig : decode 0b000011010000000000000000 = some .rdig := by decide
theorem test_table_word : decodeTableWord 24 0x070101 = some (.config .long .high) := by decide

/-! ### One step per instruction -/

/-- E1. -/
theorem test_enc_writes_frame :
    after (exec (.enc 0x12 0x34) (start [] [])) (fun t => t.rsp = some 0x00000 ∧
      (fbBytes t.params t.block.fb).take 6 = [0xEB, 0x12, 0x01, 0x34, 0xED, 0x00] ∧
      fbRead t.params t.block.fb 255 = 0x00) = true := by decide +kernel

/-- E4: no escaping. -/
theorem test_enc_does_not_escape :
    after (exec (.enc 0xEB 0xED) (start [] [])) (fun t =>
      (fbBytes t.params t.block.fb).take 6 = [0xEB, 0xEB, 0x01, 0xED, 0xED, 0x00]) = true := by decide +kernel

/-- X2: `FBVALID` stays 0. -/
theorem test_xfer_exchanges :
    after (exec .xfer (start [false] (frame 0xE9 7 7 []))) (fun t => t.rsp = some 0x00000 ∧
      t.hist.getD 1 .reset = .busBuf (junk 0x55) (some (frame 0xE9 7 7 [])) ∧
      fbBytes t.params t.block.fb = frame 0xE9 7 7 [] ∧ statusWord t.block = 0x00) = true := by decide +kernel

/-- X3. -/
theorem test_xfer_bus_error :
    after (exec .xfer (start [true] [])) (fun t => t.rsp = some 0x50000 ∧ t.block.fault = true) = true := by
  decide +kernel

/-- K1. -/
theorem test_skipn_zero :
    after (exec (.skipn 0) (start [true] [])) (fun t => t.rsp = some 0x00000 ∧ byteTransfers t.hist = 0) = true := by
  decide +kernel

/-- K5. -/
theorem test_skipn_bus_error :
    after (exec (.skipn 5) (start [false, false, true] [1, 2])) (fun t => t.rsp = some 0x50000 ∧ t.block.cnt = 3 ∧
      statusWord t.block = 0x02 ∧ byteTransfers t.hist = 3) = true := by decide +kernel

/-- Y1. -/
theorem test_skipv_zero :
    after (exec .skipv (start [false, true] [0])) (fun t => t.rsp = some 0x00000 ∧ t.block.len = 0) = true := by
  decide +kernel

/-- Y2. -/
theorem test_skipv_two :
    after (exec .skipv (start [false, false, false, true] [2, 0x77, 0x77])) (fun t => t.rsp = some 0x00002 ∧
      t.block.len = 2 ∧ t.block.cnt = 0 ∧ byteTransfers t.hist = 3) = true := by decide +kernel

/-- Y3. -/
theorem test_sync :
    after (exec .sync (start (List.replicate 519 false) (junk 0 ++ junk 0x11 ++ junk 0 ++ 5 :: List.replicate 5 0)))
      (fun t => t.rsp = some 0x00000 ∧ t.block.len = 5 ∧ byteTransfers t.hist = 518 ∧
        statusWord t.block = 0x40 ∧ fbBytes t.params t.block.fb = junk 0x11 ∧
        commandEvent 0xA0 0xA1 (junk 0x11) ∈ t.hist) = true := by decide +kernel

/-- M2. -/
theorem test_setmode_normal :
    after (exec (.setmode .normal) (start (List.replicate 257 false) (junk 0 ++ junk 0x11)))
      (fun t => t.rsp = some 0x00000 ∧ t.block.mode = .normal ∧ t.block.modeV = true ∧
        (t.hist.take 4).reverse = [.delay 500, commandEvent 0xA0 0xA2 (junk 0x11), .delay 500, .response 0])
      = true := by decide +kernel

/-- G2. -/
theorem test_config_long_high :
    after (exec (.config .long .high) (start (List.replicate 771 false) (List.replicate 1536 0x11)))
      (fun t => t.rsp = some 0x00000 ∧ statusWord t.block = 0x60 ∧ readPort 0x01 t = some 7 ∧
        byteTransfers t.hist = 768 ∧ commandEvent 0xB0 0xB2 (junk 0x11) ∈ t.hist ∧
        commandEvent 0xC2 0x00 (junk 0x11) ∈ t.hist) = true := by decide +kernel

/-- G5: the second buffer transfer fails. -/
theorem test_config_bus_error :
    after (exec (.config .long .high) (start (List.replicate 257 false ++ [true]) (List.replicate 512 0x11)))
      (fun t => t.rsp = some 0x50000 ∧ statusWord t.block = 0x62) = true := by decide +kernel

/-- V8: the class of 256 x 55 after reset. -/
theorem test_val_after_reset :
    after (exec .val (start [] [])) (fun t => t.rsp = some 0x00001 ∧ statusWord t.block = 0x10) = true := by
  decide +kernel

/-- V4. -/
theorem test_val_torn :
    let s := start [] []
    after (exec .val { s with block := { s.block with fb := fbStore s.params (frame 0xE9 0x5A 0x5B []) } })
      (fun t => t.rsp = some 0x00002 ∧ statusWord t.block = 0x08) = true := by decide +kernel

/-- A2. -/
theorem test_acq_retries :
    after (exec .acq (configuredBlock [false, false] (frame 0xE9 0x30 0x31 [] ++ frame 0xE9 0x32 0x32 [])))
      (fun t => t.rsp = some 0x00002 ∧ statusWord t.block = 0x7C ∧ t.block.lastErr = .sequence ∧
        t.hist.getD 2 .reset = .log 2 1) = true := by decide +kernel

/-- A4. -/
theorem test_acq_unconfigured :
    after (exec .acq (start [false] (frame 0xE8 7 7 []))) (fun t => t.rsp = some 0x40001 ∧
      statusWord t.block = 0x10 ∧ t.block.lastErr = .framing) = true := by decide +kernel

/-- D1. -/
theorem test_rdr :
    after (exec .rdr (configuredBlock [false] (frame 0xE9 7 7 [0, 0, 0x0A, 0x8C, 0, 0])))
      (fun t => t.rsp = some 0x00001 ∧ t.block.rngRaw = 0x0A8C0000 ∧ readPort 0x13 t = some 4218750111744 ∧
        resvalidWord t.block = 0x01) = true := by decide +kernel

/-- As A6, by a read operation: no result is written. -/
theorem test_rdr_torn :
    after (exec .rdr (bounded 1 [false] (frame 0xE9 1 2 [0, 0, 1, 1, 1, 1])))
      (fun t => t.rsp = some 0x30001 ∧ statusWord t.block = 0x08 ∧ t.block.rvR = false ∧ t.block.rngRaw = 0)
      = true := by decide +kernel

/-- D2. -/
theorem test_rdi :
    after (exec .rdi (configuredBlock [false] (frame 0xE9 7 7 [0, 0, 0, 0, 0, 0, 0x00, 0x30])))
      (fun t => t.rsp = some 0x00001 ∧ t.block.intRaw = 0x0030 ∧ readPort 0x15 t = some 3 ∧
        resvalidWord t.block = 0x02) = true := by decide +kernel

/-- D3. -/
theorem test_rdrg :
    after (exec .rdrg (configuredBlock [false] (frame 0xE9 7 7
        (List.replicate 8 0 ++ [0x00, 0x40, 0x00, 0x00, 0x12, 0x34, 0x56, 0x78] ++ List.replicate 116 0
          ++ [0x00, 0xC0, 0x00, 0x00]))))
      (fun t => t.rsp = some 0x00001 ∧ readPort 0x40 t = some 100000000000 ∧ readPort 0x41 t = some 7281778250736 ∧
        readPort 0x42 t = some 0 ∧ readPort 0x5F t = some 300000000000 ∧ resvalidWord t.block = 0x04) = true := by
  decide +kernel

/-- D4. -/
theorem test_rdig :
    after (exec .rdig (configuredBlock [false] (frame 0xE9 7 7
        (List.replicate 136 0 ++ [0x12, 0x34] ++ List.replicate 60 0 ++ [0xFF, 0xFF]))))
      (fun t => t.rsp = some 0x00001 ∧ readPort 0x60 t = some 0x1234 ∧ readPort 0x80 t = some 291 ∧
        readPort 0x81 t = some 0 ∧ readPort 0x9F t = some 4095 ∧ resvalidWord t.block = 0x08) = true := by
  decide +kernel

/-! ### The request port, reset and the decode functions -/

/-- Section 2.10: an illegal word on a block just reset. -/
theorem test_step_illegal :
    after (step (State.reset.withFetchWord 24 0x0E0000)) (fun t => t.rsp = some 0x10000) = true := by decide

/-- P5, request 2: `VAL` after the bus fault. -/
theorem test_step_faulted :
    after (step (faultedState [.request 0x080000])) (fun t => t.rsp = some 0x60000) = true := by decide

/-- P5, request 4: reset clears the fault. -/
theorem test_step_reset : after (step (faultedState [.reset])) (fun t => t.block.fault = false) = true := by decide

/-- S1, with its neighbour below: the decode is not monotonic. -/
theorem test_rangeQ_S1 : rangeQ 0x00400000 = 100000000000 ∧ rangeQ 0x003FFFFF = 100000572126 := by decide

/-- The largest raw value; bit 31 is ignored. -/
theorem test_rangeQ_top : rangeQ 0xFFFFFFFF = 51200000572126 ∧ rangeQ 0x80000000 = 0 := by decide

/-- S2. -/
theorem test_intensity_S2 : intensityQ 0x0030 = 3 ∧ intensityQ 0xFFFF = 4095 := by decide

/-- R51: each byte most significant bit first, the bytes in ascending offset. -/
theorem test_wire_bits :
    wireBits [0xEB, 0x01] = [true, true, true, false, true, false, true, true,
      false, false, false, false, false, false, false, true] := by decide

/-- R89: the written form of G2's request. -/
theorem test_assemble :
    (assemble "CONFIG" [.word "LONG", .word "HIGH"]).map encode = some 0x070101 ∧
      assemble "SKIPN" [.number 65536] = none := by decide

/-- S4, S5: with exact numerics the float view is the exact decode (R172, R173, R176). -/
theorem test_float_views (r : Word) (q : Half) :
    rangeFloat Flt.exact r = decodeRange r ∧ intensityFloat Flt.exact q = decodeIntensity q := ⟨rfl, rfl⟩

/-! ### Witnesses: for each statement with hypotheses, a state and operands that meet all of them -/

theorem junk_length (b : Byte) : (junk b).length = 256 := List.length_replicate

theorem start_ready (fails : List Bool) (bytes : List Byte) : Ready (start fails bytes) := ⟨rfl, rfl⟩

theorem bounded_ready (n : Half) (fails : List Bool) (bytes : List Byte) : Ready (bounded n fails bytes) := ⟨rfl, rfl⟩

theorem configured_ready (fails : List Bool) (bytes : List Byte) : Ready (configuredBlock fails bytes) := ⟨rfl, rfl⟩

/-- Every state has a next one, so a statement about it is about something. -/
theorem exec_next (i : Instr) (s : State) : ∃ t, exec i s = .next t := ⟨_, exec_eq_operate i s⟩

theorem good_frame : GoodFrame (frame 0xE9 0x21 0x21 []) := ⟨by decide +kernel, by decide +kernel, by decide +kernel⟩

theorem torn_frame : TornFrame (frame 0xE9 0x30 0x31 []) := ⟨by decide +kernel, by decide +kernel, by decide +kernel⟩

theorem misaligned_frame : MisalignedFrame (frame 0xE8 0x09 0x09 []) := ⟨by decide +kernel, by decide +kernel⟩

theorem witness_EncodeOfDecode : decode 0x070101 = some (.config .long .high) := by decide

theorem witness_OpcodeRowsAreDisjoint :
    ((0x010000, 0xFF0000) : ReqWord × ReqWord) ∈ opcodeRows ∧ rowSelects (0x010000, 0xFF0000) 0x01FFFF = true := by
  decide

theorem witness_StepRunsDecodedInstruction :
    (hosted (start [] []) [.request 0x080000]).block.busy = false ∧
      (hosted (start [] []) [.request 0x080000]).env.host = [.request 0x080000] ∧ decode 0x080000 = some .val := by
  decide

theorem witness_IllegalWordChangesNothing :
    Ready (hosted (start [] []) [.request 0x000000]) ∧
      (hosted (start [] []) [.request 0x000000]).env.host = [.request 0x000000] ∧ Request.illegal 0x000000 = true :=
  ⟨⟨rfl, rfl⟩, rfl, by decide⟩

theorem witness_FaultedWordChangesNothing :
    (faultedState [.request 0x000000]).block.busy = false ∧ (faultedState [.request 0x000000]).block.fault = true ∧
      (faultedState [.request 0x000000]).env.host = [.request 0x000000] := by decide

theorem witness_RequestWaitsWhileBusy :
    (busyState [.request 0x080000]).block.busy = true ∧
      (busyState [.request 0x080000]).env.host = [.request 0x080000] := by decide

theorem witness_ResetTakesStatedValues : (busyState [.reset, .wait]).env.host = .reset :: [.wait] := by decide

theorem witness_IdleBlockWaits : (start [] []).block.seq = [] ∧ (start [] []).env.host = [] := by decide

theorem witness_OnlyResetClearsFault :
    (faultedState [.wait]).block.fault = true ∧ ∃ t, step (faultedState [.wait]) = .next t := ⟨rfl, _, rfl⟩

theorem witness_OnlyResetClearsResultValid :
    (∃ t, step (start [] []) = .next t) ∧ ∀ rest, (start [] []).env.host ≠ .reset :: rest :=
  ⟨⟨_, rfl⟩, fun _ h => by simp [start, bounded] at h⟩

theorem witness_HistoryOnlyGrows : ∃ t, step (start [] []) = .next t := ⟨_, rfl⟩

theorem witness_OnlyStatusReadableWhileBusy :
    (busyState [.read 0x01]).block.busy = true ∧ (0x01 : Byte) ≠ 0x00 ∧
      (busyState [.read 0x00]).env.host = [.read 0x00] ∧ (busyState [.read 0x01]).env.host = [.read 0x01] ∧
      (busyState [.fbread 255]).env.host = [.fbread 255] := by decide

/-- A block on which everything has been written, so that every clause of the read port's table is met. -/
def writtenState : State :=
  let s := configuredBlock [] []
  { s with block := { s.block with rvR := true, rvI := true, rvRG := true, rvIG := true } }

theorem witness_ReadPortReturnsTable :
    writtenState.block.busy = false ∧ writtenState.block.modeV = true ∧ writtenState.block.cfgV = true ∧
      writtenState.block.rvR = true ∧ writtenState.block.rvI = true ∧ writtenState.block.rvRG = true ∧
      writtenState.block.rvIG = true := by decide

/-- The clauses on a step: a read and a byte read presented to an idle block. -/
theorem witness_ReadPort_steps :
    (hosted writtenState [.read 0x9F]).block.busy = false ∧ (hosted writtenState [.read 0x9F]).env.host = [.read 0x9F] ∧
      (hosted writtenState [.fbread 0xFF]).block.busy = false ∧
      (hosted writtenState [.fbread 0xFF]).env.host = [.fbread 0xFF] := by decide

/-- The selects at the ends of the ranges that return 0. -/
theorem witness_ReadPort_zero_selects :
    [0x06, 0x0F, 0x16, 0x1F, 0xA0, 0xFF].all (fun sel => decide (readPort sel writtenState = some 0)) = true := by
  decide +kernel

theorem witness_RangeDecodeStepsAndFalls :
    rangeF 0x003FFFFE ≠ 0x3FFFFF ∧ rangeF 0x7FBFFFFF = 0x3FFFFF ∧ rangeI 0x7FBFFFFF = 510 ∧ rangeI 0x7FBFFFFF ≠ 511 := by
  decide

theorem witness_EncWritesCommandFrame : Ready (start [] []) := start_ready _ _

theorem witness_EncRoundTrip : Ready (start [] []) ∧ 5 ≤ 5 ∧ 5 ≤ 255 := ⟨start_ready _ _, by decide, by decide⟩

theorem witness_XferExchangesFrame :
    Ready (start [false] (junk 0x11 ++ [])) ∧ (junk 0x11).length = 256 ∧
      (start [false] (junk 0x11 ++ [])).env.fails = false :: [] ∧
      (start [false] (junk 0x11 ++ [])).env.bytes = junk 0x11 ++ [] := ⟨start_ready _ _, junk_length _, rfl, rfl⟩

theorem witness_TransferBytesAreTheBuffers :
    Memory.wf (testParams 0) [(3, 0x11)] = true ∧ (junk 0x55).length = 256 := ⟨by decide +kernel, junk_length _⟩

theorem witness_XferBusErrorIsFatal : Ready (start [true] []) ∧ (start [true] []).env.fails = true :: [] :=
  ⟨start_ready _ _, rfl⟩

theorem witness_SkipnDiscards :
    Ready (start [false, false, false] [1, 2, 3]) ∧ ([1, 2, 3] : List Byte).length = (3 : Half).toNat ∧
      (start [false, false, false] [1, 2, 3]).env.fails = List.replicate (3 : Half).toNat false ++ [] ∧
      (start [false, false, false] [1, 2, 3]).env.bytes = [1, 2, 3] ++ [] := ⟨start_ready _ _, rfl, rfl, rfl⟩

/-- The boundary `n` = 0 meets the same hypotheses with an empty script. -/
theorem witness_SkipnDiscards_zero :
    Ready (start [] []) ∧ ([] : List Byte).length = (0 : Half).toNat ∧
      (start [] []).env.fails = List.replicate (0 : Half).toNat false ++ [] := ⟨start_ready _ _, rfl, rfl⟩

/-- Each clause: `SKIPN 5` whose third transfer fails; `SKIPV` whose length byte fails; `SKIPV` of 255 whose second discard
fails; `SETMODE` and `SYNC` whose flush fails at its last transfer. -/
theorem witness_SkipnBusErrorKeepsCount :
    (let s := start [false, false, true] [1, 2]
     Ready s ∧ ([1, 2] : List Byte).length < (5 : Half).toNat ∧
      s.env.fails = List.replicate ([1, 2] : List Byte).length false ++ true :: [] ∧ s.env.bytes = [1, 2] ++ []) ∧
    (Ready (start [true] []) ∧ (start [true] []).env.fails = true :: []) ∧
    (let s := start [false, false, true] [255, 7]
     Ready s ∧ ([7] : List Byte).length < (255 : Byte).toNat ∧
      s.env.fails = List.replicate (([7] : List Byte).length + 1) false ++ true :: [] ∧
      s.env.bytes = 255 :: ([7] ++ [])) ∧
    (let rx : List Byte := List.replicate 255 0x11
     let s := start (List.replicate rx.length false ++ true :: []) (rx ++ [])
     Ready s ∧ ((Instr.sync, Mode.sync) ∈
        [(Instr.setmode .sync, Mode.sync), (.setmode .normal, .normal), (.sync, .sync)]) ∧ rx.length < 256 ∧
      s.env.fails = List.replicate rx.length false ++ true :: [] ∧ s.env.bytes = rx ++ []) :=
  ⟨⟨start_ready _ _, by decide, rfl, rfl⟩, ⟨start_ready _ _, rfl⟩, ⟨start_ready _ _, by decide, rfl, rfl⟩,
    ⟨start_ready _ _, by decide, by rw [List.length_replicate]; omega, rfl, rfl⟩⟩

theorem witness_SkipvDiscardsLengthPrefixedRun :
    Ready (start [false, false, false] [2, 0x77, 0x77]) ∧ ([0x77, 0x77] : List Byte).length = (2 : Byte).toNat ∧
      (start [false, false, false] [2, 0x77, 0x77]).env.fails = List.replicate ((2 : Byte).toNat + 1) false ++ [] ∧
      (start [false, false, false] [2, 0x77, 0x77]).env.bytes = 2 :: ([0x77, 0x77] ++ []) :=
  ⟨start_ready _ _, rfl, rfl, rfl⟩

theorem witness_SyncRunsInOrder :
    let s := start (List.replicate (514 + (1 : Byte).toNat) false ++ [])
      (junk 0 ++ (junk 0x11 ++ (junk 0 ++ 1 :: ([7] ++ []))))
    Ready s ∧ (junk 0).length = 256 ∧ (junk 0x11).length = 256 ∧ ([7] : List Byte).length = (1 : Byte).toNat ∧
      s.env.fails = List.replicate (514 + (1 : Byte).toNat) false ++ [] ∧
      s.env.bytes = junk 0 ++ (junk 0x11 ++ (junk 0 ++ 1 :: ([7] ++ []))) :=
  ⟨start_ready _ _, junk_length _, junk_length _, rfl, rfl, rfl⟩

/-- Two ready blocks that differ in their session registers. -/
theorem witness_SyncReadsNoBlockState :
    Ready (start [] []) ∧ Ready (configuredBlock [] []) ∧ (start [] []).params = (configuredBlock [] []).params ∧
      (start [] []).env = (configuredBlock [] []).env ∧
      (start [] []).block.cfgV ≠ (configuredBlock [] []).block.cfgV :=
  ⟨start_ready _ _, configured_ready _ _, rfl, rfl, by decide⟩

theorem witness_SetmodeRecordsFlushesAndSends :
    let s := start (List.replicate 257 false ++ []) (junk 0 ++ (junk 0x11 ++ []))
    Ready s ∧ (junk 0).length = 256 ∧ (junk 0x11).length = 256 ∧ s.env.fails = List.replicate 257 false ++ [] ∧
      s.env.bytes = junk 0 ++ (junk 0x11 ++ []) := ⟨start_ready _ _, junk_length _, junk_length _, rfl, rfl⟩

theorem witness_ConfigRunsInOrder :
    let bytes := junk 0 ++ (junk 1 ++ (junk 2 ++ (junk 3 ++ (junk 4 ++ (junk 5 ++ [])))))
    let s := start (List.replicate 771 false ++ []) bytes
    Ready s ∧ (∀ b, (junk b).length = 256) ∧ s.env.fails = List.replicate 771 false ++ [] ∧ s.env.bytes = bytes :=
  ⟨start_ready _ _, junk_length, rfl, rfl⟩

/-- Each clause: an operation that ends with a bus fault and one that ends without; `CONFIG`, `SETMODE` and `SYNC` that end
with one; and the script of the last clause. -/
theorem witness_ConfigBusErrorKeepsRecord :
    (Ready (start [true] []) ∧ after (exec .acq (start [true] [])) (fun t => t.block.fault) = true) ∧
    (Ready (start [] []) ∧
      after (exec .val (start [] [])) (fun t => t.block.fault = false ∧ t.rsp.isSome = true) = true) ∧
    after (exec (.config .long .high) (start (List.replicate 257 false ++ [true]) (List.replicate 512 0x11)))
      (fun t => t.block.fault) = true ∧
    after (exec (.setmode .normal) (start [true] [])) (fun t => t.block.fault) = true ∧
    after (exec .sync (start [true] [])) (fun t => t.block.fault) = true ∧
    (let s := start (List.replicate 256 false ++ true :: []) (junk 0 ++ [])
     Ready s ∧ (junk 0).length = 256 ∧ s.env.fails = List.replicate 256 false ++ true :: [] ∧
      s.env.bytes = junk 0 ++ []) :=
  ⟨⟨start_ready _ _, by decide +kernel⟩, ⟨start_ready _ _, by decide +kernel⟩, by decide +kernel, by decide +kernel,
    by decide +kernel, ⟨start_ready _ _, junk_length _, rfl, rfl⟩⟩

theorem witness_ValClassifiesFrame : Ready (start [] []) := start_ready _ _

/-- A Frame Buffer for each clause: wrong magic, accepted, torn. -/
theorem witness_ValidationAcceptsExactly :
    let p := testParams 0
    fbRead p [] 0 ≠ 0xE9 ∧
      (fbRead p [(0, 0xE9)] 0 = 0xE9 ∧ fbRead p [(0, 0xE9)] 1 = fbRead p [(0, 0xE9)] 255) ∧
      (fbRead p [(0, 0xE9), (1, 0)] 0 = 0xE9 ∧ fbRead p [(0, 0xE9), (1, 0)] 1 ≠ fbRead p [(0, 0xE9), (1, 0)] 255) := by
  decide +kernel

theorem witness_AcqRetriesTornFrames :
    let torn := [frame 0xE9 0x30 0x31 []]
    let s := bounded 2 (List.replicate (torn.length + 1) false ++ []) (torn.flatten ++ (frame 0xE9 0x21 0x21 [] ++ []))
    Ready s ∧ (∀ f ∈ torn, TornFrame f) ∧ GoodFrame (frame 0xE9 0x21 0x21 []) ∧ torn.length < 65535 ∧
      (s.params.maxAttempts = 0 ∨ torn.length < s.params.maxAttempts.toNat) ∧
      s.env.fails = List.replicate (torn.length + 1) false ++ [] ∧
      s.env.bytes = torn.flatten ++ (frame 0xE9 0x21 0x21 [] ++ []) :=
  ⟨bounded_ready _ _ _, by simpa using torn_frame, good_frame, by decide, .inr (by decide), rfl, rfl⟩

theorem witness_AcqRecoversFromFramingError :
    let bytes := frame 0xE8 0x09 0x09 [] ++ (junk 0 ++ (junk 1 ++ (junk 2 ++ 1 :: ([7] ++ (junk 3 ++ (junk 4 ++
      (junk 5 ++ (junk 6 ++ (junk 7 ++ (junk 8 ++ (frame 0xE9 0x21 0x21 [] ++ [])))))))))))
    let s := configuredBlock (List.replicate (1287 + (1 : Byte).toNat) false ++ []) bytes
    Ready s ∧ s.block.cfgV = true ∧ s.params.maxAttempts ≠ 1 ∧ MisalignedFrame (frame 0xE8 0x09 0x09 []) ∧
      GoodFrame (frame 0xE9 0x21 0x21 []) ∧ (∀ b, (junk b).length = 256) ∧
      ([7] : List Byte).length = (1 : Byte).toNat ∧
      s.env.fails = List.replicate (1287 + (1 : Byte).toNat) false ++ [] ∧ s.env.bytes = bytes :=
  ⟨configured_ready _ _, rfl, (by decide : (0 : Half) ≠ 1), misaligned_frame, good_frame, junk_length, rfl, rfl, rfl⟩

theorem witness_AcqWithoutConfigurationStops :
    let s := bounded 1 [false] (frame 0xE8 0x09 0x09 [] ++ [])
    Ready s ∧ s.block.cfgV = false ∧ MisalignedFrame (frame 0xE8 0x09 0x09 []) ∧ s.env.fails = false :: [] ∧
      s.env.bytes = frame 0xE8 0x09 0x09 [] ++ [] := ⟨bounded_ready _ _ _, rfl, misaligned_frame, rfl, rfl⟩

/-- The first two clauses with a bound of 2: a torn frame and then a misaligned or a torn one. -/
theorem witness_ExhaustedRetriesAreReported :
    let torn := [frame 0xE9 0x30 0x31 []]
    let script (f : List Byte) := bounded 2 (List.replicate (torn.length + 1) false ++ []) (torn.flatten ++ (f ++ []))
    Instr.rdrg ∈ [Instr.acq, .rdr, .rdi, .rdrg, .rdig] ∧ (∀ g ∈ torn, TornFrame g) ∧
      (∀ f, Ready (script f) ∧ torn.length + 1 = (script f).params.maxAttempts.toNat ∧
        (script f).env.fails = List.replicate (torn.length + 1) false ++ [] ∧
        (script f).env.bytes = torn.flatten ++ (f ++ [])) ∧
      MisalignedFrame (frame 0xE8 0x09 0x09 []) ∧ TornFrame (frame 0xE9 0x30 0x31 []) :=
  ⟨by decide, by simpa using torn_frame, fun _ => ⟨bounded_ready _ _ _, rfl, rfl, rfl⟩, misaligned_frame, torn_frame⟩

/-- The last two clauses: runs that end with status 2 and with status 3. -/
theorem witness_ExhaustedRetries_ends :
    after (exec .rdr (bounded 2 [false, false] (frame 0xE9 0x30 0x31 [] ++ frame 0xE8 0x09 0x09 [])))
      (fun t => t.rsp.any (fun w => w.extractLsb' 16 4 = 2)) = true ∧
    after (exec .rdr (bounded 2 [false, false] (frame 0xE9 0x30 0x31 [] ++ frame 0xE9 0x40 0x41 [])))
      (fun t => t.rsp.any (fun w => w.extractLsb' 16 4 = 3)) = true := ⟨by decide +kernel, by decide +kernel⟩

theorem witness_AcquisitionBusErrorReportsAttempts :
    Instr.rdig ∈ [Instr.acq, .rdr, .rdi, .rdrg, .rdig] ∧ Ready (start [true] []) ∧
      (start [true] []).env.fails = true :: [] := ⟨by decide, start_ready _ _, rfl⟩

theorem witness_BoundedAcquisitionEnds :
    Instr.acq ∈ [Instr.acq, .rdr, .rdi, .rdrg, .rdig] ∧ Ready (bounded 0xFFFF [] []) ∧
      (bounded 0xFFFF [] []).params.maxAttempts ≠ 0 :=
  ⟨by decide, bounded_ready _ _ _, (by decide : (0xFFFF : Half) ≠ 0)⟩

theorem witness_UnboundedRetryGoesOn :
    let torn := [frame 0xE9 0x30 0x31 []]
    let s := start (List.replicate torn.length false ++ []) (torn.flatten ++ [])
    Ready s ∧ s.params.maxAttempts = 0 ∧ torn ≠ [] ∧ (∀ f ∈ torn, TornFrame f) ∧
      s.env.fails = List.replicate torn.length false ++ [] ∧ s.env.bytes = torn.flatten ++ [] :=
  ⟨start_ready _ _, rfl, by simp, by simpa using torn_frame, rfl, rfl⟩

/-- The hypotheses of the five statements on an accepted first frame. -/
theorem accepting :
    let s := start [false] (frame 0xE9 0x21 0x21 [] ++ [])
    Ready s ∧ GoodFrame (frame 0xE9 0x21 0x21 []) ∧ s.env.fails = false :: [] ∧
      s.env.bytes = frame 0xE9 0x21 0x21 [] ++ [] := ⟨start_ready _ _, good_frame, rfl, rfl⟩

theorem witness_AcqAcceptsFirstFrame :
    ∃ s good fs bs, Ready s ∧ GoodFrame good ∧ s.env.fails = false :: fs ∧ s.env.bytes = good ++ bs :=
  ⟨_, _, [], [], accepting⟩

/-- A block whose device sends a torn frame and then a good one. -/
def retrying : State := start [false, false] (frame 0xE9 0x30 0x31 [] ++ frame 0xE9 0x21 0x21 [])

theorem witness_RdrReadsRangeScalar :
    (∃ s good fs bs, Ready s ∧ GoodFrame good ∧ s.env.fails = false :: fs ∧ s.env.bytes = good ++ bs) ∧
      Ready retrying ∧ after (exec .rdr retrying) (fun t => t.rsp.any (fun w => w.extractLsb' 16 4 = 0)) = true :=
  ⟨⟨_, _, [], [], accepting⟩, start_ready _ _, by decide +kernel⟩

theorem witness_RdiReadsIntensityScalar :
    (∃ s good fs bs, Ready s ∧ GoodFrame good ∧ s.env.fails = false :: fs ∧ s.env.bytes = good ++ bs) ∧
      Ready retrying ∧ after (exec .rdi retrying) (fun t => t.rsp.any (fun w => w.extractLsb' 16 4 = 0)) = true :=
  ⟨⟨_, _, [], [], accepting⟩, start_ready _ _, by decide +kernel⟩

theorem witness_RdrgReadsRangeGrid :
    (∃ s good fs bs, Ready s ∧ GoodFrame good ∧ s.env.fails = false :: fs ∧ s.env.bytes = good ++ bs) ∧
      Ready retrying ∧ after (exec .rdrg retrying) (fun t => t.rsp.any (fun w => w.extractLsb' 16 4 = 0)) = true :=
  ⟨⟨_, _, [], [], accepting⟩, start_ready _ _, by decide +kernel⟩

theorem witness_RdigReadsIntensityGrid :
    (∃ s good fs bs, Ready s ∧ GoodFrame good ∧ s.env.fails = false :: fs ∧ s.env.bytes = good ++ bs) ∧
      Ready retrying ∧ after (exec .rdig retrying) (fun t => t.rsp.any (fun w => w.extractLsb' 16 4 = 0)) = true :=
  ⟨⟨_, _, [], [], accepting⟩, start_ready _ _, by decide +kernel⟩

/-- A read operation answered with a status that is not OK. -/
theorem witness_FailedReadWritesNoResult :
    Ready (bounded 1 [false] (frame 0xE9 1 2 [])) ∧
      after (exec .rdr (bounded 1 [false] (frame 0xE9 1 2 [])))
        (fun t => t.rsp.any (fun w => w.extractLsb' 16 4 ≠ 0)) = true :=
  ⟨bounded_ready _ _ _, by decide +kernel⟩

theorem witness_ResultsWrittenByTheirOperationOnly :
    (∃ t, exec .rdr (start [] []) = .next t) ∧ Instr.rdr ≠ .rdi ∧ Instr.rdr ≠ .rdrg ∧ Instr.rdr ≠ .rdig ∧
      Instr.rdi ≠ .rdr := ⟨exec_next _ _, by decide, by decide, by decide, by decide⟩

theorem witness_SessionWrittenBySettersOnly :
    (∃ t, exec .sync (start [] []) = .next t) ∧ (∀ d r, Instr.sync ≠ .config d r) ∧ callRank .skipv = 0 :=
  ⟨exec_next _ _, (fun _ _ h => by cases h), rfl⟩

theorem witness_ValidationFlagsWrittenByValidationOnly :
    (∃ t, exec .xfer (start [] []) = .next t) ∧ callRank .xfer < 3 ∧ Instr.xfer ≠ .val :=
  ⟨exec_next _ _, by decide, by decide⟩

theorem witness_SkipsAndValKeepFrameBuffer : ∃ t, exec (.skipn 3) (start [] []) = .next t := exec_next _ _

theorem witness_CountersWrittenByTheirOperationsOnly :
    (∃ t, exec .xfer (start [] []) = .next t) ∧ callRank .xfer < 3 ∧ Instr.xfer ≠ .skipv ∧ Instr.xfer ≠ .sync :=
  ⟨exec_next _ _, by decide, by decide, by decide⟩

/-- The state after reset meets the invariant, and so does a state with an operation in progress and its counter running. -/
theorem witness_StepKeepsInvariant :
    Inv State.reset ∧
      (let s := start [] []
       Inv { s with block := { s.block with busy := true, cnt := 3, seq := [⟨.skipn 3, 1⟩, ⟨.setmode .sync, 1⟩, ⟨.sync, 0⟩] } }) :=
  ⟨⟨rfl, rfl, rfl, rfl, (fun h => by cases h), fun h => absurd rfl h, fun _ => rfl⟩,
    ⟨rfl, rfl, rfl, rfl, (fun h => by cases h), fun _ => .inr rfl, (fun h => by cases h)⟩⟩

/-- A stack of the greatest depth meets the invariant. -/
theorem witness_SequencerStackHasAtMostFive :
    let s := start [] []
    let deep : List Position := [⟨.xfer, 0⟩, ⟨.setmode .normal, 4⟩, ⟨.config .long .high, 1⟩, ⟨.acq, 10⟩, ⟨.rdr, 0⟩]
    deep.length = 5 ∧ Inv { s with block := { s.block with busy := true, seq := deep } } :=
  ⟨rfl, ⟨rfl, rfl, rfl, rfl, (fun h => by cases h), fun h => absurd rfl h, (fun h => by cases h)⟩⟩

theorem witness_SteppedRunIsTheWholeOperation : Ready (start [] []) ∧ (start [] []).env.host = [] :=
  ⟨start_ready _ _, rfl⟩

end Sys2Proof.Machine.Tests
end

/-! SUPPORT. The history and the parameters under every operation of the model, the decoder on an encoded operation, and
runs of the machine with nothing presented; with them the statements of the scope family (spec/00). -/

namespace Sys2Proof

/-- The operation of an encoded word is read back: every operand bit is where R82 assembles it (R81, R82). -/
theorem decode_encode (i : Instr) : decode (encode i) = some i := by
  cases i with
  | enc c v =>
    have hword : encode (.enc c v) = (0x01 : Byte) ++ (c ++ v : Half) := rfl
    rw [hword, decode_fields]
    have hc := operandByte_high 0x01 c v
    have hv := operandByte_low 0x01 c v
    simpa [fieldRows, operationOf] using ⟨hc, hv⟩
  | skipn n =>
    have hword : encode (.skipn n) = (0x03 : Byte) ++ n := rfl
    rw [hword, decode_fields]
    simp [fieldRows, operationOf, operandHalf]
  | setmode m => cases m <;> decide
  | config d r => cases d <;> cases r <;> decide
  | xfer => decide
  | skipv => decide
  | sync => decide
  | val => decide
  | acq => decide
  | rdr => decide
  | rdi => decide
  | rdrg => decide
  | rdig => decide

namespace Machine

/-! ### The history and the parameters -/

/-- `t` comes after `s`: its history is that of `s` with events added at the newest end (R15), and the parameters are
the same (R9). -/
structure Extends (s t : State) : Prop where
  hist : s.hist <:+ t.hist
  params : t.params = s.params

theorem Extends.refl (s : State) : Extends s s := ⟨List.suffix_rfl, rfl⟩

theorem Extends.trans {s t u : State} (h : Extends s t) (h' : Extends t u) : Extends s u :=
  ⟨h.hist.trans h'.hist, h'.params.trans h.params⟩

/-- An update that leaves both fields alone. -/
theorem Extends.of_eq {s t : State} (hhist : t.hist = s.hist) (hparams : t.params = s.params) : Extends s t :=
  ⟨by rw [hhist], hparams⟩

/-- One event more. -/
theorem Extends.of_cons {s t : State} (ev : Event) (hhist : t.hist = ev :: s.hist) (hparams : t.params = s.params) :
    Extends s t :=
  ⟨by rw [hhist]; exact List.suffix_cons ev s.hist, hparams⟩

theorem emit_extends (ev : Event) (s : State) : Extends s (emit ev s) := .of_cons ev rfl rfl

theorem advance_extends (top : Position) (rest : List Position) (s : State) : Extends s (advance top rest s) :=
  .of_eq rfl rfl

theorem takeAction_extends (rest : List HostAct) (s : State) : Extends s (takeAction rest s) :=
  .of_eq rfl rfl

theorem endOperation_extends (st : Status) (s : State) : Extends s (endOperation st s) :=
  .of_cons _ (endOperation_hist st s) rfl

theorem raiseBusError_extends (s : State) : Extends s (raiseBusError s) := .of_cons _ rfl rfl

theorem raiseBufferError_extends (s : State) : Extends s (raiseBufferError s) := .of_cons _ rfl rfl

theorem returnFrom_extends (rest : List Position) (s : State) : Extends s (returnFrom rest s) := by
  cases rest with
  | nil => exact endOperation_extends .ok s
  | cons caller below => exact advance_extends caller below s

theorem follow_extends (flow : Flow) (top : Position) (rest : List Position) (s : State) :
    Extends s (follow flow top rest s) := by
  cases flow with
  | next => exact advance_extends top rest s
  | goto k => exact .of_eq rfl rfl
  | stop st => exact endOperation_extends st s

theorem busByte_extends (tx : Byte) (s : State) : Extends s (busByte tx s).2 := by
  rcases busByte_cases tx s with ⟨e, h⟩ | ⟨rx, e, h⟩ <;> rw [h] <;> exact .of_cons _ rfl rfl

theorem busBuf_extends (s : State) : Extends s (busBuf s).2 := by
  rcases busBuf_cases s with ⟨e, h⟩ | ⟨rx, e, -, h⟩ <;> rw [h] <;> exact .of_cons _ rfl rfl

theorem transferFrame_extends (top : Position) (rest : List Position) (s : State) :
    Extends s (transferFrame top rest s) := by
  have hbus := busBuf_extends s
  unfold transferFrame
  split
  · next s1 h => rw [h] at hbus; exact hbus.trans (raiseBufferError_extends s1)
  · next s1 h => rw [h] at hbus; exact hbus.trans (advance_extends top rest s1)

theorem readLength_extends (top : Position) (rest : List Position) (s : State) :
    Extends s (readLength top rest s) := by
  have hbus := busByte_extends s.params.skipFill s
  unfold readLength
  split
  · next s1 h => rw [h] at hbus; exact hbus.trans (raiseBusError_extends s1)
  · next rx s1 h => rw [h] at hbus; exact hbus.trans (.of_eq rfl rfl)

theorem discardOne_extends (top : Position) (rest : List Position) (s : State) :
    Extends s (discardOne top rest s) := by
  have hbus := busByte_extends s.params.skipFill s
  unfold discardOne
  split
  · exact advance_extends top rest s
  · split
    · next s1 h => rw [h] at hbus; exact hbus.trans (raiseBusError_extends s1)
    · next rx s1 h => rw [h] at hbus; exact hbus.trans (.of_eq rfl rfl)

theorem runLine_extends (line : Line) (top : Position) (rest : List Position) (s : State) :
    Extends s (runLine line top rest s) := by
  cases line with
  | assign f => exact .of_eq rfl rfl
  | call f => exact .of_eq rfl rfl
  | busBuf => exact transferFrame_extends top rest s
  | readLen => exact readLength_extends top rest s
  | discard => exact discardOne_extends top rest s
  | delay => exact .of_cons _ rfl rfl
  | log kind => exact .of_cons _ rfl rfl
  | test f => exact follow_extends _ top rest s

theorem tick_extends (s : State) : Extends s (tick s) := by
  rcases tick_cases s with ⟨-, h⟩ | ⟨top, rest, line, -, -, h⟩ | ⟨top, rest, -, -, h⟩ <;> rw [h]
  · exact .refl s
  · exact runLine_extends line top rest s
  · exact returnFrom_extends rest s

theorem drive_extends (n : Nat) (s : State) : Extends s (drive n s) :=
  drive_keeps (Extends s) (fun t h => h.trans (tick_extends t)) n s (.refl s)

theorem answerAtOnce_extends (st : Status) (w : ReqWord) (s : State) : Extends s (answerAtOnce st w s) :=
  (emit_extends (.request w) s).trans (.of_cons _ rfl rfl)

theorem accept_extends (i : Instr) (s : State) : Extends s (accept i s) :=
  .of_cons _ (accept_hist i s) (accept_params i s)

theorem operate_extends (i : Instr) (s : State) : Extends s (operate i s) := by
  unfold operate
  split
  · exact .of_eq (present_hist i s) (present_params i s)
  · split
    · exact answerAtOnce_extends .faulted (encode i) s
    · exact (accept_extends i s).trans (drive_extends runBound _)

theorem rejectWord_extends (w : ReqWord) (s : State) : Extends s (rejectWord w s) := by
  unfold rejectWord
  split <;> exact answerAtOnce_extends _ w s

theorem acceptStepped_extends (w : ReqWord) (s : State) : Extends s (acceptStepped w s) := by
  unfold acceptStepped
  split
  · exact rejectWord_extends w s
  · split
    · exact answerAtOnce_extends .faulted w s
    · exact accept_extends _ s

theorem acceptWord_extends (w : ReqWord) (s t : State) (h : acceptWord w s = .next t) : Extends s t := by
  unfold acceptWord at h
  split at h
  · cases h; exact rejectWord_extends w s
  · rw [exec_eq_operate] at h
    cases h
    exact operate_extends _ s

theorem hostRead_extends (sel : Byte) (rest : List HostAct) (s : State) : Extends s (hostRead sel rest s) := by
  unfold hostRead
  split
  · exact (takeAction_extends rest s).trans (emit_extends _ _)
  · exact tick_extends s

theorem hostFbRead_extends (idx : Byte) (rest : List HostAct) (s : State) : Extends s (hostFbRead idx rest s) := by
  unfold hostFbRead
  split
  · exact (takeAction_extends rest s).trans (emit_extends _ _)
  · exact tick_extends s

theorem resetBlock_extends (s : State) : Extends s (resetBlock s) :=
  .of_cons .reset (resetBlock_hist s) (resetBlock_params s)

/-- Every step of the machine, whatever the host does. -/
theorem step_extends (s t : State) (h : step s = .next t) : Extends s t := by
  unfold step at h
  split at h
  · cases h; exact tick_extends s
  · next rest _ => cases h; exact (takeAction_extends rest s).trans (tick_extends _)
  · next rest _ => cases h; exact (takeAction_extends rest s).trans (resetBlock_extends _)
  · next sel rest _ => cases h; exact hostRead_extends sel rest s
  · next idx rest _ => cases h; exact hostFbRead_extends idx rest s
  · next w rest _ =>
    split at h
    · cases h; exact tick_extends s
    · exact (takeAction_extends rest s).trans (acceptWord_extends w _ t h)
  · next w rest _ =>
    split at h <;> cases h
    · exact tick_extends s
    · exact (takeAction_extends rest s).trans (acceptStepped_extends w _)

/-- Settles O14: every step extends the history at its newest end and keeps the parameters. -/
theorem historyOnlyGrows : Obligations.HistoryOnlyGrows := by
  intro s t hstep
  obtain ⟨⟨events, hhist⟩, hparams⟩ := step_extends s t hstep
  exact ⟨⟨events, hhist.symm⟩, hparams⟩

/-! ### What a transfer sends and leaves -/

/-- Settles O26: what is sent is the Frame Buffer read byte by byte, and a stored frame is read back byte by byte. -/
theorem transferBytesAreTheBuffers : Obligations.TransferBytesAreTheBuffers := by
  intro p fb rx hwf hrx
  have hsent : (fbBytes p fb).length = 256 := fbBytes_length p fb
  refine ⟨hsent, fun i hi => ?_, fun i hi => ?_, fbStore_wf p rx⟩
  · rw [← fbBytes_getD p fb hwf i hi, List.getD_eq_getElem _ _ (hsent ▸ hi), List.getElem?_eq_getElem]
  · rw [fbRead_fbStore p rx hrx i hi, List.getD_eq_getElem _ _ (hrx ▸ hi), List.getElem?_eq_getElem]

/-! ### An operation taken one engine step at a time -/

/-- With nothing presented a step of the machine is a step of the engine. -/
theorem step_unattended (s : State) (h : s.env.host = []) : step s = .next (tick s) := by
  unfold step
  rw [h]

/-- With nothing presented `n` steps of the machine are a run of `n` engine steps: the engine never adds to the host's
script. -/
theorem runSteps_unattended (n : Nat) : ∀ s : State, s.env.host = [] → runSteps n s = .next (drive n s) := by
  induction n with
  | zero => intro s _; rfl
  | succ n ih =>
    intro s h
    rw [runSteps_next n s (tick s) (step_unattended s h), ih (tick s) ((tick_host s).trans h), Nat.add_comm, drive_add,
      drive_one]

/-- A stepped request to a ready block is accepted in its step, and the engine does not move yet (log 2). -/
theorem step_requestStepped (i : Instr) (s : State) (hready : Ready s) :
    step { s with env := { s.env with host := .requestStepped (encode i) :: s.env.host } } = .next (accept i s) := by
  simp [step, hready.idle, acceptStepped, decode_encode, hready.noFault, takeAction, setEnv]

/-- Settles O60: the first step accepts the operation, and the `runBound` steps after it are the run that `exec` takes as
one step. -/
theorem steppedRunIsTheWholeOperation : Obligations.SteppedRunIsTheWholeOperation := by
  intro i s hready hhost
  have haccept := step_requestStepped i s hready
  rw [hhost] at haccept
  rw [runSteps_next runBound _ _ haccept, runSteps_unattended runBound (accept i s) hhost, exec_eq_operate,
    operate_ready i s hready]

end Machine

end Sys2Proof

/-! SUPPORT. What the lines of the 13 operations are, operation by operation (`AssignmentOf`, `Calls`, and where the discards
and jumps stand), so that a frame or an invariant is proved by their cases; how a property of the block is kept by a run, by a
request and by a step of the machine; and the statements of the state family (spec/10). -/

namespace Sys2Proof.Machine

/-! ### The lines of the operations -/

/-- The assignments in the pseudocode of the 13 operations (spec/40 to spec/44). -/
inductive AssignmentOf : Instr → (Params → Block → Block) → Prop where
  | enc (c v : Byte) :
      AssignmentOf (.enc c v) (fun p b => { b with fb := fbStore p (commandFrame c v), fbValid := false })
  | xfer : AssignmentOf .xfer (fun _ b => { b with fbValid := false })
  | skipn (n : Half) : AssignmentOf (.skipn n) (fun _ b => { b with cnt := n })
  | skipv : AssignmentOf .skipv (fun _ b => { b with cnt := b.len.setWidth 16 })
  | setmode (m : Mode) : AssignmentOf (.setmode m) (fun _ b => { b with mode := m, modeV := true })
  | config (d : Dist) (r : Rate) :
      AssignmentOf (.config d r) (fun _ b => { b with dist := d, rate := r, cfgV := true })
  | val : AssignmentOf .val validate
  | acqStart : AssignmentOf .acq (fun _ b => { b with attempts := 0, lastErr := .none })
  | acqAttempt : AssignmentOf .acq (fun _ b => { b with attempts := satinc b.attempts })
  | acqValidate : AssignmentOf .acq validate
  | acqFraming : AssignmentOf .acq (fun _ b => { b with lastErr := .framing })
  | acqSequence : AssignmentOf .acq (fun _ b => { b with lastErr := .sequence })
  | rdr : AssignmentOf .rdr (fun p b => { b with rngRaw := memRead4 p b.fb Config.offRange, rvR := true })
  | rdi : AssignmentOf .rdi (fun p b => { b with intRaw := memRead2 p b.fb Config.offIntensity, rvI := true })
  | rdrg : AssignmentOf .rdrg (fun p b => { b with rgridRaw := rangeGrid p b.fb, rvRG := true })
  | rdig : AssignmentOf .rdig (fun p b => { b with igridRaw := intensityGrid p b.fb, rvIG := true })

theorem assignmentOf_of_mem {op : Instr} {f : Params → Block → Block} (h : .assign f ∈ linesOf op) :
    AssignmentOf op f := by
  cases op with
  | enc c v => simp [linesOf, encLines] at h; subst h; exact .enc c v
  | xfer => simp [linesOf, xferLines] at h; subst h; exact .xfer
  | skipn n => simp [linesOf, skipnLines] at h; subst h; exact .skipn n
  | skipv => simp [linesOf, skipvLines] at h; subst h; exact .skipv
  | sync => simp [linesOf, syncLines, flushFrame] at h
  | setmode m => simp [linesOf, setmodeLines, sendCmd, flushFrame] at h; subst h; exact .setmode m
  | config d r => simp [linesOf, configLines, sendCmd, flushFrame] at h; subst h; exact .config d r
  | val => simp [linesOf, valLines] at h; subst h; exact .val
  | acq =>
    simp [linesOf, acqLines] at h
    obtain rfl | rfl | rfl | rfl | rfl := h
    exacts [.acqStart, .acqAttempt, .acqValidate, .acqFraming, .acqSequence]
  | rdr => simp [linesOf, rdrLines] at h; subst h; exact .rdr
  | rdi => simp [linesOf, rdiLines] at h; subst h; exact .rdi
  | rdrg => simp [linesOf, rdrgLines] at h; subst h; exact .rdrg
  | rdig => simp [linesOf, rdigLines] at h; subst h; exact .rdig

/-- Which operation calls which, with the arguments taken from the state at the call (spec/10 R24). -/
inductive Calls (p : Params) (b : Block) : Instr → Instr → Prop where
  | setmodeFlush (m : Mode) : Calls p b (.setmode m) (.skipn 256)
  | setmodeEncode (m : Mode) : Calls p b (.setmode m) (.enc p.cmdMode (modeVal p m))
  | setmodeSend (m : Mode) : Calls p b (.setmode m) .xfer
  | syncMode : Calls p b .sync (.setmode .sync)
  | syncFlush : Calls p b .sync (.skipn 256)
  | syncSkip : Calls p b .sync .skipv
  | configMode (d : Dist) (r : Rate) : Calls p b (.config d r) (.setmode .normal)
  | configDistance (d : Dist) (r : Rate) : Calls p b (.config d r) (.enc p.cmdDistance (distVal p d))
  | configRate (d : Dist) (r : Rate) : Calls p b (.config d r) (.enc (rateCmd p r) p.rateArg)
  | configSend (d : Dist) (r : Rate) : Calls p b (.config d r) .xfer
  | configFlush (d : Dist) (r : Rate) : Calls p b (.config d r) (.skipn 256)
  | acqTransfer : Calls p b .acq .xfer
  | acqSync : Calls p b .acq .sync
  | acqConfig : Calls p b .acq (.config b.dist b.rate)
  | rdr : Calls p b .rdr .acq
  | rdi : Calls p b .rdi .acq
  | rdrg : Calls p b .rdrg .acq
  | rdig : Calls p b .rdig .acq

theorem calls_of_mem {op : Instr} {f : Params → Block → Instr} (h : .call f ∈ linesOf op) (p : Params) (b : Block) :
    Calls p b op (f p b) := by
  cases op with
  | enc c v => simp [linesOf, encLines] at h
  | xfer => simp [linesOf, xferLines] at h
  | skipn n => simp [linesOf, skipnLines] at h
  | skipv => simp [linesOf, skipvLines] at h
  | sync =>
    simp [linesOf, syncLines, flushFrame] at h
    obtain rfl | rfl | rfl := h
    exacts [.syncMode, .syncFlush, .syncSkip]
  | setmode m =>
    simp [linesOf, setmodeLines, sendCmd, flushFrame] at h
    obtain rfl | rfl | rfl := h
    exacts [.setmodeFlush m, .setmodeEncode m, .setmodeSend m]
  | config d r =>
    simp [linesOf, configLines, sendCmd, flushFrame] at h
    obtain rfl | rfl | rfl | rfl | rfl | rfl | rfl := h
    exacts [.configMode d r, .configDistance d r, .configSend d r, .configFlush d r, .configRate d r, .configSend d r,
      .configFlush d r]
  | val => simp [linesOf, valLines] at h
  | acq =>
    simp [linesOf, acqLines] at h
    obtain rfl | rfl | rfl := h
    exacts [.acqTransfer, .acqSync, .acqConfig]
  | rdr => simp [linesOf, rdrLines] at h; subst h; exact .rdr
  | rdi => simp [linesOf, rdiLines] at h; subst h; exact .rdi
  | rdrg => simp [linesOf, rdrgLines] at h; subst h; exact .rdrg
  | rdig => simp [linesOf, rdigLines] at h; subst h; exact .rdig

/-- Calls go down the ranks (spec/10 R24). -/
theorem Calls.rank_lt {p : Params} {b : Block} {op callee : Instr} (h : Calls p b op callee) :
    callRank callee < callRank op := by
  cases h <;> simp [callRank]

/-- A discard stands in a skip only (spec/41 R120, R121). -/
theorem skip_of_discard_mem {op : Instr} (h : .discard ∈ linesOf op) : (∃ n, op = .skipn n) ∨ op = .skipv := by
  cases op with
  | skipn n => exact .inl ⟨n, rfl⟩
  | skipv => exact .inr rfl
  | _ => simp [linesOf, encLines, xferLines, syncLines, setmodeLines, configLines, valLines, acqLines, rdrLines, rdiLines,
      rdrgLines, rdigLines, sendCmd, flushFrame] at h

/-- A length byte is read by `SKIPV` only (spec/41 R121). -/
theorem skipv_of_readLen_mem {op : Instr} (h : .readLen ∈ linesOf op) : op = .skipv := by
  cases op with
  | skipv => rfl
  | _ => simp [linesOf, encLines, xferLines, skipnLines, syncLines, setmodeLines, configLines, valLines, acqLines, rdrLines,
      rdiLines, rdrgLines, rdigLines, sendCmd, flushFrame] at h

/-- A test stands in `ACQ` only, and jumps to its `step1`, `step3` or `step4` (spec/43 R152). -/
theorem acq_of_goto {op : Instr} {f : Params → Block → Flow} {p : Params} {b : Block} {k : Nat}
    (h : .test f ∈ linesOf op) (hflow : f p b = .goto k) : op = .acq ∧ (k = 1 ∨ k = 12 ∨ k = 17) := by
  cases op with
  | acq =>
    simp [linesOf, acqLines] at h
    refine ⟨rfl, ?_⟩
    obtain rfl | rfl | rfl | rfl | rfl | rfl | rfl := h <;> beta_reduce at hflow
    · split at hflow <;> cases hflow
      exact .inr (.inl rfl)
    · split at hflow <;> cases hflow
    · split at hflow <;> cases hflow
    · cases hflow
      exact .inl rfl
    · split at hflow <;> cases hflow
      exact .inr (.inr rfl)
    · split at hflow <;> cases hflow
    · cases hflow
      exact .inl rfl
  | _ => simp [linesOf, encLines, xferLines, skipnLines, skipvLines, syncLines, setmodeLines, configLines, valLines, rdrLines,
      rdiLines, rdrgLines, rdigLines, sendCmd, flushFrame] at h

/-- The engine stands at a discard exactly where it is in the loop of a skip. -/
theorem inDiscardLoop_iff (top : Position) (rest : List Position) :
    inDiscardLoop (top :: rest) = true ↔ (linesOf top.op)[top.step]? = some .discard := by
  obtain ⟨op, k⟩ := top
  constructor
  · intro h
    unfold inDiscardLoop at h
    split at h
    · next heq => cases heq; rfl
    · next heq => cases heq; rfl
    · cases h
  · intro h
    obtain ⟨n, rfl⟩ | rfl := skip_of_discard_mem (List.mem_of_getElem? h)
    · obtain _ | _ | k := k <;> simp [linesOf, skipnLines, inDiscardLoop] at h ⊢
    · obtain _ | _ | _ | k := k <;> simp [linesOf, skipvLines, inDiscardLoop] at h ⊢

/-- An assignment that writes `CNT` stands right before a skip's loop. -/
theorem assign_cnt {op : Instr} {k : Nat} {f : Params → Block → Block} (h : (linesOf op)[k]? = some (.assign f))
    (p : Params) (b : Block) : (f p b).cnt = b.cnt ∨ (linesOf op)[k + 1]? = some .discard := by
  cases assignmentOf_of_mem (List.mem_of_getElem? h) with
  | skipn n =>
    obtain rfl : k = 0 := by obtain _ | _ | k := k <;> simp [linesOf, skipnLines] at h ⊢
    exact .inr rfl
  | skipv =>
    obtain rfl : k = 1 := by obtain _ | _ | _ | k := k <;> simp [linesOf, skipvLines] at h ⊢
    exact .inr rfl
  | _ => exact .inl rfl

/-! ### The stack of calls -/

/-- `SEQ` nests as R24 says and names steps of its operations. -/
structure StackOk (q : List Position) : Prop where
  ranks : ranksRise q = true
  steps : stepsInRange q = true

namespace StackOk

variable {top caller : Position} {rest below : List Position}

theorem nil : StackOk [] := ⟨rfl, rfl⟩

/-- A request is accepted on an empty stack. -/
theorem single (op : Instr) : StackOk [⟨op, 0⟩] := ⟨rfl, by simp [stepsInRange]⟩

theorem ranksRise_tail (h : ranksRise (top :: rest) = true) : ranksRise rest = true := by
  cases rest with
  | nil => rfl
  | cons caller below => exact (Bool.and_eq_true_iff.mp h).2

/-- The ranks do not depend on the step the top stands at. -/
theorem ranksRise_step (top : Position) (k : Nat) (rest : List Position) :
    ranksRise (⟨top.op, k⟩ :: rest) = ranksRise (top :: rest) := by
  cases rest <;> rfl

/-- The innermost operation goes to another of its lines. -/
theorem moved (h : StackOk (top :: rest)) {k : Nat} (hk : k ≤ (linesOf top.op).length) :
    StackOk (⟨top.op, k⟩ :: rest) := by
  refine ⟨(ranksRise_step top k rest).trans h.ranks, ?_⟩
  have hsteps := h.steps
  simp only [stepsInRange, Bool.and_eq_true, decide_eq_true_eq] at hsteps ⊢
  exact ⟨hk, hsteps.2⟩

/-- The innermost operation goes on from a line to the next. -/
theorem next (h : StackOk (top :: rest)) {line : Line} (hline : (linesOf top.op)[top.step]? = some line) :
    StackOk (⟨top.op, top.step + 1⟩ :: rest) := by
  obtain ⟨hlt, -⟩ := List.getElem?_eq_some_iff.mp hline
  exact h.moved hlt

/-- The innermost operation calls one of lower rank. -/
theorem pushed (h : StackOk (top :: rest)) {line : Line} (hline : (linesOf top.op)[top.step]? = some line) {callee : Instr}
    (hrank : callRank callee < callRank top.op) : StackOk (⟨callee, 0⟩ :: top :: rest) := by
  obtain ⟨hlt, -⟩ := List.getElem?_eq_some_iff.mp hline
  refine ⟨Bool.and_eq_true_iff.mpr ⟨decide_eq_true hrank, h.ranks⟩, ?_⟩
  have hsteps := h.steps
  simp only [stepsInRange, List.all_cons, Bool.and_eq_true, decide_eq_true_eq] at hsteps ⊢
  exact ⟨Nat.zero_le _, hlt, hsteps.2⟩

/-- A nested operation is popped and its caller goes on. -/
theorem popped (h : StackOk (top :: caller :: below)) : StackOk (⟨caller.op, caller.step + 1⟩ :: below) := by
  refine ⟨(ranksRise_step caller _ below).trans (ranksRise_tail h.ranks), ?_⟩
  have hsteps := h.steps
  simp only [stepsInRange, List.all_cons, Bool.and_eq_true, decide_eq_true_eq] at hsteps ⊢
  exact ⟨hsteps.2.1, hsteps.2.2⟩

/-- The ranks are 0 to 4, so there is room for this many callers above an operation. -/
theorem rank_add_callers_le (q : List Position) :
    ∀ top, ranksRise (top :: q) = true → callRank top.op + q.length ≤ 4 := by
  induction q with
  | nil => intro top _; cases top.op <;> simp [callRank]
  | cons caller below ih =>
    intro top h
    obtain ⟨hlt, hrest⟩ := Bool.and_eq_true_iff.mp h
    have hroom := ih caller hrest
    have hrank := of_decide_eq_true hlt
    simp only [List.length_cons]
    omega

end StackOk

/-! ### What an assignment keeps -/

namespace AssignmentOf

variable {op : Instr} {f : Params → Block → Block} {p : Params} {b : Block}

theorem busy (h : AssignmentOf op f) (p : Params) (b : Block) : (f p b).busy = b.busy := by
  cases h <;> rfl

/-- The one assignment of a frame stores it in canonical form. -/
theorem memory (h : AssignmentOf op f) (hwf : Memory.wf p b.fb = true) : Memory.wf p (f p b).fb = true := by
  cases h with
  | enc c v => exact fbStore_wf p _
  | _ => exact hwf

end AssignmentOf

/-- What `FBVALID` stands for (spec/10 R25). -/
def ValidMeansAccepted (p : Params) (b : Block) : Prop :=
  b.fbValid = true → frameAccepted p b.fb ∧ b.magicOk = true ∧ b.seqOk = true

theorem ValidMeansAccepted.of_invalid {p : Params} {b : Block} (h : b.fbValid = false) : ValidMeansAccepted p b :=
  fun hvalid => absurd (h.symm.trans hvalid) Bool.false_ne_true

theorem ValidMeansAccepted.validate (p : Params) (b : Block) : ValidMeansAccepted p (validate p b) := by
  intro h
  obtain ⟨hmagic, hseq⟩ : magicMatches p b.fb = true ∧ sequenceMatches p b.fb = true := by simpa using h
  exact ⟨⟨of_decide_eq_true hmagic, of_decide_eq_true hseq⟩, hmagic, hseq⟩

/-- A new frame clears `FBVALID`, and only a validation sets it. -/
theorem AssignmentOf.valid {op : Instr} {f : Params → Block → Block} (h : AssignmentOf op f) {p : Params} {b : Block}
    (hvalid : ValidMeansAccepted p b) : ValidMeansAccepted p (f p b) := by
  cases h with
  | enc c v => exact .of_invalid rfl
  | xfer => exact .of_invalid rfl
  | val => exact .validate p b
  | acqValidate => exact .validate p b
  | _ => unfold ValidMeansAccepted; exact hvalid

/-! ### One engine step keeps the invariant -/

/-- Outside the loop of a skip `CNT` is 0 while the engine runs (spec/10 R23). -/
theorem Inv.cnt_eq_zero {s : State} (h : Inv s) {top : Position} {rest : List Position} (hseq : s.block.seq = top :: rest)
    (hline : (linesOf top.op)[top.step]? ≠ some .discard) : s.block.cnt = 0 := by
  by_contra hcnt
  obtain hfault | hloop := h.counter hcnt
  · exact absurd (hseq.symm.trans (h.stopped hfault)) (List.cons_ne_nil top rest)
  · rw [hseq] at hloop
    exact hline ((inDiscardLoop_iff top rest).mp hloop)

theorem Inv.stack {s : State} (h : Inv s) : StackOk s.block.seq := ⟨h.ranks, h.steps⟩

/-- The invariant speaks of the block and the parameters only. -/
theorem Inv.of_block {s t : State} (h : Inv (setBlock t.block s)) (hparams : t.params = s.params) : Inv t := by
  obtain ⟨hmemory, hbusy, hranks, hsteps, hvalid, hcounter, hstopped⟩ := h
  rw [setBlock_params, ← hparams] at hmemory hvalid
  exact ⟨hmemory, hbusy, hranks, hsteps, hvalid, hcounter, hstopped⟩

namespace TickEffect

variable {s : State} {p : Params} {b b' : Block}

/-- An idle engine stands still: every other case has a line to run. -/
theorem eq_of_idle (e : TickEffect p b b') (hidle : b.seq = []) : b' = b := by
  cases e with
  | idle => rfl
  | _ => simp_all only [reduceCtorEq]

theorem keeps_memory (e : TickEffect p b b') (h : Memory.wf p b.fb = true) : Memory.wf p b'.fb = true := by
  cases e with
  | assign top rest f hseq hline => exact (assignmentOf_of_mem (List.mem_of_getElem? hline)).memory h
  | transfer => exact fbStore_wf p _
  | bufferError => exact fbStore_wf p _
  | _ => exact h

theorem keeps_valid (e : TickEffect p b b') (h : ValidMeansAccepted p b) : ValidMeansAccepted p b' := by
  cases e with
  | assign top rest f hseq hline => exact (assignmentOf_of_mem (List.mem_of_getElem? hline)).valid h
  | transfer => exact .of_invalid rfl
  | bufferError => exact .of_invalid rfl
  | byteError => exact .of_invalid rfl
  | _ => exact h

theorem keeps_busy (e : TickEffect p b b') (h : b.busy = !b.seq.isEmpty) : b'.busy = !b'.seq.isEmpty := by
  cases e with
  | assign top rest f hseq hline =>
    rw [hseq] at h
    exact ((assignmentOf_of_mem (List.mem_of_getElem? hline)).busy p b).trans h
  -- Elsewhere `BUSY` is cleared with the stack, or the stack is not empty before and after.
  | _ => simp_all

theorem keeps_stack (e : TickEffect p b b') (h : StackOk b.seq) : StackOk b'.seq := by
  cases e with
  | idle => exact h
  | discard => exact h
  | bufferError => exact .nil
  | byteError => exact .nil
  | testStop => exact .nil
  | finish => exact .nil
  | call top rest f hseq hline =>
    exact (hseq ▸ h).pushed hline (calls_of_mem (List.mem_of_getElem? hline) p b).rank_lt
  | testGoto top rest f k hseq hline hflow =>
    obtain ⟨hop, hk⟩ := acq_of_goto (List.mem_of_getElem? hline) hflow
    refine (hseq ▸ h).moved ?_
    rw [hop, show (linesOf .acq).length = 17 from rfl]
    omega
  | returned top caller below hseq => exact (hseq ▸ h).popped
  | event top rest hseq hline =>
    obtain hline | ⟨k, hline⟩ := hline <;> exact (hseq ▸ h).next hline
  | assign top rest f hseq hline => exact (hseq ▸ h).next hline
  | transfer top rest rx hseq hline => exact (hseq ▸ h).next hline
  | length top rest l hseq hline => exact (hseq ▸ h).next hline
  | loopEnd top rest hseq hline => exact (hseq ▸ h).next hline
  | testNext top rest f hseq hline => exact (hseq ▸ h).next hline

theorem keeps_stopped (e : TickEffect p b b') (h : b.fault = true → b.seq = []) (hfault : b'.fault = true) :
    b'.seq = [] := by
  by_contra hgoes
  have hbefore : b.fault = true := by
    by_contra hno
    exact absurd ((e.goes_on hgoes).2 (Bool.eq_false_iff.mpr hno)) (by simp [hfault])
  rw [e.eq_of_idle (h hbefore)] at hgoes
  exact hgoes (h hbefore)

/-- `CNT` is set where the loop of a skip begins, and has run to 0 where it ends. -/
theorem keeps_counter (e : TickEffect s.params s.block b') (h : Inv s) (hcnt : b'.cnt ≠ 0) :
    b'.fault = true ∨ inDiscardLoop b'.seq = true := by
  cases e with
  | idle => exact h.counter hcnt
  | discard top rest hseq hline hrunning => exact h.counter hrunning
  | bufferError => exact .inl rfl
  | byteError => exact .inl rfl
  | loopEnd top rest hseq hline hdone => exact absurd hdone hcnt
  | assign top rest f hseq hline =>
    obtain hsame | hloop := assign_cnt hline s.params s.block
    · exact absurd (hsame.trans (h.cnt_eq_zero hseq (by simp [hline]))) hcnt
    · exact .inr ((inDiscardLoop_iff ⟨top.op, top.step + 1⟩ rest).mpr hloop)
  | event top rest hseq hline =>
    obtain hline | ⟨k, hline⟩ := hline <;> exact absurd (h.cnt_eq_zero hseq (by simp [hline])) hcnt
  | call top rest f hseq hline => exact absurd (h.cnt_eq_zero hseq (by simp [hline])) hcnt
  | transfer top rest rx hseq hline => exact absurd (h.cnt_eq_zero hseq (by simp [hline])) hcnt
  | length top rest l hseq hline => exact absurd (h.cnt_eq_zero hseq (by simp [hline])) hcnt
  | testNext top rest f hseq hline => exact absurd (h.cnt_eq_zero hseq (by simp [hline])) hcnt
  | testGoto top rest f k hseq hline => exact absurd (h.cnt_eq_zero hseq (by simp [hline])) hcnt
  | testStop top rest f st hseq hline => exact absurd (h.cnt_eq_zero hseq (by simp [hline])) hcnt
  | returned top caller below hseq hline => exact absurd (h.cnt_eq_zero hseq (by simp [hline])) hcnt
  | finish top hseq hline => exact absurd (h.cnt_eq_zero hseq (by simp [hline])) hcnt

theorem keeps_inv (e : TickEffect s.params s.block b') (h : Inv s) : Inv (setBlock b' s) where
  memory := e.keeps_memory h.memory
  busy := e.keeps_busy h.busy
  ranks := (e.keeps_stack h.stack).ranks
  steps := (e.keeps_stack h.stack).steps
  valid := e.keeps_valid h.valid
  counter := e.keeps_counter h
  stopped := e.keeps_stopped h.stopped

end TickEffect

/-! ### What a run, a request and a step of the machine keep -/

/-- A request that waits or is turned away leaves the block alone. -/
theorem operate_block_of_not_ready (i : Instr) (s : State) (h : ¬ Ready s) : (operate i s).block = s.block := by
  unfold operate
  split
  · rfl
  · next hidle =>
    split
    · rfl
    · next hfault => exact absurd ⟨Bool.eq_false_iff.mpr hidle, Bool.eq_false_iff.mpr hfault⟩ h

section
variable {p : Params} {C : Block → Prop} (htick : ∀ b b', C b → TickEffect p b b' → C b')
include htick

theorem tick_keeps_block (s : State) (hparams : s.params = p) (h : C s.block) : C (tick s).block := by
  subst hparams
  exact htick _ _ h (tick_effect s).1

theorem drive_keeps_block (n : Nat) (s : State) (hparams : s.params = p) (h : C s.block) : C (drive n s).block :=
  (drive_keeps (fun t => t.params = p ∧ C t.block)
    (fun t ht => ⟨(tick_effect t).2.trans ht.1, tick_keeps_block htick t ht.1 ht.2⟩) n s ⟨hparams, h⟩).2

/-- A request, accepted or not. -/
theorem operate_keeps_block (i : Instr) (s : State) (hparams : s.params = p)
    (haccept : Ready s → C { s.block with busy := true, seq := [⟨i, 0⟩] }) (h : C s.block) :
    C (operate i s).block := by
  by_cases hready : Ready s
  · rw [operate_ready i s hready]
    exact drive_keeps_block htick runBound (accept i s) hparams (haccept hready)
  · rw [operate_block_of_not_ready i s hready]
    exact h

/-- A step of the machine: what the engine's steps, an acceptance and a reset keep is kept. -/
theorem step_keeps_block (s t : State) (hparams : s.params = p) (hstep : step s = .next t)
    (haccept : ∀ i, Ready s → C { s.block with busy := true, seq := [⟨i, 0⟩] })
    (hreset : (∃ rest, s.env.host = .reset :: rest) → C Block.reset) (h : C s.block) : C t.block := by
  have htaken (rest : List HostAct) : C (tick (takeAction rest s)).block := tick_keeps_block htick _ hparams h
  have hgoes : C (tick s).block := tick_keeps_block htick s hparams h
  unfold step at hstep
  split at hstep
  · cases hstep; exact hgoes
  · cases hstep; exact htaken _
  · next rest hhost => cases hstep; exact hreset ⟨rest, hhost⟩
  · cases hstep
    unfold hostRead
    split
    · exact h
    · exact hgoes
  · cases hstep
    unfold hostFbRead
    split
    · exact h
    · exact hgoes
  · next w rest _ =>
    split at hstep
    · cases hstep; exact hgoes
    · unfold acceptWord at hstep
      split at hstep
      · cases hstep
        unfold rejectWord
        split <;> exact h
      · next i _ =>
        rw [exec_eq_operate] at hstep
        cases hstep
        exact operate_keeps_block htick i _ hparams (fun hready => haccept i ⟨hready.idle, hready.noFault⟩) h
  · next w rest _ =>
    split at hstep
    · cases hstep; exact hgoes
    · next hidle =>
      cases hstep
      unfold acceptStepped
      split
      · unfold rejectWord
        split <;> exact h
      · next i _ =>
        split
        · exact h
        · next hfault => exact haccept i ⟨Bool.eq_false_iff.mpr hidle, Bool.eq_false_iff.mpr hfault⟩

end

/-! ### The invariant -/

/-- The reset block meets the invariant, whatever the parameters are (spec/10 R40). -/
theorem inv_reset (s : State) : Inv (setBlock Block.reset s) :=
  ⟨rfl, rfl, rfl, rfl, ValidMeansAccepted.of_invalid rfl, fun h => absurd rfl h, fun _ => rfl⟩

theorem Inv.accept {s : State} (h : Inv s) (i : Instr) (hready : Ready s) :
    Inv (setBlock { s.block with busy := true, seq := [⟨i, 0⟩] } s) := by
  have hseq : s.block.seq = [] := by simpa [hready.idle] using h.busy
  have hcnt : s.block.cnt = 0 := by
    by_contra hcnt
    simpa [hready.noFault, hseq, inDiscardLoop] using h.counter hcnt
  refine ⟨h.memory, rfl, (StackOk.single i).ranks, (StackOk.single i).steps, h.valid, fun hne => absurd hcnt hne, ?_⟩
  exact fun hfault => absurd (hready.noFault.symm.trans hfault) Bool.false_ne_true

/-- Settles O58: the engine's steps keep the invariant case by case (`TickEffect.keeps_inv`), an acceptance starts from a
ready block, and reset meets it anew. -/
theorem stepKeepsInvariant : Obligations.StepKeepsInvariant := by
  intro s t hinv hstep
  refine Inv.of_block (s := s) ?_ (step_extends s t hstep).params
  exact step_keeps_block (C := fun b => Inv (setBlock b s)) (fun b _ h e => e.keeps_inv (s := setBlock b s) h) s t rfl hstep
    (fun i hready => hinv.accept i hready) (fun _ => inv_reset s) hinv

/-- Settles O57: the state after reset holds the reset block (`inv_reset`). -/
theorem resetMeetsInvariant : Obligations.ResetMeetsInvariant := inv_reset State.reset

/-- Settles O59: the ranks rise strictly from the innermost operation to the outermost and are at most 4. -/
theorem sequencerStackHasAtMostFive : Obligations.SequencerStackHasAtMostFive := by
  intro s hinv
  have hranks := hinv.ranks
  cases hseq : s.block.seq with
  | nil => simp
  | cons top rest =>
    rw [hseq] at hranks
    have hroom := StackOk.rank_add_callers_le rest top hranks
    simp only [List.length_cons]
    omega

end Sys2Proof.Machine

/-! SUPPORT. What an operation leaves of the registers it does not own (spec/10 R22 to R30), and the read port (R44, R45). -/

namespace Sys2Proof.Machine

/-! ### Result registers and their flags -/

/-- The result-valid flags set in the first block are set in the second (spec/10 R26). -/
structure ResultFlagsKept (b b' : Block) : Prop where
  rvR : b.rvR = true → b'.rvR = true
  rvI : b.rvI = true → b'.rvI = true
  rvRG : b.rvRG = true → b'.rvRG = true
  rvIG : b.rvIG = true → b'.rvIG = true

theorem ResultFlagsKept.trans {b c d : Block} (h : ResultFlagsKept b c) (h' : ResultFlagsKept c d) : ResultFlagsKept b d :=
  ⟨h'.rvR ∘ h.rvR, h'.rvI ∘ h.rvI, h'.rvRG ∘ h.rvRG, h'.rvIG ∘ h.rvIG⟩

theorem AssignmentOf.keeps_resultFlags {op : Instr} {f : Params → Block → Block} (h : AssignmentOf op f) (p : Params)
    (b : Block) : ResultFlagsKept b (f p b) := by
  cases h with
  | rdr => exact ⟨fun _ => rfl, id, id, id⟩
  | rdi => exact ⟨id, fun _ => rfl, id, id⟩
  | rdrg => exact ⟨id, id, fun _ => rfl, id⟩
  | rdig => exact ⟨id, id, id, fun _ => rfl⟩
  | _ => exact ⟨id, id, id, id⟩

theorem TickEffect.keeps_resultFlags {p : Params} {b b' : Block} (e : TickEffect p b b') : ResultFlagsKept b b' := by
  cases e with
  | assign top rest f hseq hline =>
    have hassign := (assignmentOf_of_mem (List.mem_of_getElem? hline)).keeps_resultFlags p b
    exact ⟨hassign.rvR, hassign.rvI, hassign.rvRG, hassign.rvIG⟩
  | _ => exact ⟨id, id, id, id⟩

/-- Settles O13: the engine sets a result-valid flag or leaves it, and nothing else but reset writes one. -/
theorem onlyResetClearsResultValid : Obligations.OnlyResetClearsResultValid := by
  intro s t hstep hnoreset
  have hkept : ResultFlagsKept s.block t.block :=
    step_keeps_block (C := ResultFlagsKept s.block) (fun _ _ h e => h.trans e.keeps_resultFlags) s t rfl hstep
      (fun _ _ => ⟨id, id, id, id⟩) (fun ⟨rest, hhost⟩ => absurd hhost (hnoreset rest)) ⟨id, id, id, id⟩
  exact ⟨hkept.rvR, hkept.rvI, hkept.rvRG, hkept.rvIG⟩

/-! ### Registers an operation does not own -/

/-- The frame principle for registers that only assignments write: neither the Frame Buffer, `LEN`, `CNT`, the sequencer nor
the flags the engine itself writes are part of `g`. -/
theorem Untouched.of_registers {α : Type} {Q : Instr → Prop} {g : Block → α}
    (hregister : ∀ b fb len cnt seq busy fault fbValid, g { b with
      fb := fb, len := len, cnt := cnt, seq := seq, busy := busy, fault := fault, fbValid := fbValid } = g b)
    (hclosed : ∀ op callee p b, Q op → Calls p b op callee → Q callee)
    (hassign : ∀ op f p b, Q op → AssignmentOf op f → g (f p b) = g b) : Untouched Q g where
  position b q busy := hregister b b.fb b.len b.cnt q busy b.fault b.fbValid
  error b := hregister b b.fb b.len b.cnt b.seq b.busy true false
  closed op _ p b hop h := hclosed op _ p b hop (calls_of_mem h p b)
  assign op f p b hop h := hassign op f p b hop (assignmentOf_of_mem h)
  transfer _ _ _ b fb := hregister b fb b.len b.cnt b.seq b.busy b.fault false
  length _ _ _ b len := hregister b b.fb len b.cnt b.seq b.busy b.fault b.fbValid
  discard _ _ _ b cnt := hregister b b.fb b.len cnt b.seq b.busy b.fault b.fbValid

/-- `exec` in place of `operate`. -/
theorem Untouched.exec {α : Type} {Q : Instr → Prop} {g : Block → α} (h : Untouched Q g) {i : Instr} {s t : State}
    (hexec : Machine.exec i s = .next t) (hi : Q i) : g t.block = g s.block := by
  rw [exec_eq_operate] at hexec
  cases hexec
  exact h.operate i s hi

/-- No operation calls a read operation. -/
theorem Calls.ne_of_rank {p : Params} {b : Block} {op callee read : Instr} (h : Calls p b op callee)
    (hread : callRank read = 4) : callee ≠ read := by
  rintro rfl
  cases h <;> simp [callRank] at hread

theorem rngRaw_untouched : Untouched (· ≠ .rdr) (fun b => (b.rngRaw, b.rvR)) :=
  .of_registers (fun _ _ _ _ _ _ _ _ => rfl) (fun _ _ _ _ _ h => h.ne_of_rank rfl) (fun _ _ _ _ hop h => by
    cases h with
    | rdr => exact absurd rfl hop
    | _ => rfl)

theorem intRaw_untouched : Untouched (· ≠ .rdi) (fun b => (b.intRaw, b.rvI)) :=
  .of_registers (fun _ _ _ _ _ _ _ _ => rfl) (fun _ _ _ _ _ h => h.ne_of_rank rfl) (fun _ _ _ _ hop h => by
    cases h with
    | rdi => exact absurd rfl hop
    | _ => rfl)

theorem rgridRaw_untouched : Untouched (· ≠ .rdrg) (fun b => (b.rgridRaw, b.rvRG)) :=
  .of_registers (fun _ _ _ _ _ _ _ _ => rfl) (fun _ _ _ _ _ h => h.ne_of_rank rfl) (fun _ _ _ _ hop h => by
    cases h with
    | rdrg => exact absurd rfl hop
    | _ => rfl)

theorem igridRaw_untouched : Untouched (· ≠ .rdig) (fun b => (b.igridRaw, b.rvIG)) :=
  .of_registers (fun _ _ _ _ _ _ _ _ => rfl) (fun _ _ _ _ _ h => h.ne_of_rank rfl) (fun _ _ _ _ hop h => by
    cases h with
    | rdig => exact absurd rfl hop
    | _ => rfl)

/-- Settles O51, by the frame principle for each register with its flag. -/
theorem resultsWrittenByTheirOperationOnly : Obligations.ResultsWrittenByTheirOperationOnly := by
  intro i s t hexec
  exact ⟨fun hi => Prod.ext_iff.mp (rngRaw_untouched.exec hexec hi), fun hi => Prod.ext_iff.mp (intRaw_untouched.exec hexec hi),
    fun hi => Prod.ext_iff.mp (rgridRaw_untouched.exec hexec hi), fun hi => Prod.ext_iff.mp (igridRaw_untouched.exec hexec hi)⟩

theorem validationFlags_untouched :
    Untouched (fun op => callRank op < 3 ∧ op ≠ .val) (fun b => (b.magicOk, b.seqOk)) :=
  .of_registers (fun _ _ _ _ _ _ _ _ => rfl)
    (fun _ _ _ _ hop h => ⟨h.rank_lt.trans hop.1, by cases h <;> simp⟩)
    (fun _ _ _ _ hop h => by
      cases h with
      | val => exact absurd rfl hop.2
      | acqValidate => exact absurd hop.1 (Nat.lt_irrefl 3)
      | _ => rfl)

/-- Settles O53: of the operations below `ACQ` only `VAL` validates, and none of them calls it. -/
theorem validationFlagsWrittenByValidationOnly : Obligations.ValidationFlagsWrittenByValidationOnly := by
  intro i s t hexec hrank hval
  exact Prod.ext_iff.mp (validationFlags_untouched.exec hexec ⟨hrank, hval⟩)

theorem attempts_untouched : Untouched (fun op => callRank op < 3) (fun b => (b.attempts, b.lastErr)) :=
  .of_registers (fun _ _ _ _ _ _ _ _ => rfl) (fun _ _ _ _ hop h => h.rank_lt.trans hop) (fun _ _ _ _ hop h => by
    cases h with
    | acqStart => exact absurd hop (Nat.lt_irrefl 3)
    | acqAttempt => exact absurd hop (Nat.lt_irrefl 3)
    | acqFraming => exact absurd hop (Nat.lt_irrefl 3)
    | acqSequence => exact absurd hop (Nat.lt_irrefl 3)
    | _ => rfl)

/-- The operations below `ACQ` that have no `SKIPV` inside. -/
def ReadsNoLength (op : Instr) : Prop := callRank op < 3 ∧ op ≠ .skipv ∧ op ≠ .sync

/-- The operations that read no length byte are closed under calling. -/
theorem Calls.readsNoLength {p : Params} {b : Block} {op callee : Instr} (h : Calls p b op callee)
    (hop : ReadsNoLength op) : ReadsNoLength callee := by
  obtain ⟨hrank, -, hsync⟩ := hop
  refine ⟨h.rank_lt.trans hrank, ?_⟩
  cases h with
  | syncMode => exact absurd rfl hsync
  | syncFlush => exact absurd rfl hsync
  | syncSkip => exact absurd rfl hsync
  | acqSync => exact absurd hrank (Nat.lt_irrefl 3)
  | _ => simp

theorem len_untouched : Untouched ReadsNoLength (fun b => b.len) where
  position _ _ _ := rfl
  error _ := rfl
  closed _ _ p b hop h := (calls_of_mem h p b).readsNoLength hop
  assign _ _ _ _ _ h := by cases assignmentOf_of_mem h <;> rfl
  transfer _ _ _ _ _ := rfl
  length _ hop h := absurd (skipv_of_readLen_mem h) hop.2.1
  discard _ _ _ _ _ := rfl

theorem cnt_untouched : Untouched (fun op => op = .val ∨ op = .xfer ∨ ∃ c v, op = .enc c v) (fun b => b.cnt) where
  position _ _ _ := rfl
  error _ := rfl
  closed _ _ p b hop h := by
    have hrank := (calls_of_mem h p b).rank_lt
    obtain rfl | rfl | ⟨c, v, rfl⟩ := hop <;> exact absurd hrank (Nat.not_lt_zero _)
  assign _ _ _ _ hop h := by
    obtain rfl | rfl | ⟨c, v, rfl⟩ := hop <;> cases assignmentOf_of_mem h <;> rfl
  transfer _ _ _ _ _ := rfl
  length _ _ _ _ _ := rfl
  discard _ hop h := by
    obtain ⟨n, rfl⟩ | rfl := skip_of_discard_mem h <;> simp at hop

/-- Settles O55, by the frame principle for each counter. -/
theorem countersWrittenByTheirOperationsOnly : Obligations.CountersWrittenByTheirOperationsOnly := by
  intro i s t hexec
  exact ⟨fun hrank => Prod.ext_iff.mp (attempts_untouched.exec hexec hrank),
    fun hrank hskipv hsync => len_untouched.exec hexec ⟨hrank, hskipv, hsync⟩, cnt_untouched.exec hexec⟩

/-! ### The session registers -/

theorem mode_untouched : Untouched (fun op => callRank op = 0) (fun b => (b.mode, b.modeV)) :=
  .of_registers (fun _ _ _ _ _ _ _ _ => rfl)
    (fun _ _ _ _ hop h => absurd (hop ▸ h.rank_lt) (Nat.not_lt_zero _))
    (fun _ _ _ _ hop h => by
      cases h with
      | setmode m => exact absurd hop (by simp [callRank])
      | _ => rfl)

/-- `CONFIG` is called by the recovery of `ACQ` only, at line 10, with the recorded configuration (spec/43 R153). -/
theorem config_called {op : Instr} {k : Nat} {f : Params → Block → Instr} {p : Params} {b : Block} {d : Dist} {r : Rate}
    (hline : (linesOf op)[k]? = some (.call f)) (hcallee : f p b = .config d r) :
    (op = .acq ∧ k = 10) ∧ d = b.dist ∧ r = b.rate := by
  have hcalls := calls_of_mem (List.mem_of_getElem? hline) p b
  rw [hcallee] at hcalls
  cases hcalls
  refine ⟨⟨rfl, ?_⟩, rfl, rfl⟩
  obtain ⟨hk, hf⟩ := List.getElem?_eq_some_iff.mp hline
  replace hk : k < 17 := hk
  interval_cases k <;> cases hf
  · cases hcallee
  · cases hcallee
  · rfl

/-- The recovery is entered, at the test on line 8 of `ACQ`, with a configuration recorded only (spec/43 R152). -/
theorem acq_recovers_configured {f : Params → Block → Flow} {p : Params} {b : Block}
    (hline : (linesOf .acq)[8]? = some (.test f)) (hflow : f p b = .next) : b.cfgV = true := by
  cases hline
  by_contra hunset
  simp [hunset] at hflow

/-- The operations of a stack write no configuration but the one recorded in `b`: a `CONFIG` has its values, and where `ACQ`
is in its recovery it is recorded. A caller of another operation does not stand at the test that enters the recovery. -/
structure Reconfigures (b : Block) (q : List Position) : Prop where
  config : ∀ pos ∈ q, ∀ d r, pos.op = .config d r → d = b.dist ∧ r = b.rate ∧ b.cfgV = true
  recovery : ∀ pos ∈ q, pos.op = .acq → pos.step = 9 ∨ pos.step = 10 → b.cfgV = true
  callers : ∀ pos ∈ q.tail, pos.op = .acq → pos.step ≠ 8

namespace Reconfigures

variable {b : Block} {top caller : Position} {rest below : List Position}

theorem nil : Reconfigures b [] := ⟨by simp, by simp, by simp⟩

/-- An operation other than `CONFIG` is accepted. -/
theorem single {i : Instr} (h : ∀ d r, i ≠ .config d r) : Reconfigures b [⟨i, 0⟩] :=
  ⟨by simpa using fun d r hi => absurd hi (h d r), by simp, by simp⟩

theorem moved (h : Reconfigures b (top :: rest)) {k : Nat} (hk : top.op = .acq → k = 9 ∨ k = 10 → b.cfgV = true) :
    Reconfigures b (⟨top.op, k⟩ :: rest) where
  config := List.forall_mem_cons.mpr (List.forall_mem_cons.mp h.config)
  recovery := List.forall_mem_cons.mpr ⟨hk, (List.forall_mem_cons.mp h.recovery).2⟩
  callers := h.callers

/-- A step to the next line that does not pass the test that enters the recovery. -/
theorem next (h : Reconfigures b (top :: rest)) (htop : top.op = .acq → top.step ≠ 8) :
    Reconfigures b (⟨top.op, top.step + 1⟩ :: rest) := by
  refine h.moved fun hacq hk => h.recovery top (by simp) hacq ?_
  have := htop hacq
  omega

theorem pushed (h : Reconfigures b (top :: rest)) {callee : Instr} (htop : top.op = .acq → top.step ≠ 8)
    (hconfig : ∀ d r, callee = .config d r → d = b.dist ∧ r = b.rate ∧ b.cfgV = true) :
    Reconfigures b (⟨callee, 0⟩ :: top :: rest) where
  config := List.forall_mem_cons.mpr ⟨hconfig, h.config⟩
  recovery := List.forall_mem_cons.mpr ⟨by simp, h.recovery⟩
  callers := List.forall_mem_cons.mpr ⟨htop, h.callers⟩

theorem popped (h : Reconfigures b (top :: caller :: below)) :
    Reconfigures b (⟨caller.op, caller.step + 1⟩ :: below) := by
  obtain ⟨hcaller, hbelow⟩ := List.forall_mem_cons.mp h.callers
  have htail : Reconfigures b (caller :: below) :=
    ⟨(List.forall_mem_cons.mp h.config).2, (List.forall_mem_cons.mp h.recovery).2, hbelow⟩
  exact htail.next hcaller

end Reconfigures

/-- The block's configuration is that of `b₀`, and so it will stay. -/
structure ConfigurationKept (b₀ b : Block) : Prop where
  dist : b.dist = b₀.dist
  rate : b.rate = b₀.rate
  cfgV : b.cfgV = b₀.cfgV
  stack : Reconfigures b₀ b.seq

/-- Line 8 of `ACQ` is a test, so where any other line stands `ACQ` is not there. -/
theorem step_ne_eight_of_not_test {top : Position} {line : Line} (hline : (linesOf top.op)[top.step]? = some line)
    (hno : ∀ f, line ≠ .test f) (hacq : top.op = .acq) : top.step ≠ 8 := by
  intro hstep
  rw [hacq, hstep] at hline
  cases hline
  exact hno _ rfl

/-- An assignment rewrites the configuration with its own values, if at all. -/
theorem AssignmentOf.keeps_configuration {op : Instr} {f : Params → Block → Block} (h : AssignmentOf op f) (p : Params)
    (b : Block) (hop : ∀ d r, op = .config d r → d = b.dist ∧ r = b.rate ∧ b.cfgV = true) :
    (f p b).dist = b.dist ∧ (f p b).rate = b.rate ∧ (f p b).cfgV = b.cfgV := by
  cases h with
  | config d r =>
    obtain ⟨hd, hr, hc⟩ := hop d r rfl
    exact ⟨hd, hr, hc.symm⟩
  | _ => exact ⟨rfl, rfl, rfl⟩

theorem TickEffect.keeps_configuration {p : Params} {b₀ b b' : Block} (e : TickEffect p b b')
    (h : ConfigurationKept b₀ b) : ConfigurationKept b₀ b' := by
  obtain ⟨hdist, hrate, hcfgV, hstack⟩ := h
  have hnext {top : Position} {rest : List Position} {line : Line} (hseq : b.seq = top :: rest)
      (hline : (linesOf top.op)[top.step]? = some line) (hno : ∀ f, line ≠ .test f) :
      Reconfigures b₀ (⟨top.op, top.step + 1⟩ :: rest) :=
    (hseq ▸ hstack).next (step_ne_eight_of_not_test hline hno)
  cases e with
  | idle => exact ⟨hdist, hrate, hcfgV, hstack⟩
  | discard => exact ⟨hdist, hrate, hcfgV, hstack⟩
  | bufferError => exact ⟨hdist, hrate, hcfgV, .nil⟩
  | byteError => exact ⟨hdist, hrate, hcfgV, .nil⟩
  | testStop => exact ⟨hdist, hrate, hcfgV, .nil⟩
  | finish => exact ⟨hdist, hrate, hcfgV, .nil⟩
  | assign top rest f hseq hline =>
    obtain ⟨hd, hr, hc⟩ := (assignmentOf_of_mem (List.mem_of_getElem? hline)).keeps_configuration p b (by
      rw [hdist, hrate, hcfgV]
      exact hstack.config top (by simp [hseq]))
    exact ⟨hd.trans hdist, hr.trans hrate, hc.trans hcfgV, hnext hseq hline (by simp)⟩
  | call top rest f hseq hline =>
    refine ⟨hdist, hrate, hcfgV, (hseq ▸ hstack).pushed (step_ne_eight_of_not_test hline (by simp)) fun d r hcallee => ?_⟩
    obtain ⟨⟨hop, hk⟩, rfl, rfl⟩ := config_called hline hcallee
    exact ⟨hdist, hrate, hstack.recovery top (by simp [hseq]) hop (.inr hk)⟩
  | testNext top rest f hseq hline hflow =>
    refine ⟨hdist, hrate, hcfgV, (hseq ▸ hstack).moved fun hacq hk => ?_⟩
    obtain hk | hk := hk
    · rw [hacq, Nat.succ.inj hk] at hline
      exact hcfgV.symm.trans (acq_recovers_configured hline hflow)
    · exact hstack.recovery top (by simp [hseq]) hacq (.inl (Nat.succ.inj hk))
  | testGoto top rest f k hseq hline hflow =>
    obtain ⟨-, hk⟩ := acq_of_goto (List.mem_of_getElem? hline) hflow
    exact ⟨hdist, hrate, hcfgV, (hseq ▸ hstack).moved fun _ _ => by omega⟩
  | returned top caller below hseq => exact ⟨hdist, hrate, hcfgV, (hseq ▸ hstack).popped⟩
  | event top rest hseq hline =>
    obtain hline | ⟨k, hline⟩ := hline <;> exact ⟨hdist, hrate, hcfgV, hnext hseq hline (by simp)⟩
  | transfer top rest rx hseq hline => exact ⟨hdist, hrate, hcfgV, hnext hseq hline (by simp)⟩
  | length top rest l hseq hline => exact ⟨hdist, hrate, hcfgV, hnext hseq hline (by simp)⟩
  | loopEnd top rest hseq hline => exact ⟨hdist, hrate, hcfgV, hnext hseq hline (by simp)⟩

/-- Settles O52: `MODE` by the frame principle; the configuration because the only `CONFIG` inside another operation is that
of a recovery, which is entered with a configuration recorded and called with its values. -/
theorem sessionWrittenBySettersOnly : Obligations.SessionWrittenBySettersOnly := by
  intro i s t hexec
  refine ⟨fun hi => ?_, fun hrank => Prod.ext_iff.mp (mode_untouched.exec hexec hrank)⟩
  rw [exec_eq_operate] at hexec
  cases hexec
  by_cases hready : Ready s
  · rw [operate_ready i s hready]
    have hkept := drive_keeps_block (C := ConfigurationKept s.block) (fun _ _ h e => e.keeps_configuration h) runBound
      (accept i s) rfl ⟨rfl, rfl, rfl, .single hi⟩
    exact ⟨hkept.dist, hkept.rate, hkept.cfgV⟩
  · rw [operate_block_of_not_ready i s hready]
    exact ⟨rfl, rfl, rfl⟩

/-! ### Reset and the read port -/

/-- Reset acts at once (spec/70 R230). -/
theorem step_reset (s : State) (rest : List HostAct) (h : s.env.host = .reset :: rest) :
    step s = .next (resetBlock (takeAction rest s)) := by
  unfold step
  rw [h]

/-- Settles O10: the step is `resetBlock`, whose block is `Block.reset`, and an unlisted byte reads as `FB_RESET`. -/
theorem resetTakesStatedValues : Obligations.ResetTakesStatedValues := by
  intro s rest hhost
  exact ⟨_, step_reset s rest hhost, rfl, rfl, fun _ _ => rfl, rfl, rfl, rfl, rfl, rfl, rfl, rfl, rfl, rfl, rfl, rfl, rfl,
    rfl, rfl, rfl, rfl⟩

/-- `STATUS` bit by bit from the most significant (spec/10 R27). -/
theorem statusWord_concat (b : Block) : statusWord b =
    ((((((((0#1).concat b.modeV).concat b.cfgV).concat b.seqOk).concat b.magicOk).concat b.fbValid).concat b.fault).concat
      b.busy) := rfl

theorem statusWord_bits (b : Block) : (List.range 8).map (statusWord b).getLsbD =
    [b.busy, b.fault, b.fbValid, b.magicOk, b.seqOk, b.cfgV, b.modeV, false] := by
  simp [List.range_succ, statusWord_concat, BitVec.getElem_concat]

/-- `RESVALID` bit by bit from the most significant (spec/10 R44). -/
theorem resvalidWord_concat (b : Block) : resvalidWord b =
    ((((0#4).concat b.rvIG).concat b.rvRG).concat b.rvI).concat b.rvR := rfl

theorem resvalidWord_bits (b : Block) : (List.range 8).map (resvalidWord b).getLsbD =
    [b.rvR, b.rvI, b.rvRG, b.rvIG, false, false, false, false] := by
  simp [List.range_succ, resvalidWord_concat, BitVec.getElem_concat]

theorem sessionWord_bits (m : Mode) (d : Dist) (r : Rate) : (List.range 8).map (sessionWord m d r).getLsbD =
    [decide (m = .normal), decide (d = .long), decide (r = .high), false, false, false, false, false] := by
  cases m <;> cases d <;> cases r <;> decide

/-- Settles O17: each word is its bits concatenated. -/
theorem statusWordsHaveStatedBits : Obligations.StatusWordsHaveStatedBits :=
  fun b => ⟨statusWord_bits b, sessionWord_bits b.mode b.dist b.rate, resvalidWord_bits b⟩

/-- A read presented to the block (spec/10 R44). -/
theorem step_read (s : State) (sel : Byte) (rest : List HostAct) (h : s.env.host = .read sel :: rest) :
    step s = .next (hostRead sel rest s) := by
  unfold step
  rw [h]

theorem step_fbread (s : State) (idx : Byte) (rest : List HostAct) (h : s.env.host = .fbread idx :: rest) :
    step s = .next (hostFbRead idx rest s) := by
  unfold step
  rw [h]

/-- An accepted read stands in the history and changes nothing else. -/
theorem hostRead_accepted {s : State} {sel : Byte} {v : ReadWord} (rest : List HostAct) (h : readPort sel s = some v) :
    hostRead sel rest s = { s with env := { s.env with host := rest }, hist := .hostRead sel v :: s.hist } := by
  unfold hostRead
  rw [h]
  rfl

theorem hostRead_waits {s : State} {sel : Byte} (rest : List HostAct) (h : readPort sel s = none) :
    hostRead sel rest s = tick s := by
  unfold hostRead
  rw [h]

theorem hostFbRead_accepted {s : State} {idx : Byte} {v : Byte} (rest : List HostAct) (h : fbreadPort idx s = some v) :
    hostFbRead idx rest s = { s with env := { s.env with host := rest }, hist := .hostFbRead idx v :: s.hist } := by
  unfold hostFbRead
  rw [h]
  rfl

theorem hostFbRead_waits {s : State} {idx : Byte} (rest : List HostAct) (h : fbreadPort idx s = none) :
    hostFbRead idx rest s = tick s := by
  unfold hostFbRead
  rw [h]

/-- `STATUS` is read whether the engine runs or not (spec/10 R45). -/
theorem readPort_status (s : State) : readPort 0x00 s = some ((statusWord s.block).setWidth 48) := by
  simp [readPort, portValue]

theorem readPort_busy {s : State} (h : s.block.busy = true) {sel : Byte} (hsel : sel ≠ 0x00) : readPort sel s = none :=
  if_pos ⟨h, hsel⟩

theorem fbreadPort_busy {s : State} (h : s.block.busy = true) (idx : Byte) : fbreadPort idx s = none := if_pos h

theorem readPort_idle {s : State} (h : s.block.busy = false) (sel : Byte) : readPort sel s = some (portValue s sel) :=
  if_neg (by simp [h])

theorem fbreadPort_idle {s : State} (h : s.block.busy = false) (idx : Byte) :
    fbreadPort idx s = some (fbRead s.params s.block.fb idx.toNat) :=
  if_neg (by simp [h])

/-- Settles O15: the port accepts `STATUS` alone, and what it does not accept is a step of the engine, which takes nothing
from the host's script. -/
theorem onlyStatusReadableWhileBusy : Obligations.OnlyStatusReadableWhileBusy := by
  intro s hbusy
  refine ⟨readPort_status s, fun rest hhost => ?_, fun sel => readPort_busy hbusy, fbreadPort_busy hbusy,
    fun sel rest hsel hhost => ⟨?_, (tick_host s).trans hhost⟩, fun idx rest hhost => ⟨?_, (tick_host s).trans hhost⟩⟩
  · rw [step_read s _ rest hhost, hostRead_accepted rest (readPort_status s)]
  · rw [step_read s _ rest hhost, hostRead_waits rest (readPort_busy hbusy hsel)]
  · rw [step_fbread s _ rest hhost, hostFbRead_waits rest (fbreadPort_busy hbusy idx)]

/-! ### The table of the read port (spec/10 R44) -/

/-- The selects between the rows of R44's table, and those past its end, read as 0. -/
theorem portValue_unassigned (s : State) (sel : Byte)
    (h : (0x06 ≤ sel.toNat ∧ sel.toNat < 0x10) ∨ (0x16 ≤ sel.toNat ∧ sel.toNat < 0x20) ∨ 0xA0 ≤ sel.toNat) :
    portValue s sel = 0 := by
  simp (disch := omega) only [portValue, if_neg]

theorem portValue_rangeCell (s : State) (i : Fin 32) :
    portValue s (BitVec.ofNat 8 (0x20 + i)) = (shownRgrid s i).setWidth 48 := by
  have hn : (BitVec.ofNat 8 (0x20 + i)).toNat = 0x20 + i := Nat.mod_eq_of_lt (by omega)
  simp (disch := omega) only [portValue, hn, if_neg, if_pos, Nat.add_sub_cancel_left]

theorem portValue_rangeCellView (s : State) (i : Fin 32) :
    portValue s (BitVec.ofNat 8 (0x40 + i)) = BitVec.ofNat 48 (rangeQ (shownRgrid s i)) := by
  have hn : (BitVec.ofNat 8 (0x40 + i)).toNat = 0x40 + i := Nat.mod_eq_of_lt (by omega)
  simp (disch := omega) only [portValue, hn, if_neg, if_pos, Nat.add_sub_cancel_left]

theorem portValue_intensityCell (s : State) (i : Fin 32) :
    portValue s (BitVec.ofNat 8 (0x60 + i)) = (shownIgrid s i).setWidth 48 := by
  have hn : (BitVec.ofNat 8 (0x60 + i)).toNat = 0x60 + i := Nat.mod_eq_of_lt (by omega)
  simp (disch := omega) only [portValue, hn, if_neg, if_pos, Nat.add_sub_cancel_left]

theorem portValue_intensityCellView (s : State) (i : Fin 32) :
    portValue s (BitVec.ofNat 8 (0x80 + i)) = (intensityQ (shownIgrid s i)).setWidth 48 := by
  have hn : (BitVec.ofNat 8 (0x80 + i)).toNat = 0x80 + i := Nat.mod_eq_of_lt (by omega)
  simp (disch := omega) only [portValue, hn, if_neg, if_pos, Nat.add_sub_cancel_left]

theorem shownRng_valid {s : State} (h : s.block.rvR = true) : shownRng s = s.block.rngRaw := if_pos h

theorem shownInt_valid {s : State} (h : s.block.rvI = true) : shownInt s = s.block.intRaw := if_pos h

theorem shownRgrid_valid {s : State} (h : s.block.rvRG = true) (i : Fin 32) : shownRgrid s i = s.block.rgridRaw[i] := by
  simp [shownRgrid, h]

theorem shownIgrid_valid {s : State} (h : s.block.rvIG = true) (i : Fin 32) : shownIgrid s i = s.block.igridRaw[i] := by
  simp [shownIgrid, h]

theorem shownSession_valid {s : State} (hmode : s.block.modeV = true) (hcfg : s.block.cfgV = true) :
    shownSession s = sessionWord s.block.mode s.block.dist s.block.rate := by
  simp [shownSession, hmode, hcfg]

/-- Settles O16: the port holds `portValue` for each select, and an idle block accepts every read. -/
theorem readPortReturnsTable : Obligations.ReadPortReturnsTable := by
  intro s hidle
  have hport := readPort_idle hidle
  simp only [hport, Option.some.injEq]
  refine ⟨rfl, ?_, rfl, rfl, rfl, rfl, ?_, ?_, ?_, ?_, portValue_unassigned s, fbreadPort_idle hidle, ?_, ?_⟩
  · intro hmode hcfg
    rw [← shownSession_valid hmode hcfg]
    rfl
  · intro hvalid
    rw [← shownRng_valid hvalid]
    exact ⟨rfl, rfl, rfl, rfl⟩
  · intro hvalid
    rw [← shownInt_valid hvalid]
    exact ⟨rfl, rfl⟩
  · intro hvalid i
    rw [portValue_rangeCell, portValue_rangeCellView, shownRgrid_valid hvalid]
    exact ⟨rfl, rfl⟩
  · intro hvalid i
    rw [portValue_intensityCell, portValue_intensityCellView, shownIgrid_valid hvalid]
    exact ⟨rfl, rfl⟩
  · intro sel rest hhost
    exact ⟨_, rfl, by rw [step_read s sel rest hhost, hostRead_accepted rest (hport sel)]⟩
  · intro idx rest hhost
    rw [step_fbread s idx rest hhost, hostFbRead_accepted rest (fbreadPort_idle hidle idx)]

end Sys2Proof.Machine

/-! SUPPORT. The decode functions' reads of the Frame Buffer (spec/20 R50). -/

namespace Sys2Proof.Machine

/-! ### Multi-byte reads -/

/-- In a concatenation the left operand is the more significant. -/
theorem toNat_append_eq_add {m n : Nat} (x : BitVec m) (y : BitVec n) :
    (x ++ y).toNat = x.toNat * 2 ^ n + y.toNat := by
  rw [BitVec.toNat_append, ← Nat.shiftLeft_add_eq_or_of_lt y.isLt, Nat.shiftLeft_eq]

theorem memRead2_toNat (p : Params) (fb : Memory) (a : Nat) :
    (memRead2 p fb a).toNat = (fbRead p fb a).toNat * 2 ^ 8 + (fbRead p fb (a + 1)).toNat :=
  toNat_append_eq_add _ _

theorem memRead4_toNat (p : Params) (fb : Memory) (a : Nat) :
    (memRead4 p fb a).toNat = (fbRead p fb a).toNat * 2 ^ 24 + (fbRead p fb (a + 1)).toNat * 2 ^ 16
      + (fbRead p fb (a + 2)).toNat * 2 ^ 8 + (fbRead p fb (a + 3)).toNat := by
  simp only [memRead4, toNat_append_eq_add]
  ring

/-- Settles O18: a read is the concatenation of its bytes, the lowest offset leftmost. -/
theorem multiByteReadsAreBigEndian : Obligations.MultiByteReadsAreBigEndian :=
  fun p fb a => ⟨memRead4_toNat p fb a, memRead2_toNat p fb a⟩

end Sys2Proof.Machine

/-! SUPPORT. The opcode rows of R81 as sets of words: a word that a row selects, and a word that R83 does not call illegal,
is the word of some operation; the request port while the engine is idle and while it is busy; and the statements of the
encoding family (spec/30). -/

namespace Sys2Proof

/-- Settles O1: the decoder's row is found by the operation code, and each operand bit is read where it was put. -/
theorem decodeOfEncode : Obligations.DecodeOfEncode := decode_encode

/-! ### Operand bits that a row or a condition forbids -/

/-- A value whose bits above bit 0 are masked to 0 is one of the two codes of an operand bit (R82). -/
theorem eq_zero_or_eq_one_of_and_not_one {w : Nat} {x : BitVec w} (h : x &&& ~~~1#w = 0#w) : x = 0#w ∨ x = 1#w := by
  have hbit : x = x &&& 1#w := by
    calc x = x &&& (1#w ||| ~~~1#w) := by rw [BitVec.or_not_self, BitVec.and_allOnes]
      _ = (x &&& 1#w) ||| (x &&& ~~~1#w) := BitVec.and_or_distrib_left
      _ = x &&& 1#w := by rw [h, BitVec.or_zero]
  rw [BitVec.and_one_eq_setWidth_ofBool_getLsbD] at hbit
  cases hx : x.getLsbD 0 with
  | false => exact .inl (by simpa [hx] using hbit)
  | true => exact .inr (by simpa [hx, BitVec.setWidth_ofNat_one_eq_ofNat_one_of_lt] using hbit)

/-- A byte whose bits 7 to 1 are 0 is one of the two codes of an operand bit (R83 (c), (d)). -/
theorem eq_zero_or_eq_one_of_high_bits {x : Byte} (h : x.extractLsb' 1 7 = 0) : x = 0 ∨ x = 1 := by
  have hx : x.toNat / 2 % 128 = 0 := by
    simpa [BitVec.extractLsb'_toNat, Nat.shiftRight_eq_div_pow] using congrArg BitVec.toNat h
  bv_omega

/-- The operand bits of a word are its two operand bytes (R80). -/
theorem exists_operandBytes (n : Half) : ∃ a b : Byte, n = a ++ b :=
  ⟨n.extractLsb' 8 8, n.extractLsb' 0 8, BitVec.extractLsb'_eq_self.symm.trans
    (BitVec.extractLsb'_append_extractLsb'_eq_extractLsb' (start₁ := 0) (len₁ := 8) rfl).symm⟩

theorem operandBytes_eq_zero_iff {a b : Byte} : (a ++ b : Half) = 0 ↔ a = 0#8 ∧ b = 0#8 := by
  simp only [← BitVec.toNat_inj, Machine.toNat_append_eq_add]
  simp

/-! ### The words the rows select are the words of the operations (R81, R82) -/

/-- The operations that take no operand (R81). -/
def bareOperations : List Instr := [.xfer, .skipv, .sync, .val, .acq, .rdr, .rdi, .rdrg, .rdig]

theorem operandBits_bare : ∀ i ∈ bareOperations, operandBits i = 0 := by
  decide

theorem takesNoOperand_bare : ∀ i ∈ bareOperations, Request.takesNoOperand (encode i) = true := by
  decide

/-- The rows by what they allow of the operand bits: everything, single bits, or nothing. -/
theorem fieldRow_cases : ∀ r ∈ fieldRows,
    r = (0x01, 0x0000) ∨ r = (0x03, 0x0000) ∨ r = (0x06, 0xFFFE) ∨ r = (0x07, 0xFEFE) ∨
      r ∈ bareOperations.map (fun i => (opcode i, 0xFFFF#16)) := by
  simp [fieldRows, bareOperations, opcode]

/-- A selected word has the code of a row and none of the operand bits that row forbids. -/
theorem row_of_decode_isSome {op : Byte} {n : Half} (h : (decode (op ++ n)).isSome) :
    ∃ m, (op, m) ∈ fieldRows ∧ n &&& m = 0 := by
  rw [decode_fields] at h
  obtain ⟨i, hi⟩ := Option.isSome_iff_exists.1 h
  obtain ⟨⟨code, m⟩, hfind, -⟩ := Option.bind_eq_some_iff.1 hi
  obtain ⟨hop, hn⟩ : op = code ∧ n &&& m = 0 := by simpa using List.find?_some hfind
  exact ⟨m, hop ▸ List.mem_of_find?_eq_some hfind, hn⟩

/-- What a row allows is what the operands of its operation are assembled to. -/
theorem exists_encode_of_row {op : Byte} {n m : Half} (hrow : (op, m) ∈ fieldRows) (hn : n &&& m = 0) :
    ∃ i, encode i = op ++ n := by
  rcases fieldRow_cases _ hrow with h | h | h | h | h
  · cases h
    obtain ⟨c, v, rfl⟩ := exists_operandBytes n
    exact ⟨.enc c v, rfl⟩
  · cases h
    exact ⟨.skipn n, rfl⟩
  · cases h
    rcases eq_zero_or_eq_one_of_and_not_one hn with rfl | rfl
    · exact ⟨.setmode .sync, rfl⟩
    · exact ⟨.setmode .normal, rfl⟩
  · cases h
    obtain ⟨a, b, rfl⟩ := exists_operandBytes n
    obtain ⟨ha, hb⟩ : a &&& ~~~1#8 = 0#8 ∧ b &&& ~~~1#8 = 0#8 := by
      rwa [show (0xFEFE : Half) = ~~~1#8 ++ ~~~1#8 from rfl, BitVec.and_append, operandBytes_eq_zero_iff] at hn
    rcases eq_zero_or_eq_one_of_and_not_one ha with rfl | rfl <;>
      rcases eq_zero_or_eq_one_of_and_not_one hb with rfl | rfl
    · exact ⟨.config .short .low, rfl⟩
    · exact ⟨.config .short .high, rfl⟩
    · exact ⟨.config .long .low, rfl⟩
    · exact ⟨.config .long .high, rfl⟩
  · obtain ⟨i, hi, heq⟩ := List.mem_map.1 h
    cases heq
    obtain rfl : n = 0 := by rwa [show n &&& 0xFFFF#16 = n from BitVec.and_allOnes] at hn
    exact ⟨i, congrArg (opcode i ++ ·) (operandBits_bare i hi)⟩

/-- Settles O2: the word is selected by a row, so it is the word of an operation `j`, and decoding it gives `j`. -/
theorem encodeOfDecode : Obligations.EncodeOfDecode := by
  intro w i hdec
  rw [word_eq_fields w] at hdec ⊢
  obtain ⟨m, hrow, hn⟩ := row_of_decode_isSome (Option.isSome_of_eq_some hdec)
  obtain ⟨j, hj⟩ := exists_encode_of_row hrow hn
  rw [← hj, decode_encode] at hdec
  cases hdec
  exact hj

/-! ### The words R83 does not call illegal -/

theorem op_append (op : Byte) (n : Half) : Request.op (op ++ n) = op := BitVec.extractLsb'_append_eq_left

/-- What a legal word keeps to, one part for each of R83's four conditions. -/
theorem conditions_of_legal {op a b : Byte} (h : Request.legal (op ++ (a ++ b)) = true) :
    (op ≠ 0x00 ∧ op.toNat < 0x0E) ∧
      (Request.takesNoOperand (op ++ (a ++ b)) = true → a = 0 ∧ b = 0) ∧
      (op = 0x06 → a = 0 ∧ b.extractLsb' 1 7 = 0) ∧
      (op = 0x07 → a.extractLsb' 1 7 = 0 ∧ b.extractLsb' 1 7 = 0) := by
  have ha : Request.a (op ++ (a ++ b)) = a := operandByte_high op a b
  have hb : Request.b (op ++ (a ++ b)) = b := operandByte_low op a b
  simpa [Request.legal, Request.illegal, Request.unassignedOp, Request.strayOperand, Request.badSetmode, Request.badConfig,
    op_append, ha, hb, and_assoc, Nat.lt_succ_iff, imp_iff_not_or] using h

/-- The word of an operation is legal. -/
theorem legal_encode (i : Instr) : Request.legal (encode i) = true := by
  cases i with
  | enc c v => exact Laws.LegalWord.enc c v
  | xfer => exact Laws.LegalWord.xfer
  | skipn n => exact Laws.LegalWord.skipn n
  | skipv => exact Laws.LegalWord.skipv
  | sync => exact Laws.LegalWord.sync
  | setmode m => exact Laws.LegalWord.setmode m
  | config d r => exact Laws.LegalWord.config d r
  | val => exact Laws.LegalWord.val
  | acq => exact Laws.LegalWord.acq
  | rdr => exact Laws.LegalWord.rdr
  | rdi => exact Laws.LegalWord.rdi
  | rdrg => exact Laws.LegalWord.rdrg
  | rdig => exact Laws.LegalWord.rdig

/-- Every code that R83 (a) does not name has a row. -/
theorem code_has_row : ∀ op : Byte, op ≠ 0x00 → op.toNat < 0x0E → op ∈ fieldRows.map Prod.fst := by
  decide

/-- Whether R83 (b) is about a word is a matter of its code. -/
theorem takesNoOperand_append (op : Byte) (n n' : Half) :
    Request.takesNoOperand (op ++ n) = Request.takesNoOperand (op ++ n') := by
  simp [Request.takesNoOperand, op_append]

/-- The operand bits that R83 (b), (c) and (d) allow are those the row of the code allows. -/
theorem row_of_legal {op a b : Byte} (h : Request.legal (op ++ (a ++ b)) = true) :
    ∃ m, (op, m) ∈ fieldRows ∧ (a ++ b : Half) &&& m = 0 := by
  obtain ⟨⟨hne, hlt⟩, hstray, hmode, hconfig⟩ := conditions_of_legal h
  obtain ⟨⟨code, m⟩, hrow, hcode⟩ := List.mem_map.1 (code_has_row op hne hlt)
  obtain rfl : code = op := hcode
  refine ⟨m, hrow, ?_⟩
  rcases fieldRow_cases _ hrow with h | h | h | h | h
  · cases h
    exact BitVec.and_zero
  · cases h
    exact BitVec.and_zero
  · cases h
    obtain ⟨rfl, hb⟩ := hmode rfl
    rcases eq_zero_or_eq_one_of_high_bits hb with rfl | rfl <;> rfl
  · cases h
    obtain ⟨ha, hb⟩ := hconfig rfl
    rcases eq_zero_or_eq_one_of_high_bits ha with rfl | rfl <;>
      rcases eq_zero_or_eq_one_of_high_bits hb with rfl | rfl <;> rfl
  · obtain ⟨i, hi, heq⟩ := List.mem_map.1 h
    cases heq
    obtain ⟨rfl, rfl⟩ := hstray ((takesNoOperand_append _ _ _).trans (takesNoOperand_bare i hi))
    exact BitVec.zero_and

theorem exists_encode_of_legal {w : ReqWord} (h : Request.legal w = true) : ∃ i, encode i = w := by
  rw [word_eq_fields w] at h ⊢
  obtain ⟨a, b, hn⟩ := exists_operandBytes (w.extractLsb' 0 16)
  rw [hn] at h ⊢
  obtain ⟨m, hrow, hm⟩ := row_of_legal h
  exact exists_encode_of_row hrow hm

/-- Settles O3: a word that decodes is the word of an operation, which is legal; a legal word is in the row of its code. -/
theorem decodedWordsAreTheLegalOnes : Obligations.DecodedWordsAreTheLegalOnes := by
  intro w
  rw [Bool.eq_iff_iff]
  constructor
  · intro h
    obtain ⟨i, hi⟩ := Option.isSome_iff_exists.1 h
    rw [← encodeOfDecode w i hi]
    exact legal_encode i
  · intro h
    obtain ⟨i, rfl⟩ := exists_encode_of_legal h
    rw [decode_encode]
    rfl

/-- Settles O4: both rows give the code of the word, and no two rows have the same code. -/
theorem opcodeRowsAreDisjoint : Obligations.OpcodeRowsAreDisjoint := by
  intro w row row' hrow hrow' hsel hsel'
  have hcodes : (fieldRows.map Prod.fst).Nodup := by decide
  rw [opcodeRows_fields] at hrow hrow'
  obtain ⟨r, hr, rfl⟩ := List.mem_map.1 hrow
  obtain ⟨r', hr', rfl⟩ := List.mem_map.1 hrow'
  rw [word_eq_fields w, rowSelects_fields, Bool.and_eq_true, decide_eq_true_eq] at hsel hsel'
  rw [List.inj_on_of_nodup_map hcodes hr hr' (hsel.1.symm.trans hsel'.1)]

/-- Settles O5: each word is decoded. -/
theorem wordsOfEveryFamilyDecode : Obligations.WordsOfEveryFamilyDecode := by
  unfold Obligations.WordsOfEveryFamilyDecode
  decide

namespace Machine

/-! ### A word at the request port (R80) -/

theorem step_request_idle {s : State} {w : ReqWord} {rest : List HostAct} (hidle : s.block.busy = false)
    (hhost : s.env.host = .request w :: rest) : step s = acceptWord w (takeAction rest s) := by
  simp [step, hhost, hidle]

theorem step_request_busy {s : State} {w : ReqWord} {rest : List HostAct} (hbusy : s.block.busy = true)
    (hhost : s.env.host = .request w :: rest) : step s = .next (tick s) := by
  simp [step, hhost, hbusy]

/-- An accepted word is the operation it decodes to. -/
theorem acceptWord_of_decode {w : ReqWord} {i : Instr} (hdec : decode w = some i) (s : State) :
    acceptWord w s = exec i s := by
  rw [acceptWord, hdec]

/-- Settles O6: the idle block accepts the word, and the accepted word is its operation. -/
theorem stepRunsDecodedInstruction : Obligations.StepRunsDecodedInstruction :=
  fun s _ rest _ hidle hhost hdec =>
    (step_request_idle hidle hhost).trans (acceptWord_of_decode hdec (takeAction rest s))

/-- Settles O9: the busy block takes an engine step, and the engine leaves the host's script alone. -/
theorem requestWaitsWhileBusy : Obligations.RequestWaitsWhileBusy :=
  fun s _ _ hbusy hhost => ⟨step_request_busy hbusy hhost, (tick_host s).trans hhost⟩

end Machine

end Sys2Proof

/-! SUPPORT. How a request ends whose operation runs off its last line, for any operation with a known run; and the
statements of the command encoder family (spec/40). -/

namespace Sys2Proof.Machine

/-- A request to a ready block whose operation runs off its last line ends OK (spec/10 R24, spec/60 R200): what the run
left, the engine idle, `BUSY` 0 as the ready block had it, and the response delivered. -/
theorem exec_ok (i : Instr) (info : Half) (m n : Nat) (s t : State) (hready : Ready s) (hle : n + 1 ≤ runBound)
    (hrun : drive n (accept i s) = setSeq [⟨i, m⟩] t) (hend : (linesOf i)[m]? = none)
    (hinfo : responseInfo i .ok { t.block with seq := [⟨i, m⟩] } = info) :
    exec i s = .next (respond .ok info (setBlock { t.block with seq := [], busy := s.block.busy } t)) := by
  rw [hready.idle, ← hinfo]
  exact exec_done i (n + 1) s _ hready hle (finish_run i m n (accept i s) t hrun hend) rfl

/-- Settles O23: acceptance, `ENC`'s one assignment, and its end. -/
theorem encWritesCommandFrame : Obligations.EncWritesCommandFrame :=
  fun c v s hready =>
    exec_ok (.enc c v) 0 1 1 s _ hready (by decide) (enc_run c v [] (accept (.enc c v) s)) rfl rfl

/-- Settles O24: `ENC` leaves the stored command frame, which reads back as the bytes of R85. -/
theorem encRoundTrip : Obligations.EncRoundTrip := by
  intro c v s hready
  have hread := fbRead_fbStore s.params (commandFrame c v) (commandFrame_length c v)
  obtain ⟨hheader, hc, hlength, hv, htail, hzero⟩ := commandFrame_getD c v
  refine ⟨_, encWritesCommandFrame c v s hready, ?_⟩
  exact ⟨(hread 0 (by omega)).trans hheader, (hread 2 (by omega)).trans hlength, (hread 4 (by omega)).trans htail,
    (hread 1 (by omega)).trans hc, (hread 3 (by omega)).trans hv,
    fun i hlo hhi => (hread i (by omega)).trans (hzero i hlo)⟩

/-- Settles O25: acceptance, the transfer, `XFER`'s own `FBVALID <- 0`, and its end. -/
theorem xferExchangesFrame : Obligations.XferExchangesFrame :=
  fun s rx fs bs hready hlen hfails hbytes =>
    exec_ok .xfer 0 2 2 s _ hready (by decide) (xfer_run [] rx fs bs (accept .xfer s) hlen hfails hbytes) rfl rfl

end Sys2Proof.Machine

/-! SUPPORT. The statements of the frame synchronizer family (spec/41): its runs, what it leaves of the Frame Buffer, and two
runs of `SYNC` side by side. -/

namespace Sys2Proof.Machine

/-! ### Runs whose transfers succeed (spec/41 R120 to R122) -/

/-- A stretch of events after another. -/
theorem History.add_append (earlier later hist : List Event) :
    History.add (earlier ++ later) hist = History.add later (History.add earlier hist) := by
  simp [History.add]

/-- Settles O28: acceptance, `CNT <- n`, the loop's `n` discards, and the end. -/
theorem skipnDiscards : Obligations.SkipnDiscards := by
  intro n s rx fs bs hready hlen hfails hbytes
  have hbound : n.toNat + 2 + 1 ≤ runBound := by unfold runBound; omega
  have hrun := skipn_run n [] rx fs bs (accept (.skipn n) s) hlen hfails hbytes
  simp only [History.add_append]
  exact exec_ok (.skipn n) 0 2 (n.toNat + 2) s _ hready hbound hrun rfl rfl

/-- Settles O30: acceptance, the length byte, as many discards, and the end, whose `info` is `LEN`. -/
theorem skipvDiscardsLengthPrefixedRun : Obligations.SkipvDiscardsLengthPrefixedRun := by
  intro l s rx fs bs hready hlen hfails hbytes
  have hbound : l.toNat + 3 + 1 ≤ runBound := by unfold runBound; omega
  have hrun := skipv_run l [] rx fs bs (accept .skipv s) hlen hfails hbytes
  simp only [History.add_append]
  exact exec_ok .skipv (l.setWidth 16) 3 (l.toNat + 3) s _ hready hbound hrun rfl rfl

/-- Settles O31: acceptance, the run of `SYNC`'s three calls (`sync_run`), and the end. -/
theorem syncRunsInOrder : Obligations.SyncRunsInOrder := by
  intro s r1 f r2 rx l fs bs hready h1 h2 h3 h4 hfails hbytes
  have hbound : 537 + l.toNat + 1 ≤ runBound := by unfold runBound; omega
  have hrun := sync_run [] r1 f r2 rx l fs bs (accept .sync s) h1 h2 h3 h4 hfails hbytes
  have hexec := exec_ok .sync 0 3 (537 + l.toNat) s _ hready hbound hrun rfl rfl
  simp only [synced, History.add_append] at hexec ⊢
  exact hexec

/-! ### The Frame Buffer (spec/41 R120, R121, spec/43 R151) -/

/-- `VAL` and the skips transfer no frame, assign none, and call nothing. -/
theorem fb_untouched :
    Untouched (fun op => op = .val ∨ op = .skipv ∨ ∃ n, op = .skipn n) (fun b => b.fb) where
  position _ _ _ := rfl
  error _ := rfl
  closed _ _ p b hop h := by
    have hrank := (calls_of_mem h p b).rank_lt
    obtain rfl | rfl | ⟨n, rfl⟩ := hop <;> exact absurd hrank (Nat.not_lt_zero _)
  assign _ _ _ _ hop h := by
    obtain rfl | rfl | ⟨n, rfl⟩ := hop <;> cases assignmentOf_of_mem h <;> rfl
  transfer _ hop h := by
    obtain rfl | rfl | ⟨n, rfl⟩ := hop <;> simp [linesOf, valLines, skipvLines, skipnLines] at h
  length _ _ _ _ _ := rfl
  discard _ _ _ _ _ := rfl

/-- Settles O54: by the frame principle the cells are the same, and no operation changes `FB_RESET`. -/
theorem skipsAndValKeepFrameBuffer : Obligations.SkipsAndValKeepFrameBuffer := by
  intro i s t hi hexec a
  have hfb : t.block.fb = s.block.fb := fb_untouched.exec hexec hi
  have hparams : t.params = s.params := by
    rw [exec_eq_operate] at hexec
    cases hexec
    exact (operate_extends i s).params
  rw [hfb, hparams]

/-! ### Two runs side by side (spec/41 R124) -/

/-- Two runs that began with the histories `base` and `base'` look alike from outside the block: the parameters, the device
and the response port are the same, and the same events have been added. Nothing is said of the blocks. -/
structure Alike (base base' : List Event) (s s' : State) : Prop where
  params : s.params = s'.params
  env : s.env = s'.env
  rsp : s.rsp = s'.rsp
  hist : ∃ events, s.hist = History.add events base ∧ s'.hist = History.add events base'

/-- Two runs that look alike however long the engine is run. -/
def StayAlike (base base' : List Event) (s s' : State) : Prop := ∀ n, Alike base base' (drive n s) (drive n s')

/-- Two runs that stand at the same place `q` and agree on the part `g` of the block stay alike. So `g` holds all that the
lines to come read of the block before they write it. -/
def StayAlikeAt {α : Type} (base base' : List Event) (g : Block → α) (q : List Position) : Prop :=
  ∀ s s', Alike base base' s s' → g s.block = g s'.block → StayAlike base base' (setSeq q s) (setSeq q s')

/-- No part of the block. -/
def nothing (_ : Block) : Unit := ()

section
variable {base base' : List Event} {s s' : State} {α β : Type} {g : Block → α} {g' : Block → β} {op : Instr} {k : Nat}
  {rest : List Position}

/-! ### Being alike is no matter of the blocks -/

theorem Alike.setSeq (h : Alike base base' s s') (q q' : List Position) :
    Alike base base' (Machine.setSeq q s) (Machine.setSeq q' s') :=
  ⟨h.params, h.env, h.rsp, h.hist⟩

theorem Alike.setBlock (h : Alike base base' s s') (b b' : Block) :
    Alike base base' (Machine.setBlock b s) (Machine.setBlock b' s') :=
  ⟨h.params, h.env, h.rsp, h.hist⟩

theorem Alike.setEnv (h : Alike base base' s s') (e : Env) :
    Alike base base' (Machine.setEnv e s) (Machine.setEnv e s') :=
  ⟨h.params, rfl, h.rsp, h.hist⟩

theorem Alike.emit (h : Alike base base' s s') (ev : Event) : Alike base base' (Machine.emit ev s) (Machine.emit ev s') := by
  obtain ⟨events, hs, hs'⟩ := h.hist
  refine ⟨h.params, h.env, h.rsp, events ++ [ev], ?_, ?_⟩
  · rw [History.add_append, ← hs]; rfl
  · rw [History.add_append, ← hs']; rfl

theorem Alike.respond (h : Alike base base' s s') (st : Status) (info : Half) :
    Alike base base' (Machine.respond st info s) (Machine.respond st info s') :=
  have hemit := h.emit (.response (responseWord st info))
  ⟨hemit.params, hemit.env, rfl, hemit.hist⟩

/-- A byte transfer of two runs that are alike fails in both, or both receive the same byte; it writes no block state. -/
theorem Alike.busByte (h : Alike base base' s s') (tx : Byte) :
    ∃ rx t t', Machine.busByte tx s = (rx, t) ∧ Machine.busByte tx s' = (rx, t') ∧ Alike base base' t t' ∧
      t.block = s.block ∧ t'.block = s'.block := by
  unfold Machine.busByte
  rw [← h.env]
  generalize drawFail s.env = draw
  obtain ⟨failed, e⟩ := draw
  cases failed with
  | true => exact ⟨_, _, _, rfl, rfl, (h.setEnv e).emit _, rfl, rfl⟩
  | false => exact ⟨_, _, _, rfl, rfl, (h.setEnv (drawByte e).2).emit _, rfl, rfl⟩

/-- A buffer transfer of two runs that are alike and hold the same Frame Buffer. -/
theorem Alike.busBuf (h : Alike base base' s s') (hfb : s.block.fb = s'.block.fb) :
    ∃ done t t', Machine.busBuf s = (done, t) ∧ Machine.busBuf s' = (done, t') ∧ Alike base base' t t' ∧
      t.block.seq = s.block.seq ∧ t'.block.seq = s'.block.seq := by
  unfold Machine.busBuf
  rw [← h.env, ← h.params, ← hfb]
  generalize drawFail s.env = draw
  obtain ⟨failed, e⟩ := draw
  cases failed with
  | true => exact ⟨_, _, _, rfl, rfl, (h.setEnv e).emit _, rfl, rfl⟩
  | false =>
    dsimp only
    generalize drawBytes Config.frameSize e = received
    exact ⟨_, _, _, rfl, rfl, ((h.setBlock _ _).setEnv received.2).emit _, rfl, rfl⟩

/-! ### How a run of `SYNC` ends -/

/-- `SYNC` is the outermost operation of the callers `q`. -/
def InSync (q : List Position) : Prop := q.getLast?.map Position.op = some .sync

theorem InSync.cons {q : List Position} (h : InSync q) (top : Position) : InSync (top :: q) := by
  obtain ⟨last, hlast, hop⟩ := Option.map_eq_some_iff.mp h
  simp [InSync, List.getLast?_cons, hlast, hop]

/-- However `SYNC` ends, its `info` is 0 and the engine is idle. -/
theorem StayAlike.ended (h : Alike base base' s s') (hs : InSync s.block.seq) (hs' : InSync s'.block.seq) (st : Status) :
    StayAlike base base' (endOperation st s) (endOperation st s') := by
  intro n
  have hinfo (b : Block) (hb : InSync b.seq) : currentInfo st b = 0 := by
    unfold currentInfo outermost
    rw [hb]
    rfl
  rw [drive_idle n _ rfl, drive_idle n _ rfl, endOperation, endOperation, hinfo _ hs, hinfo _ hs']
  exact (h.setBlock _ _).respond st 0

theorem StayAlike.busError (h : Alike base base' s s') (hs : InSync s.block.seq) (hs' : InSync s'.block.seq) :
    StayAlike base base' (raiseBusError s) (raiseBusError s') :=
  .ended (h.setBlock { s.block with fault := true, fbValid := false } { s'.block with fault := true, fbValid := false })
    hs hs' .busErr

theorem StayAlike.bufferError (h : Alike base base' s s') (hs : InSync s.block.seq) (hs' : InSync s'.block.seq) :
    StayAlike base base' (raiseBufferError s) (raiseBufferError s') := by
  have hframe := (h.setBlock { s.block with fb := fbStore s.params (freeFrame s.env) }
    { s'.block with fb := fbStore s'.params (freeFrame s'.env) }).setEnv { s.env with drawn := s.env.drawn + 1 }
  refine .busError (s := setEnv _ _) (s' := setEnv _ _) ?_ hs hs'
  rw [h.env] at hframe ⊢
  exact hframe

/-! ### One line of both runs -/

theorem setSeq_of_seq {q : List Position} (h : s.block.seq = q) : setSeq q s = s := by
  rw [← h, setSeq_self]

/-- One step of both runs. -/
theorem StayAlike.step (h : Alike base base' s s') (hstep : StayAlike base base' (tick s) (tick s')) :
    StayAlike base base' s s' := by
  intro n
  cases n with
  | zero => exact h
  | succ n =>
    rw [Nat.add_comm, drive_add, drive_add, drive_one, drive_one]
    exact hstep n

/-- One line of both runs. -/
theorem StayAlike.line {line : Line} (hline : (linesOf op)[k]? = some line) (h : Alike base base' s s')
    (hrun : StayAlike base base' (runLine line ⟨op, k⟩ rest (setSeq (⟨op, k⟩ :: rest) s))
      (runLine line ⟨op, k⟩ rest (setSeq (⟨op, k⟩ :: rest) s'))) :
    StayAlike base base' (setSeq (⟨op, k⟩ :: rest) s) (setSeq (⟨op, k⟩ :: rest) s') := by
  refine .step (h.setSeq _ _) ?_
  rw [tick_at op k rest line s hline, tick_at op k rest line s' hline]
  exact hrun

/-- An assignment from which the two runs agree on `g'`. -/
theorem StayAlikeAt.assign {f : Params → Block → Block} (hline : (linesOf op)[k]? = some (.assign f))
    (hf : ∀ p b q, { f p { b with seq := q } with seq := [] } = { f p b with seq := [] })
    (hagree : ∀ p b b', g b = g b' → g' (f p b) = g' (f p b'))
    (hnext : StayAlikeAt base base' g' (⟨op, k + 1⟩ :: rest)) : StayAlikeAt base base' g (⟨op, k⟩ :: rest) := by
  intro s s' h hg
  refine .step (h.setSeq _ _) ?_
  rw [tick_assign op k rest f s hline (hf _ _), tick_assign op k rest f s' hline (hf _ _)]
  refine hnext _ _ (h.setBlock _ _) ?_
  show g' (f s.params s.block) = g' (f s'.params s'.block)
  rw [← h.params]
  exact hagree _ _ _ hg

/-- A call whose arguments are parameters. -/
theorem StayAlikeAt.call {callee : Params → Instr} (hline : (linesOf op)[k]? = some (.call (fun p _ => callee p)))
    (hcallee : ∀ p, StayAlikeAt base base' g (⟨callee p, 0⟩ :: ⟨op, k⟩ :: rest)) :
    StayAlikeAt base base' g (⟨op, k⟩ :: rest) := by
  intro s s' h hg
  refine .step (h.setSeq _ _) ?_
  rw [tick_call op k rest _ s hline, tick_call op k rest _ s' hline]
  simp only [← h.params]
  exact hcallee s.params s s' h hg

/-- A nested operation past its last line. -/
theorem StayAlikeAt.returned {caller : Position} (hline : (linesOf op)[k]? = none)
    (hnext : StayAlikeAt base base' g (⟨caller.op, caller.step + 1⟩ :: rest)) :
    StayAlikeAt base base' g (⟨op, k⟩ :: caller :: rest) := by
  intro s s' h hg
  refine .step (h.setSeq _ _) ?_
  rw [tick_return op k caller rest s hline, tick_return op k caller rest s' hline]
  exact hnext s s' h hg

theorem StayAlikeAt.delay (hline : (linesOf op)[k]? = some .delay)
    (hnext : StayAlikeAt base base' g (⟨op, k + 1⟩ :: rest)) : StayAlikeAt base base' g (⟨op, k⟩ :: rest) := by
  intro s s' h hg
  refine .step (h.setSeq _ _) ?_
  rw [tick_delay op k rest s hline, tick_delay op k rest s' hline]
  exact hnext _ _ (h.emit _) hg

/-- A buffer transfer sends the Frame Buffer. -/
theorem StayAlikeAt.transfer (hline : (linesOf op)[k]? = some .busBuf) (hrest : InSync rest)
    (hnext : StayAlikeAt base base' nothing (⟨op, k + 1⟩ :: rest)) :
    StayAlikeAt base base' Block.fb (⟨op, k⟩ :: rest) := by
  intro s s' h hfb
  refine .line hline h ?_
  obtain ⟨done, t, t', ht, ht', halike, hseq, hseq'⟩ := (h.setSeq (⟨op, k⟩ :: rest) (⟨op, k⟩ :: rest)).busBuf hfb
  simp only [runLine, transferFrame, ht, ht']
  cases done with
  | true => exact hnext t t' halike rfl
  | false => exact .bufferError halike (hseq ▸ hrest.cons ⟨op, k⟩) (hseq' ▸ hrest.cons ⟨op, k⟩)

/-- A length byte is the same in both runs. -/
theorem StayAlikeAt.readLen (hline : (linesOf op)[k]? = some .readLen) (hrest : InSync rest)
    (hnext : StayAlikeAt base base' Block.len (⟨op, k + 1⟩ :: rest)) :
    StayAlikeAt base base' nothing (⟨op, k⟩ :: rest) := by
  intro s s' h _
  refine .line hline h ?_
  obtain ⟨rx, t, t', ht, ht', halike, hblock, hblock'⟩ :=
    (h.setSeq (⟨op, k⟩ :: rest) (⟨op, k⟩ :: rest)).busByte s.params.skipFill
  simp only [runLine, readLength, setSeq_params, ← h.params, ht, ht']
  cases rx with
  | none => exact .busError halike (hblock ▸ hrest.cons ⟨op, k⟩) (hblock' ▸ hrest.cons ⟨op, k⟩)
  | some l => exact hnext _ _ (halike.setBlock _ _) rfl

/-- After one discard of a skip's loop is counted. -/
def counted (s : State) : State := setBlock { s.block with cnt := s.block.cnt - 1 } s

/-- The loop of a skip takes as many transfers in both runs. -/
theorem StayAlikeAt.discards (hline : (linesOf op)[k]? = some .discard) (hrest : InSync rest)
    (hnext : StayAlikeAt base base' nothing (⟨op, k + 1⟩ :: rest)) :
    StayAlikeAt base base' Block.cnt (⟨op, k⟩ :: rest) := by
  intro s s' h hcnt
  induction hn : s.block.cnt.toNat generalizing s s' with
  | zero =>
    have hzero : s.block.cnt = 0 := BitVec.eq_of_toNat_eq hn
    refine .line hline h ?_
    simp only [runLine, discardOne, setSeq_block, hzero, ← hcnt, if_true]
    exact hnext s s' h rfl
  | succ n ih =>
    have hne : s.block.cnt ≠ 0 := by
      rintro hzero
      simp [hzero] at hn
    refine .line hline h ?_
    obtain ⟨rx, t, t', ht, ht', halike, hblock, hblock'⟩ :=
      (h.setSeq (⟨op, k⟩ :: rest) (⟨op, k⟩ :: rest)).busByte s.params.skipFill
    simp only [runLine, discardOne, setSeq_block, ← hcnt, hne, if_false, setSeq_params, ← h.params, ht, ht']
    cases rx with
    | none => exact .busError halike (hblock ▸ hrest.cons ⟨op, k⟩) (hblock' ▸ hrest.cons ⟨op, k⟩)
    | some rx =>
      have hleft : (counted t).block.cnt.toNat = n := by
        show (t.block.cnt - 1).toNat = n
        rw [hblock, setSeq_block]
        bv_omega
      have hgo := ih (counted t) (counted t') (halike.setBlock _ _) (by simp [counted, hblock, hblock', hcnt]) hleft
      have hseq : t.block.seq = ⟨op, k⟩ :: rest := congrArg Block.seq hblock
      have hseq' : t'.block.seq = ⟨op, k⟩ :: rest := congrArg Block.seq hblock'
      rw [setSeq_of_seq (s := counted t) hseq, setSeq_of_seq (s := counted t') hseq'] at hgo
      exact hgo

/-! ### The operations of `SYNC`, each from its first line, given what follows its end -/

/-- `SKIPN` reads nothing it has not written (spec/41 R120). -/
theorem StayAlikeAt.skipn {n : Half} (hrest : InSync rest) (hend : StayAlikeAt base base' nothing (⟨.skipn n, 2⟩ :: rest)) :
    StayAlikeAt base base' nothing (⟨.skipn n, 0⟩ :: rest) :=
  .assign rfl (fun _ _ _ => rfl) (fun _ _ _ _ => rfl) (.discards rfl hrest hend)

/-- `SKIPV` takes its count from the byte it has read (spec/41 R121). -/
theorem StayAlikeAt.skipv (hrest : InSync rest) (hend : StayAlikeAt base base' nothing (⟨.skipv, 3⟩ :: rest)) :
    StayAlikeAt base base' nothing (⟨.skipv, 0⟩ :: rest) :=
  .readLen rfl hrest (.assign rfl (fun _ _ _ => rfl) (fun _ _ _ hlen => congrArg (BitVec.setWidth 16) hlen)
    (.discards rfl hrest hend))

/-- `call SKIPN(n)`. -/
theorem StayAlikeAt.flush {n : Half} (hline : (linesOf op)[k]? = some (.call (fun _ _ => .skipn n)))
    (hcaller : InSync (⟨op, k⟩ :: rest)) (hnext : StayAlikeAt base base' nothing (⟨op, k + 1⟩ :: rest)) :
    StayAlikeAt base base' nothing (⟨op, k⟩ :: rest) :=
  .call hline fun _ => .skipn hcaller (.returned rfl hnext)

/-- A command is encoded before it is sent, so what the Frame Buffer held before is not transmitted (spec/40 R113). -/
theorem StayAlikeAt.sendCmd {c v : Params → Byte} (hline : (linesOf op)[k]? = some (.call (fun p _ => .enc (c p) (v p))))
    (hline' : (linesOf op)[k + 1]? = some (.call (fun _ _ => .xfer))) (hrest : InSync rest)
    (hnext : StayAlikeAt base base' nothing (⟨op, k + 2⟩ :: rest)) :
    StayAlikeAt base base' nothing (⟨op, k⟩ :: rest) := by
  have hxfer : StayAlikeAt base base' Block.fb (⟨op, k + 1⟩ :: rest) :=
    .call hline' fun _ => .transfer rfl (hrest.cons _)
      (.assign rfl (fun _ _ _ => rfl) (fun _ _ _ _ => rfl) (.returned rfl hnext))
  exact .call hline fun _ => .assign rfl (fun _ _ _ => rfl) (fun _ _ _ _ => rfl) (.returned rfl hxfer)

/-- `SETMODE` sends constants (spec/42 R135). -/
theorem StayAlikeAt.setmode {m : Mode} (hrest : InSync rest)
    (hend : StayAlikeAt base base' nothing (⟨.setmode m, 6⟩ :: rest)) :
    StayAlikeAt base base' nothing (⟨.setmode m, 0⟩ :: rest) :=
  .assign rfl (fun _ _ _ => rfl) (fun _ _ _ _ => rfl) (.flush rfl (hrest.cons _) (.delay rfl
    (.sendCmd rfl rfl hrest (.delay rfl hend))))

/-- `SYNC` past its last line ends `OK(0)`. -/
theorem StayAlikeAt.syncEnd : StayAlikeAt base base' nothing [⟨.sync, 3⟩] := by
  intro s s' h _
  refine .step (h.setSeq _ _) ?_
  rw [tick_finish .sync 3 s rfl, tick_finish .sync 3 s' rfl]
  have hbottom : InSync [⟨.sync, 3⟩] := rfl
  exact .ended (h.setSeq [⟨.sync, 3⟩] [⟨.sync, 3⟩]) hbottom hbottom .ok

/-- `SYNC` as R122 writes it: `call SETMODE(Sync)`, `call SKIPN(256)`, `call SKIPV`, `end OK(0)`. -/
theorem StayAlikeAt.sync : StayAlikeAt base base' nothing [⟨.sync, 0⟩] :=
  .call rfl fun _ => .setmode rfl (.returned rfl (.flush rfl rfl (.call rfl fun _ => .skipv rfl (.returned rfl .syncEnd))))

end

/-- Settles O32: from the acceptance on, `SYNC` reads no register and no byte of the Frame Buffer that it has not written
itself, so the two runs stay alike. -/
theorem syncReadsNoBlockState : Obligations.SyncReadsNoBlockState := by
  intro s s' hready hready' hparams henv
  have haccepted : Alike s.hist s'.hist (accept .sync s) (accept .sync s') :=
    ⟨hparams, henv, rfl, [.request (encode .sync)], rfl, rfl⟩
  have hrun := StayAlikeAt.sync (accept .sync s) (accept .sync s') haccepted rfl runBound
  obtain ⟨events, hhist, hhist'⟩ := hrun.hist
  refine ⟨_, _, events, exec_eq_operate .sync s, exec_eq_operate .sync s', ?_⟩
  rw [operate_ready .sync s hready, operate_ready .sync s' hready']
  exact ⟨hhist, hhist', hrun.rsp⟩

end Sys2Proof.Machine

/-! SUPPORT. The statements of the mode and configuration setter family (spec/42): the runs of `SETMODE` and `CONFIG` whose
transfers succeed, requested of a ready block. -/

namespace Sys2Proof.Machine

/-- Settles O33: acceptance, the run of `SETMODE`'s six lines (`setmode_run`), and the end. -/
theorem setmodeRecordsFlushesAndSends : Obligations.SetmodeRecordsFlushesAndSends := by
  intro m s r f fs bs hready hr hf hfails hbytes
  have hrun := setmode_run m [] r f fs bs (accept (.setmode m) s) hr hf hfails hbytes
  have hexec := exec_ok (.setmode m) 0 6 270 s _ hready (by decide) hrun rfl rfl
  simp only [modeSet, History.add_append] at hexec ⊢
  exact hexec

/-- Settles O34: acceptance, the run of `CONFIG`'s ten lines (`config_run`), and the end. -/
theorem configRunsInOrder : Obligations.ConfigRunsInOrder := by
  intro d r s r1 f1 f2 r2 f3 r3 fs bs hready h1 h2 h3 h4 h5 h6 hfails hbytes
  have hrun := config_run d r [] r1 f1 f2 r2 f3 r3 fs bs (accept (.config d r) s) h1 h2 h3 h4 h5 h6 hfails hbytes
  have hexec := exec_ok (.config d r) 0 10 809 s _ hready (by decide) hrun rfl rfl
  simp only [configured, History.add_append] at hexec ⊢
  exact hexec

end Sys2Proof.Machine

/-! SUPPORT. The statements of the frame validator and acquisition loop family (spec/43): how a frame is classified, the runs of
`ACQ` over torn and misaligned frames, and the end of every bounded acquisition. -/

namespace Sys2Proof.Machine

/-! ### The class of a frame (spec/43 R150) -/

theorem magicMatches_eq (p : Params) (fb : Memory) : magicMatches p fb = decide (fbRead p fb 0 = 0xE9) := rfl

theorem sequenceMatches_eq (p : Params) (fb : Memory) :
    sequenceMatches p fb = decide (fbRead p fb 1 = fbRead p fb 255) := rfl

/-- A wrong magic is class 1 whatever else the buffer holds, unequal sequence bytes are class 2. -/
theorem frameClass_validate (p : Params) (b : Block) :
    frameClass (validate p b) =
      if fbRead p b.fb 0 ≠ 0xE9 then 1 else if fbRead p b.fb 1 ≠ fbRead p b.fb 255 then 2 else 0 := by
  simp only [frameClass, validate_magicOk, validate_seqOk, magicMatches_eq, sequenceMatches_eq, decide_eq_false_iff_not,
    ne_eq]

/-- `FBVALID` after a validation is the acceptance condition of R86. -/
theorem fbValid_validate (p : Params) (b : Block) :
    (validate p b).fbValid = decide (fbRead p b.fb 0 = 0xE9 ∧ fbRead p b.fb 1 = fbRead p b.fb 255) := by
  rw [validate_fbValid, magicMatches_eq, sequenceMatches_eq, Bool.decide_and]

/-- Settles O37: the class and `FBVALID` are both read off the magic and the sequence bytes. -/
theorem validationAcceptsExactly : Obligations.ValidationAcceptsExactly := by
  intro p b
  rw [frameClass_validate, fbValid_validate]
  refine ⟨fun hmagic => ?_, fun hmagic hseq => ?_, fun hmagic hseq => ?_⟩
  · exact ⟨if_pos hmagic, decide_eq_false fun h => hmagic h.1⟩
  · simp [hmagic, hseq]
  · simp [hmagic, hseq]

/-- `VAL` from its one line to its end. -/
theorem val_run (rest : List Position) (s : State) :
    drive 1 (setSeq (⟨.val, 0⟩ :: rest) s) = setSeq (⟨.val, 1⟩ :: rest) (updated validate s) :=
  (drive_one _).trans (tick_assign .val 0 rest validate s rfl (fun _ => rfl))

/-- The response word of `VAL`: the class of the frame as its `info`. -/
theorem responseWord_frameClass (p : Params) (b : Block) :
    responseWord .ok ((frameClass (validate p b)).setWidth 16) =
      if fbRead p b.fb 0 ≠ 0xE9 then 0x00001 else if fbRead p b.fb 1 ≠ fbRead p b.fb 255 then 0x00002 else 0x00000 := by
  rw [frameClass_validate]
  split
  · rfl
  · split <;> rfl

/-- Settles O36: acceptance, the one validation, and the end, whose `info` is the class. -/
theorem valClassifiesFrame : Obligations.ValClassifiesFrame := by
  intro s hready
  rw [← responseWord_frameClass s.params s.block, ← fbValid_validate]
  exact exec_ok .val ((frameClass (validate s.params s.block)).setWidth 16) 1 1 s _ hready (by decide)
    (val_run [] (accept .val s)) rfl rfl

/-! ### Torn frames (spec/43 R152, R154) -/

/-- `satinc` counts up to 0xFFFF and stays there (spec/10 R23). -/
theorem toNat_satinc (x : Half) : (satinc x).toNat = min (x.toNat + 1) 65535 := by
  unfold satinc
  split <;> bv_omega

theorem satinc_ofNat {k : Nat} (h : k < 65535) : satinc (BitVec.ofNat 16 k) = BitVec.ofNat 16 (k + 1) := by
  apply BitVec.eq_of_toNat_eq
  rw [toNat_satinc, BitVec.toNat_ofNat, BitVec.toNat_ofNat]
  omega

/-- The retry bound is not reached where there is none, or where fewer attempts than it allows were made (R155). -/
theorem boundReached_eq_false_iff {p : Params} {b : Block} :
    boundReached p b = false ↔ p.maxAttempts = 0 ∨ b.attempts.toNat < p.maxAttempts.toNat := by
  simp only [boundReached, Bool.and_eq_false_iff, decide_eq_false_iff_not, not_not, not_le, ne_eq]

/-- What an attempt that received a torn frame leaves at the next `step1` (`retry_run`). -/
def rejected (f : List Byte) (fs : List Bool) (bs : List Byte) (s : State) : State :=
  logError .sequence (updated (fun _ b => { b with lastErr := .sequence }) (attempted f fs bs s))

/-- What attempts that received these torn frames leave at the next `step1`; `fs` and `bs` are left of the scripts. -/
def retried : List (List Byte) → List Bool → List Byte → State → State
  | [], _, _, s => s
  | f :: more, fs, bs, s =>
    retried more fs bs (rejected f (List.replicate more.length false ++ fs) (more.flatten ++ bs) s)

@[simp] theorem retried_nil (fs : List Bool) (bs : List Byte) (s : State) : retried [] fs bs s = s := rfl

@[simp] theorem retried_cons (f : List Byte) (more : List (List Byte)) (fs : List Bool) (bs : List Byte) (s : State) :
    retried (f :: more) fs bs s =
      retried more fs bs (rejected f (List.replicate more.length false ++ fs) (more.flatten ++ bs) s) := rfl

/-- The scripts after the retries. -/
theorem retried_env (torn : List (List Byte)) (fs : List Bool) (bs : List Byte) (s : State)
    (hfails : s.env.fails = List.replicate torn.length false ++ fs) (hbytes : s.env.bytes = torn.flatten ++ bs) :
    (retried torn fs bs s).env = { s.env with fails := fs, bytes := bs } := by
  induction torn generalizing s with
  | nil =>
    obtain rfl : s.env.fails = fs := hfails
    obtain rfl : s.env.bytes = bs := hbytes
    rfl
  | cons f more ih => exact (ih _ rfl rfl).trans rfl

/-- The run over torn frames with the bound not reached: back at `step1`, nested or outermost. -/
theorem retries_run (rest : List Position) (torn : List (List Byte)) (fs : List Bool) (bs : List Byte) (s : State)
    (htorn : ∀ f ∈ torn, TornFrame f)
    (hbound : s.params.maxAttempts = 0 ∨ s.block.attempts.toNat + torn.length < s.params.maxAttempts.toNat)
    (hfails : s.env.fails = List.replicate torn.length false ++ fs) (hbytes : s.env.bytes = torn.flatten ++ bs) :
    drive (12 * torn.length) (setSeq (⟨.acq, 1⟩ :: rest) s) = setSeq (⟨.acq, 1⟩ :: rest) (retried torn fs bs s) := by
  induction torn generalizing s with
  | nil => rfl
  | cons f more ih =>
    have hcount := toNat_satinc s.block.attempts
    simp only [List.length_cons] at hbound
    have hone := retry_run rest f (List.replicate more.length false ++ fs) (more.flatten ++ bs) s
      (htorn f List.mem_cons_self) hfails (by simpa using hbytes)
      (boundReached_eq_false_iff.mpr (hbound.imp_right fun h => show (satinc s.block.attempts).toNat < _ by omega))
    have hmore := ih (rejected f (List.replicate more.length false ++ fs) (more.flatten ++ bs) s)
      (fun g hg => htorn g (List.mem_cons_of_mem f hg))
      (hbound.imp_right fun h => show (satinc s.block.attempts).toNat + more.length < s.params.maxAttempts.toNat by omega) rfl rfl
    rw [List.length_cons, Nat.mul_succ, Nat.add_comm]
    exact drive_trans hone hmore

/-- THE ATTEMPT AFTER TORN ONES, in one piece, `k` attempts having been made before: of the torn frames there is left `ATTEMPTS`,
`LASTERR` and their events (spec/70 R236). -/
theorem attempted_retried (f : List Byte) (torn : List (List Byte)) (k : Nat) (fs fs' : List Bool) (bs bs' : List Byte)
    (s : State) (hsize : ∀ g ∈ torn, g.length = 256) (hk : s.block.attempts = BitVec.ofNat 16 k)
    (hcount : k + torn.length < 65535) :
    attempted f fs bs (retried torn fs' bs' s) = { s with
      block := { s.block with
        fb := fbStore s.params f
        magicOk := magicMatches s.params (fbStore s.params f)
        seqOk := sequenceMatches s.params (fbStore s.params f)
        fbValid := magicMatches s.params (fbStore s.params f) && sequenceMatches s.params (fbStore s.params f)
        attempts := BitVec.ofNat 16 (k + torn.length + 1)
        lastErr := if torn = [] then s.block.lastErr else .sequence }
      env := { s.env with fails := fs, bytes := bs }
      hist := History.add (retryEvents (fbBytes s.params s.block.fb) (k + 1) torn f) s.hist } := by
  induction torn generalizing s k with
  | nil =>
    have hlast : satinc s.block.attempts = BitVec.ofNat 16 (k + 1) := hk ▸ satinc_ofNat hcount
    simp [attempted, hlast, History.add, retryEvents]
  | cons g more ih =>
    simp only [List.length_cons] at hcount
    have hnext : satinc s.block.attempts = BitVec.ofNat 16 (k + 1) := hk ▸ satinc_ofNat (by omega)
    have hsent := fbBytes_fbStore s.params g (hsize g List.mem_cons_self)
    have hmore := ih (k + 1) (rejected g (List.replicate more.length false ++ fs') (more.flatten ++ bs') s)
      (fun h hh => hsize h (List.mem_cons_of_mem g hh)) hnext (by omega)
    rw [retried_cons, hmore, List.length_cons, show k + (more.length + 1) + 1 = k + 1 + more.length + 1 by omega]
    simp [rejected, updated, attempted, logError, emit, setBlock, hsent, hnext, History.add, retryEvents, errCode]

/-- What line 0 of `ACQ` leaves (spec/43 R152). -/
def begun (s : State) : State := updated (fun _ b => { b with attempts := 0, lastErr := .none }) s

@[simp] theorem begun_params (s : State) : (begun s).params = s.params := rfl

/-- `ACQ` begins. -/
theorem tick_begun (rest : List Position) (s : State) :
    tick (setSeq (⟨.acq, 0⟩ :: rest) s) = setSeq (⟨.acq, 1⟩ :: rest) (begun s) :=
  tick_assign .acq 0 rest _ s rfl (fun _ => rfl)

/-- `ACQ` from its first line to its end, over torn frames and a good one. -/
theorem acq_retries_run (rest : List Position) (torn : List (List Byte)) (good : List Byte) (fs : List Bool)
    (bs : List Byte) (s : State) (htorn : ∀ f ∈ torn, TornFrame f) (hgood : GoodFrame good)
    (hbound : s.params.maxAttempts = 0 ∨ torn.length < s.params.maxAttempts.toNat)
    (hfails : s.env.fails = List.replicate (torn.length + 1) false ++ fs)
    (hbytes : s.env.bytes = torn.flatten ++ (good ++ bs)) :
    drive (1 + (12 * torn.length + 8)) (setSeq (⟨.acq, 0⟩ :: rest) s) =
      setSeq (⟨.acq, 17⟩ :: rest) (attempted good fs bs (retried torn (false :: fs) (good ++ bs) (begun s))) := by
  have hfails' : s.env.fails = List.replicate torn.length false ++ false :: fs := by
    simpa [List.replicate_succ'] using hfails
  have henv := retried_env torn (false :: fs) (good ++ bs) (begun s) hfails' hbytes
  have hretries := retries_run rest torn (false :: fs) (good ++ bs) (begun s) htorn
    (hbound.imp_right fun h => show 0 + torn.length < s.params.maxAttempts.toNat by omega) hfails' hbytes
  have haccept := accept_run rest good fs bs (retried torn (false :: fs) (good ++ bs) (begun s)) hgood
    (congrArg Env.fails henv) (congrArg Env.bytes henv)
  exact drive_cons (tick_begun rest s) (drive_trans hretries haccept)

/-- Settles O38: acceptance, the retries and the accepting attempt (`acq_retries_run`), and the end; what they leave in one piece
is `attempted_retried`. -/
theorem acqRetriesTornFrames : Obligations.AcqRetriesTornFrames := by
  intro s torn good fs bs hready htorn hgood hlen hbound hfails hbytes
  have hrun := acq_retries_run [] torn good fs bs (accept .acq s) htorn hgood hbound hfails hbytes
  have hsteps : 1 + (12 * torn.length + 8) + 1 ≤ runBound := by unfold runBound; omega
  obtain ⟨hmagic, hseq⟩ := hgood.matches s.params
  rw [attempted_retried good torn 0 _ _ _ _ _ (fun g hg => (htorn g hg).size) rfl (by omega), Nat.zero_add] at hrun
  simp only [begun_params, accept_params, hmagic, hseq, Bool.and_self] at hrun
  simp only [History.add_append]
  exact exec_ok .acq (BitVec.ofNat 16 (torn.length + 1)) 17 _ s _ hready hsteps hrun rfl rfl

/-- Settles O45: `ACQ` over no torn frame and the good one. -/
theorem acqAcceptsFirstFrame : Obligations.AcqAcceptsFirstFrame := by
  intro s good fs bs hready hgood hfails hbytes
  have hbound : s.params.maxAttempts = 0 ∨ 0 < s.params.maxAttempts.toNat := by
    rw [← BitVec.toNat_inj]
    exact Nat.eq_zero_or_pos _
  exact acqRetriesTornFrames s [] good fs bs hready (by simp) hgood (by simp) hbound hfails hbytes

/-! ### A misaligned frame (spec/43 R152, R153) -/

/-- What an attempt that received a misaligned frame leaves at the test of the bound (`misaligned_run`). -/
def misread (f : List Byte) (fs : List Bool) (bs : List Byte) (s : State) : State :=
  logError .framing (updated (fun _ b => { b with lastErr := .framing }) (attempted f fs bs s))

/-- What a recovery leaves at the next `step1`: `SYNC`, then `CONFIG` with the recorded distance and rate
(`recovery_run`). -/
def recovered (r1 f1 r2 rx r3 f2 f3 r4 f4 r5 : List Byte) (l : Byte) (fs fs' : List Bool) (bs bs' : List Byte)
    (s : State) : State :=
  configured s.block.dist s.block.rate r3 f2 f3 r4 f4 r5 fs' bs' (synced r1 f1 r2 l rx fs bs s)

/-- THE ACCEPTING ATTEMPT AFTER A RECOVERY, in one piece: it sends what the last transfer of the recovery received. -/
theorem attempted_recovered (bad good r1 f1 r2 rx r3 f2 f3 r4 f4 r5 : List Byte) (l : Byte) (fs0 fs1 fs2 fs : List Bool)
    (bs0 bs1 bs2 bs : List Byte) (s : State) (hf4 : f4.length = 256) (hgood : GoodFrame good) (hcfg : s.block.cfgV = true) :
    attempted good fs bs
        (recovered r1 f1 r2 rx r3 f2 f3 r4 f4 r5 l fs1 fs2 bs1 bs2 (misread bad fs0 bs0 s)) = { s with
      block := { s.block with
        fb := fbStore s.params good, magicOk := true, seqOk := true, fbValid := true
        attempts := satinc (satinc s.block.attempts), lastErr := .framing
        len := l, cnt := 0, mode := .normal, modeV := true }
      env := { s.env with fails := fs, bytes := bs }
      hist := History.add
        ([.busBuf (fbBytes s.params s.block.fb) (some bad), .log 1 (satinc s.block.attempts)]
          ++ discardEvents s.params.skipFill r1 ++ [settleEvent]
          ++ [commandEvent s.params.cmdMode s.params.modeValSync f1] ++ [settleEvent]
          ++ discardEvents s.params.skipFill r2 ++ discardEvents s.params.skipFill (l :: rx)
          ++ discardEvents s.params.skipFill r3 ++ [settleEvent]
          ++ [commandEvent s.params.cmdMode s.params.modeValNormal f2] ++ [settleEvent]
          ++ [commandEvent s.params.cmdDistance (distVal s.params s.block.dist) f3] ++ [settleEvent]
          ++ discardEvents s.params.skipFill r4
          ++ [commandEvent (rateCmd s.params s.block.rate) s.params.rateArg f4] ++ [settleEvent]
          ++ discardEvents s.params.skipFill r5
          ++ [.busBuf f4 (some good)]) s.hist } := by
  obtain ⟨hmagic, hseq⟩ := hgood.matches s.params
  have hsent := fbBytes_fbStore s.params f4 hf4
  simp [recovered, misread, attempted, configured, synced, hmagic, hseq, hsent, hcfg, updated, logError, emit, setBlock,
    History.add, errCode]

/-- The transfers of a misaligned attempt, of `SYNC`, of `CONFIG` and of the next attempt, where all succeed. -/
theorem recoveryFails_split (l : Nat) (fs : List Bool) :
    List.replicate (1287 + l) false ++ fs =
      false :: (List.replicate (514 + l) false ++ (List.replicate 771 false ++ false :: fs)) := by
  rw [show 1287 + l = 1 + (514 + l + (771 + 1)) by omega, List.replicate_add 1, List.replicate_add (514 + l),
    List.replicate_add 771 1, List.append_assoc, List.append_assoc, List.append_assoc]
  rfl

/-- Settles O39: acceptance, the misaligned attempt, the recovery with the recorded configuration, the accepting attempt, and the
end. -/
theorem acqRecoversFromFramingError : Obligations.AcqRecoversFromFramingError := by
  intro s bad good r1 f1 r2 rx r3 f2 f3 r4 f4 r5 l fs bs hready hcfg hmax hbad hgood h1 h2 h3 h4 h5 h6 h7 h8 h9 h10 hfails
    hbytes
  let fs2 := false :: fs
  let fs1 := List.replicate 771 false ++ fs2
  let fs0 := List.replicate (514 + l.toNat) false ++ fs1
  have hsplit : s.env.fails = false :: fs0 := hfails.trans (recoveryFails_split l.toNat fs)
  let bs2 := good ++ bs
  let bs1 := r3 ++ (f2 ++ (f3 ++ (r4 ++ (f4 ++ (r5 ++ bs2)))))
  let bs0 := r1 ++ (f1 ++ (r2 ++ l :: (rx ++ bs1)))
  let s0 := begun (accept .acq s)
  have hbound : boundReached s.params (misread bad fs0 bs0 s0).block = false := by
    apply boundReached_eq_false_iff.mpr
    show s.params.maxAttempts = 0 ∨ 1 < s.params.maxAttempts.toNat
    bv_omega
  have hmisaligned := misaligned_run [] bad fs0 bs0 s0 hbad hsplit hbytes
  have hrecovery := recovery_run [] r1 f1 r2 rx r3 f2 f3 r4 f4 r5 l fs2 bs2 (misread bad fs0 bs0 s0) hbound hcfg h1 h2 h3 h4
    h5 h6 h7 h8 h9 h10 rfl rfl
  have haccept := accept_run [] good fs bs
    (recovered r1 f1 r2 rx r3 f2 f3 r4 f4 r5 l fs1 fs2 bs1 bs2 (misread bad fs0 bs0 s0)) hgood rfl rfl
  rw [attempted_recovered bad good r1 f1 r2 rx r3 f2 f3 r4 f4 r5 l fs0 fs1 fs2 fs bs0 bs1 bs2 bs s0 h9 hgood hcfg] at haccept
  have hrun := drive_cons (tick_begun [] (accept .acq s)) (drive_trans hmisaligned (drive_trans hrecovery haccept))
  have hsteps : 1 + (9 + (1353 + l.toNat + 8)) + 1 ≤ runBound := by unfold runBound; omega
  have hexec := exec_ok .acq 2 17 _ s _ hready hsteps hrun rfl rfl
  simp only [History.add_append] at hexec ⊢
  exact hexec

/-! ### The end of a bounded acquisition (spec/43 R155, R156)

`EndsFrom p a n q` bounds the engine steps that are left from the stack `q`, whatever the device does, so one rule for each kind
of line bounds an operation by the steps of what follows it. -/

/-- An operation has ended and was answered, with `ATTEMPTS` within the bound. -/
structure Ended (bound : Half) (s : State) : Prop where
  idle : s.block.seq = []
  notBusy : s.block.busy = false
  answered : s.rsp.isSome = true
  counted : s.block.attempts.toNat ≤ bound.toNat

/-- From every state with parameters `p`, `ATTEMPTS` = `a` and `SEQ` = `q` the operation has ended after `n` engine steps. -/
def EndsFrom (p : Params) (a : Half) (n : Nat) (q : List Position) : Prop :=
  ∀ s : State, s.params = p → s.block.seq = q → s.block.attempts = a → Ended p.maxAttempts (drive n s)

/-- The operation has ended `n` engine steps after a test with this outcome. -/
def FlowEnds (p : Params) (a : Half) (n : Nat) (top : Position) (rest : List Position) : Flow → Prop
  | .next => EndsFrom p a n (⟨top.op, top.step + 1⟩ :: rest)
  | .goto k => EndsFrom p a n (⟨top.op, k⟩ :: rest)
  | .stop _ => a.toNat ≤ p.maxAttempts.toNat

theorem Ended.drive {bound : Half} {s : State} (h : Ended bound s) (n : Nat) : Ended bound (drive n s) := by
  rw [drive_idle n s h.idle]
  exact h

namespace EndsFrom

variable {p : Params} {a a' : Half} {n m : Nat} {op : Instr} {k : Nat} {q rest below : List Position}

theorem mono (h : EndsFrom p a n q) (hle : n ≤ m) : EndsFrom p a m q := by
  intro s hp hq ha
  obtain ⟨d, rfl⟩ := Nat.exists_eq_add_of_le hle
  rw [drive_add]
  exact (h s hp hq ha).drive d

/-- A stack from which one engine step ends the operation or leads to a stack from which it ends. -/
theorem of_tick (htick : ∀ s : State, s.params = p → s.block.seq = q → s.block.attempts = a →
      Ended p.maxAttempts (tick s) ∨ EndsFrom p (tick s).block.attempts n (tick s).block.seq) :
    EndsFrom p a (n + 1) q := by
  intro s hp hq ha
  rw [Nat.add_comm, drive_add, drive_one]
  obtain hended | hgoes := htick s hp hq ha
  · exact hended.drive n
  · exact hgoes (tick s) ((tick_effect s).2.trans hp) rfl rfl

/-! #### One rule for each kind of line -/

theorem assign {f : Params → Block → Block} (hline : (linesOf op)[k]? = some (.assign f))
    (hf : ∀ b : Block, b.attempts = a → (f p b).attempts = a') (h : EndsFrom p a' n (⟨op, k + 1⟩ :: rest)) :
    EndsFrom p a (n + 1) (⟨op, k⟩ :: rest) := by
  refine of_tick fun s hp hq ha => .inr ?_
  subst hp
  obtain rfl := hf s.block ha
  rw [tick_line s _ _ _ hq hline]
  exact h

theorem call {f : Params → Block → Instr} (hline : (linesOf op)[k]? = some (.call f))
    (h : ∀ b, EndsFrom p a n (⟨f p b, 0⟩ :: ⟨op, k⟩ :: rest)) : EndsFrom p a (n + 1) (⟨op, k⟩ :: rest) := by
  refine of_tick fun s hp hq ha => .inr ?_
  subst hp ha
  rw [tick_line s _ _ _ hq hline]
  exact h s.block

theorem returned {caller : Position} (hline : (linesOf op)[k]? = none)
    (h : EndsFrom p a n (⟨caller.op, caller.step + 1⟩ :: below)) :
    EndsFrom p a (n + 1) (⟨op, k⟩ :: caller :: below) := by
  refine of_tick fun s hp hq ha => .inr ?_
  subst ha
  rw [tick_end s _ _ hq hline]
  exact h

theorem finish (hline : (linesOf op)[k]? = none) (hcount : a.toNat ≤ p.maxAttempts.toNat) :
    EndsFrom p a 1 [⟨op, k⟩] := by
  refine of_tick (n := 0) fun s hp hq ha => .inl ?_
  subst ha
  rw [tick_end s _ _ hq hline]
  exact ⟨rfl, rfl, rfl, hcount⟩

/-- A delay or a log event. -/
theorem event (hline : (linesOf op)[k]? = some .delay ∨ ∃ kind, (linesOf op)[k]? = some (.log kind))
    (h : EndsFrom p a n (⟨op, k + 1⟩ :: rest)) : EndsFrom p a (n + 1) (⟨op, k⟩ :: rest) := by
  refine of_tick fun s hp hq ha => .inr ?_
  subst ha
  obtain hline | ⟨kind, hline⟩ := hline <;> rw [tick_line s _ _ _ hq hline] <;> exact h

theorem test {f : Params → Block → Flow} (hline : (linesOf op)[k]? = some (.test f))
    (h : ∀ b : Block, b.attempts = a → FlowEnds p a n ⟨op, k⟩ rest (f p b)) :
    EndsFrom p a (n + 1) (⟨op, k⟩ :: rest) := by
  refine of_tick fun s hp hq ha => ?_
  have hflow := h s.block ha
  subst hp ha
  rw [tick_line s _ _ _ hq hline]
  simp only [runLine]
  cases hout : f s.params s.block with
  | next => rw [hout] at hflow; exact .inr hflow
  | goto j => rw [hout] at hflow; exact .inr hflow
  | stop st => rw [hout] at hflow; exact .inl ⟨rfl, rfl, rfl, hflow⟩

/-! #### Transfers: where one fails the operation ends -/

section
variable (hcount : a.toNat ≤ p.maxAttempts.toNat)
include hcount

theorem transfer (hline : (linesOf op)[k]? = some .busBuf) (h : EndsFrom p a n (⟨op, k + 1⟩ :: rest)) :
    EndsFrom p a (n + 1) (⟨op, k⟩ :: rest) := by
  refine of_tick fun s hp hq ha => ?_
  subst ha
  rw [tick_line s _ _ _ hq hline]
  obtain ⟨e, hbus⟩ | ⟨rx, e, -, hbus⟩ := busBuf_cases s
  · simp only [runLine, transferFrame, hbus]
    exact .inl ⟨rfl, rfl, rfl, hcount⟩
  · simp only [runLine, transferFrame, hbus]
    exact .inr h

theorem readLen (hline : (linesOf op)[k]? = some .readLen) (h : EndsFrom p a n (⟨op, k + 1⟩ :: rest)) :
    EndsFrom p a (n + 1) (⟨op, k⟩ :: rest) := by
  refine of_tick fun s hp hq ha => ?_
  subst ha
  rw [tick_line s _ _ _ hq hline]
  obtain ⟨e, hbus⟩ | ⟨rx, e, hbus⟩ := busByte_cases s.params.skipFill s
  · simp only [runLine, readLength, hbus]
    exact .inl ⟨rfl, rfl, rfl, hcount⟩
  · simp only [runLine, readLength, hbus]
    exact .inr h

/-- The loop of a skip with at most `c` discards to go. -/
theorem discards (hline : (linesOf op)[k]? = some .discard) (h : EndsFrom p a n (⟨op, k + 1⟩ :: rest)) (c : Nat) :
    ∀ s : State, s.params = p → s.block.seq = ⟨op, k⟩ :: rest → s.block.attempts = a → s.block.cnt.toNat ≤ c →
      Ended p.maxAttempts (drive (n + c + 1) s) := by
  induction c using Nat.strong_induction_on with
  | _ c ih =>
    intro s hp hq ha hle
    have hend := h.mono (Nat.le_add_right n c)
    rw [Nat.add_comm, drive_add, drive_one, tick_line s _ _ _ hq hline]
    simp only [runLine, discardOne]
    by_cases hzero : s.block.cnt = 0
    · rw [if_pos hzero]
      exact hend _ hp rfl ha
    · rw [if_neg hzero]
      obtain ⟨e, hbus⟩ | ⟨rx, e, hbus⟩ := busByte_cases s.params.skipFill s
      · rw [hbus]
        exact Ended.drive ⟨rfl, rfl, rfl, ha ▸ hcount⟩ _
      · rw [hbus]
        have hfewer : (s.block.cnt - 1).toNat + 1 = s.block.cnt.toNat := by bv_omega
        rw [show n + c = n + (c - 1) + 1 by omega]
        exact ih (c - 1) (by omega) _ hp hq ha (show (s.block.cnt - 1).toNat ≤ c - 1 by omega)

/-- A skip: the assignment of `CNT`, at most `c`, and its loop. -/
theorem skip {f : Params → Block → Block} (c : Nat) (hline : (linesOf op)[k]? = some (.assign f))
    (hloop : (linesOf op)[k + 1]? = some .discard)
    (hf : ∀ b : Block, (f p b).attempts = b.attempts ∧ (f p b).cnt.toNat ≤ c)
    (h : EndsFrom p a n (⟨op, k + 2⟩ :: rest)) : EndsFrom p a (n + c + 2) (⟨op, k⟩ :: rest) := by
  intro s hp hq ha
  subst hp
  obtain ⟨hsame, hcnt⟩ := hf s.block
  rw [show n + c + 2 = 1 + (n + c + 1) by omega, drive_add, drive_one, tick_line s _ _ _ hq hline]
  exact discards hcount hloop h c _ rfl rfl (hsame.trans ha) hcnt

/-! #### The operations that `ACQ` calls, each with its call and its return -/

theorem xfer (hline : (linesOf op)[k]? = some (.call (fun _ _ => .xfer))) (h : EndsFrom p a n (⟨op, k + 1⟩ :: rest)) :
    EndsFrom p a (n + 4) (⟨op, k⟩ :: rest) :=
  .call hline fun _ => .transfer hcount rfl (.assign rfl (fun _ hb => hb) (.returned rfl h))

theorem flush (hline : (linesOf op)[k]? = some (.call (fun _ _ => .skipn 256)))
    (h : EndsFrom p a n (⟨op, k + 1⟩ :: rest)) : EndsFrom p a (n + 260) (⟨op, k⟩ :: rest) :=
  .call hline fun _ => .skip hcount 256 rfl rfl (fun _ => ⟨rfl, le_rfl⟩) (.returned rfl h)

theorem skipv (hline : (linesOf op)[k]? = some (.call (fun _ _ => .skipv)))
    (h : EndsFrom p a n (⟨op, k + 1⟩ :: rest)) : EndsFrom p a (n + 260) (⟨op, k⟩ :: rest) :=
  .call hline fun _ => .readLen hcount rfl (.skip hcount 255 rfl rfl (fun b => ⟨rfl, by
    have hlen := b.len.isLt
    rw [BitVec.toNat_setWidth]
    omega⟩) (.returned rfl h))

theorem sendCmd {c v : Params → Block → Byte} (hline : (linesOf op)[k]? = some (.call (fun p b => .enc (c p b) (v p b))))
    (hline' : (linesOf op)[k + 1]? = some (.call (fun _ _ => .xfer))) (h : EndsFrom p a n (⟨op, k + 2⟩ :: rest)) :
    EndsFrom p a (n + 7) (⟨op, k⟩ :: rest) :=
  .call hline fun _ => .assign rfl (fun _ hb => hb) (.returned rfl (.xfer hcount hline' h))

theorem setmode {m : Mode} (hline : (linesOf op)[k]? = some (.call (fun _ _ => .setmode m)))
    (h : EndsFrom p a n (⟨op, k + 1⟩ :: rest)) : EndsFrom p a (n + 272) (⟨op, k⟩ :: rest) :=
  .call hline fun _ => .assign rfl (fun _ hb => hb) (.flush hcount rfl (.event (.inl rfl) (.sendCmd hcount rfl rfl
    (.event (.inl rfl) (.returned rfl h)))))

theorem sync (hline : (linesOf op)[k]? = some (.call (fun _ _ => .sync)))
    (h : EndsFrom p a n (⟨op, k + 1⟩ :: rest)) : EndsFrom p a (n + 794) (⟨op, k⟩ :: rest) :=
  .call hline fun _ => .setmode hcount rfl (.flush hcount rfl (.skipv hcount rfl (.returned rfl h)))

theorem config {d : Params → Block → Dist} {r : Params → Block → Rate}
    (hline : (linesOf op)[k]? = some (.call (fun p b => .config (d p b) (r p b))))
    (h : EndsFrom p a n (⟨op, k + 1⟩ :: rest)) : EndsFrom p a (n + 811) (⟨op, k⟩ :: rest) :=
  .call hline fun _ => .assign rfl (fun _ hb => hb) (.setmode hcount rfl (.sendCmd hcount rfl rfl (.event (.inl rfl)
    (.flush hcount rfl (.sendCmd hcount rfl rfl (.event (.inl rfl) (.flush hcount rfl (.returned rfl h))))))))

end

/-! #### The loop of `ACQ` -/

/-- A test of the retry bound: where it is not reached there are attempts left. -/
theorem boundTest (hmax : p.maxAttempts ≠ 0) (hcount : a.toNat ≤ p.maxAttempts.toNat) (st : Status)
    (hline : (linesOf op)[k]? = some (.test (fun p b => if boundReached p b then .stop st else .next)))
    (h : a.toNat < p.maxAttempts.toNat → EndsFrom p a n (⟨op, k + 1⟩ :: rest)) :
    EndsFrom p a (n + 1) (⟨op, k⟩ :: rest) := by
  refine .test hline fun b ha => ?_
  subst ha
  split
  · exact hcount
  · next hreached => exact h ((boundReached_eq_false_iff.mp (Bool.eq_false_iff.mpr hreached)).resolve_left hmax)

/-- One attempt, from `step1`: it accepts (`step4`), or there are attempts left and `step1` is reached again, after a recovery or
without one, or the operation ends. -/
theorem attempt (hmax : p.maxAttempts ≠ 0) (hcount : (satinc a).toNat ≤ p.maxAttempts.toNat)
    (haccepted : EndsFrom p (satinc a) n (⟨.acq, 17⟩ :: rest))
    (hagain : (satinc a).toNat < p.maxAttempts.toNat → EndsFrom p (satinc a) n (⟨.acq, 1⟩ :: rest)) :
    EndsFrom p a (n + 1617) (⟨.acq, 1⟩ :: rest) := by
  have htorn : EndsFrom p (satinc a) (n + 5) (⟨.acq, 12⟩ :: rest) := by
    refine .test rfl fun b _ => ?_
    split
    · exact .assign rfl (fun _ hb => hb) (.event (.inr ⟨_, rfl⟩) (.boundTest hmax hcount .errSequence rfl fun hleft =>
        .test rfl fun _ _ => hagain hleft))
    · exact haccepted.mono (by omega)
  have hmisaligned : EndsFrom p (satinc a) (n + 1610) (⟨.acq, 5⟩ :: rest) := by
    refine .assign rfl (fun _ hb => hb) (.event (.inr ⟨_, rfl⟩) (.boundTest hmax hcount .errFraming rfl fun hleft =>
      .test rfl fun b _ => ?_))
    split
    · exact hcount
    · exact .sync hcount rfl (.config hcount rfl (.test rfl fun _ _ => hagain hleft))
  refine .assign rfl (fun _ hb => congrArg satinc hb) (.xfer hcount rfl (.assign rfl (fun _ hb => hb) (.test rfl fun b _ => ?_)))
  split
  · exact hmisaligned
  · exact htorn.mono (by omega)

/-- The loop, with at most `left` attempts to go. -/
theorem attempts (hmax : p.maxAttempts ≠ 0)
    (haccepted : ∀ a : Half, a.toNat ≤ p.maxAttempts.toNat → EndsFrom p a n (⟨.acq, 17⟩ :: rest)) (left : Nat) :
    ∀ a : Half, a.toNat < p.maxAttempts.toNat → p.maxAttempts.toNat ≤ a.toNat + left →
      EndsFrom p a (n + 1617 * left) (⟨.acq, 1⟩ :: rest) := by
  induction left with
  | zero => intro a hless hleft; omega
  | succ left ih =>
    intro a hless hleft
    have hnext : (satinc a).toNat = a.toNat + 1 := by
      rw [toNat_satinc]
      omega
    rw [Nat.mul_succ, ← Nat.add_assoc]
    exact attempt hmax (by omega) ((haccepted (satinc a) (by omega)).mono (by omega))
      fun hless' => ih (satinc a) hless' (by omega)

/-- `ACQ` from its first line to its end. -/
theorem acq (hmax : p.maxAttempts ≠ 0)
    (haccepted : ∀ a : Half, a.toNat ≤ p.maxAttempts.toNat → EndsFrom p a n (⟨.acq, 17⟩ :: rest)) :
    EndsFrom p a (n + 1617 * p.maxAttempts.toNat + 1) (⟨.acq, 0⟩ :: rest) := by
  have hpos : 0 < p.maxAttempts.toNat := by bv_omega
  exact .assign (a' := 0) rfl (fun _ _ => rfl) (attempts hmax haccepted p.maxAttempts.toNat 0 hpos (Nat.le_add_left _ _))

/-- A read operation: its call of `ACQ`, the assignment of its result, its end. -/
theorem read (hmax : p.maxAttempts ≠ 0) {f : Params → Block → Block}
    (hcall : (linesOf op)[0]? = some (.call (fun _ _ => .acq))) (hassign : (linesOf op)[1]? = some (.assign f))
    (hf : ∀ b, (f p b).attempts = b.attempts) (hend : (linesOf op)[2]? = none) :
    EndsFrom p a (3 + 1617 * p.maxAttempts.toNat + 2) [⟨op, 0⟩] :=
  .call hcall fun _ => .acq hmax fun _ hcount => .returned rfl (.assign hassign (fun b hb => (hf b).trans hb)
    (.finish hend hcount))

end EndsFrom

/-- An acquisition with a bound ends, whatever its first `ATTEMPTS` was. -/
theorem acquisition_ends {p : Params} (hmax : p.maxAttempts ≠ 0) (a : Half) :
    ∀ i ∈ [Instr.acq, .rdr, .rdi, .rdrg, .rdig], EndsFrom p a (3 + 1617 * p.maxAttempts.toNat + 2) [⟨i, 0⟩] := by
  simp only [List.forall_mem_cons]
  refine ⟨?_, ?_, ?_, ?_, ?_, by simp⟩
  · exact (EndsFrom.acq hmax fun _ hcount => .finish rfl hcount).mono (by omega)
  · exact .read hmax rfl rfl (fun _ => rfl) rfl
  · exact .read hmax rfl rfl (fun _ => rfl) rfl
  · exact .read hmax rfl rfl (fun _ => rfl) rfl
  · exact .read hmax rfl rfl (fun _ => rfl) rfl

/-- Settles O43: an attempt takes at most 1617 engine steps and `MAX_ATTEMPTS` is at most 65535, so the acquisition is over
within `runBound`. -/
theorem boundedAcquisitionEnds : Obligations.BoundedAcquisitionEnds := by
  intro i s hi hready hmax
  refine ⟨operate i s, exec_eq_operate i s, ?_⟩
  rw [operate_ready i s hready]
  have hsteps : 3 + 1617 * s.params.maxAttempts.toNat + 2 ≤ runBound := by unfold runBound; omega
  obtain ⟨hidle, hbusy, hrsp, hcount⟩ := (acquisition_ends hmax s.block.attempts i hi).mono hsteps (accept i s) rfl rfl rfl
  exact ⟨hbusy, hidle, hrsp, hcount⟩

end Sys2Proof.Machine

/-! SUPPORT. The raw values of the measurement decoder (spec/44): the fields of a range and of an intensity raw value, and the
values they decode to. -/

namespace Sys2Proof.Machine

/-! ### Range raw values (spec/44 R171, R172, R175) -/

theorem toNat_rangeI (r : Word) : (rangeI r).toNat = (r.toNat / 2 ^ 22) % 512 := by
  simp [rangeI, BitVec.extractLsb'_toNat, Nat.shiftRight_eq_div_pow]

theorem toNat_rangeF (r : Word) : (rangeF r).toNat = r.toNat % 2 ^ 22 := by
  simp [rangeF, BitVec.extractLsb'_toNat]

/-- Settles O19: bits 30:22 and 21:0 are read, so a flip of bit 31 is not seen. -/
theorem rangeFieldsIgnoreBit31 : Obligations.RangeFieldsIgnoreBit31 := by
  intro r
  exact ⟨toNat_rangeI r, toNat_rangeF r, BitVec.extractLsb'_xor.trans BitVec.xor_zero,
    BitVec.extractLsb'_xor.trans BitVec.xor_zero⟩

/-- Settles O20: both products are 10^8 times those of `decodeRange`, and the fields have 9 and 22 bits. -/
theorem rangeQIsExact : Obligations.RangeQIsExact := by
  intro r
  have hint := (rangeI r).isLt
  have hfrac := (rangeF r).isLt
  constructor
  · simp only [rangeQ, decodeRange, Config.rangeIntScale, Config.rangeFracScale]
    push_cast
    ring
  · unfold rangeQ
    omega

/-- Settles O21: a step inside the fraction adds its unit; at its top the fraction is lost and one integer unit is gained. -/
theorem rangeDecodeStepsAndFalls : Obligations.RangeDecodeStepsAndFalls := by
  intro r
  have hr := r.isLt
  have hstep : (r + 1).toNat = (r.toNat + 1) % 2 ^ 32 := BitVec.toNat_add r 1
  have htop : rangeF r = 0x3FFFFF ↔ r.toNat % 2 ^ 22 = 2 ^ 22 - 1 := by
    rw [← BitVec.toNat_inj, toNat_rangeF]
    rfl
  have hlast : rangeI r = 511 ↔ r.toNat / 2 ^ 22 % 512 = 511 := by
    rw [← BitVec.toNat_inj, toNat_rangeI]
    rfl
  simp only [rangeQ, toNat_rangeI, toNat_rangeF, hstep, ne_eq, htop, hlast]
  constructor <;> omega

/-! ### Intensity raw values (spec/44 R173) -/

theorem toNat_intensityQ (r : Half) : (intensityQ r).toNat = r.toNat / 16 := by
  have hr := r.isLt
  rw [intensityQ, BitVec.extractLsb'_toNat, Nat.shiftRight_eq_div_pow]
  omega

/-- Settles O22: `intensityQ` is bits 15:4; `decodeIntensity` adds its quotient by 16 and a sixteenth of its remainder. -/
theorem intensityIsSixteenths : Obligations.IntensityIsSixteenths := by
  intro r
  refine ⟨toNat_intensityQ r, ?_, BitVec.extractLsb'_and.trans BitVec.and_allOnes⟩
  have hparts : (intensityQ r >>> 4).toNat * 16 + (intensityQ r &&& 0xF).toNat = (intensityQ r).toNat := by
    have hmod : (intensityQ r &&& 0xF).toNat = (intensityQ r).toNat % 2 ^ 4 :=
      (BitVec.toNat_and _ _).trans (Nat.and_two_pow_sub_one_eq_mod _ 4)
    rw [hmod, BitVec.toNat_ushiftRight, Nat.shiftRight_eq_div_pow]
    omega
  simp only [decodeIntensity, Config.intensityFracScale, ← hparts]
  push_cast
  ring

end Sys2Proof.Machine

/-! SUPPORT. The read operations of the measurement decoder (spec/44): what the four have in common, their run over a first frame
that is accepted, what holds at the lines of `ACQ` and of a read operation however often it retries, and what an operation that
fails leaves of the results. -/

namespace Sys2Proof.Machine

/-! ### The read operations (spec/44 R177 to R180) -/

/-- A read operation: it calls `ACQ`, then `write` puts what it reads from the Frame Buffer in a result register and sets the
register's flag. It writes no other register, and writes the same again and wherever the sequencer stands. -/
structure ReadOperation (op : Instr) (write : Params → Block → Block) : Prop where
  lines : linesOf op = [.call (fun _ _ => .acq), .assign write]
  rank : callRank op = 4
  info : ∀ st b, responseInfo op st b = b.attempts
  frame : ∀ p b, { write p b with
    rngRaw := b.rngRaw, intRaw := b.intRaw, rgridRaw := b.rgridRaw, igridRaw := b.igridRaw
    rvR := b.rvR, rvI := b.rvI, rvRG := b.rvRG, rvIG := b.rvIG } = b
  again : ∀ p b, write p (write p b) = write p b
  seq : ∀ p b q, write p { b with seq := q } = { write p b with seq := q }
  busy : ∀ p b busy, write p { b with busy := busy } = { write p b with busy := busy }

theorem rdr_reads :
    ReadOperation .rdr (fun p b => { b with rngRaw := memRead4 p b.fb Config.offRange, rvR := true }) := by
  constructor <;> intros <;> rfl

theorem rdi_reads :
    ReadOperation .rdi (fun p b => { b with intRaw := memRead2 p b.fb Config.offIntensity, rvI := true }) := by
  constructor <;> intros <;> rfl

theorem rdrg_reads : ReadOperation .rdrg (fun p b => { b with rgridRaw := rangeGrid p b.fb, rvRG := true }) := by
  constructor <;> intros <;> rfl

theorem rdig_reads : ReadOperation .rdig (fun p b => { b with igridRaw := intensityGrid p b.fb, rvIG := true }) := by
  constructor <;> intros <;> rfl

/-- No other assignment writes a result (spec/10 R22, R26). -/
theorem AssignmentOf.results_or_read {op : Instr} {f : Params → Block → Block} (h : AssignmentOf op f) :
    (∀ p b, results (f p b) = results b) ∨ ReadOperation op f := by
  cases h with
  | rdr => exact .inr rdr_reads
  | rdi => exact .inr rdi_reads
  | rdrg => exact .inr rdrg_reads
  | rdig => exact .inr rdig_reads
  | _ => exact .inl fun _ _ => rfl

namespace ReadOperation

variable {op : Instr} {write : Params → Block → Block} {p : Params} {b : Block} {k : Nat}

theorem ne_acq (h : ReadOperation op write) : op ≠ .acq := by
  rintro rfl
  exact absurd h.rank (by decide)

/-- The lines of a read operation, by their number. -/
theorem line_cases (h : ReadOperation op write) {line : Line} (hline : (linesOf op)[k]? = some line) :
    (k = 0 ∧ line = .call (fun _ _ => .acq)) ∨ (k = 1 ∧ line = .assign write) := by
  rw [h.lines] at hline
  obtain _ | _ | k := k
  · exact .inl ⟨rfl, (Option.some.inj hline).symm⟩
  · exact .inr ⟨rfl, (Option.some.inj hline).symm⟩
  · cases hline

theorem call_line (h : ReadOperation op write) : (linesOf op)[0]? = some (.call (fun _ _ => .acq)) := by
  rw [h.lines]
  rfl

theorem write_line (h : ReadOperation op write) : (linesOf op)[1]? = some (.assign write) := by
  rw [h.lines]
  rfl

/-- An operation with a line that is neither a call nor an assignment is no read operation. -/
theorem ne_of_line (h : ReadOperation op write) {i : Instr} {line : Line} (hline : (linesOf i)[k]? = some line)
    (hcall : ∀ f, line ≠ .call f) (hassign : ∀ f, line ≠ .assign f) : i ≠ op := by
  rintro rfl
  obtain ⟨-, hl⟩ | ⟨-, hl⟩ := h.line_cases hline
  · exact hcall _ hl
  · exact hassign _ hl

theorem line_none (h : ReadOperation op write) (hk : 2 ≤ k) : (linesOf op)[k]? = none := by
  rw [h.lines]
  exact List.getElem?_eq_none hk

theorem attempts (h : ReadOperation op write) : (write p b).attempts = b.attempts :=
  (congrArg Block.attempts (h.frame p b) :)

end ReadOperation

/-! ### A read operation whose first frame is accepted -/

theorem memRead2_fbStore (p : Params) {f : List Byte} (hlen : f.length = 256) {a : Nat} (ha : a + 1 < 256) :
    memRead2 p (fbStore p f) a = f.getD a 0 ++ f.getD (a + 1) 0 := by
  simp only [memRead2]
  rw [fbRead_fbStore p f hlen a (by omega), fbRead_fbStore p f hlen (a + 1) ha]

theorem memRead4_fbStore (p : Params) {f : List Byte} (hlen : f.length = 256) {a : Nat} (ha : a + 3 < 256) :
    memRead4 p (fbStore p f) a = f.getD a 0 ++ f.getD (a + 1) 0 ++ f.getD (a + 2) 0 ++ f.getD (a + 3) 0 := by
  simp only [memRead4]
  rw [fbRead_fbStore p f hlen a (by omega), fbRead_fbStore p f hlen (a + 1) (by omega),
    fbRead_fbStore p f hlen (a + 2) (by omega), fbRead_fbStore p f hlen (a + 3) ha]

theorem rangeGrid_getElem (p : Params) (fb : Memory) (i : Fin 32) : (rangeGrid p fb)[i] = memRead4 p fb (10 + 4 * i) := by
  simp [rangeGrid, rangeCellOffset, Config.offRangeGrid]

theorem intensityGrid_getElem (p : Params) (fb : Memory) (i : Fin 32) :
    (intensityGrid p fb)[i] = memRead2 p fb (138 + 2 * i) := by
  simp [intensityGrid, intensityCellOffset, Config.offIntensityGrid]

section
variable {op : Instr} {write : Params → Block → Block} (h : ReadOperation op write) (good : List Byte) (fs : List Bool)
  (bs : List Byte) (s : State) (hgood : GoodFrame good) (hfails : s.env.fails = false :: fs)
  (hbytes : s.env.bytes = good ++ bs)
include h hgood hfails hbytes

/-- A read operation from its first line to its end: the acquisition over no torn frame and the good one, and the result. -/
theorem read_run :
    drive 12 (setSeq [⟨op, 0⟩] s) = setSeq [⟨op, 2⟩] (updated write (attempted good fs bs (begun s))) := by
  have hbound : s.params.maxAttempts = 0 ∨ 0 < s.params.maxAttempts.toNat := by
    rw [← BitVec.toNat_inj]
    exact Nat.eq_zero_or_pos _
  have hacq := call_run op .acq 0 9 17 [] (fun _ _ => .acq) s _ h.call_line (fun _ => rfl)
    (acq_retries_run [⟨op, 0⟩] [] good fs bs s (by simp) hgood hbound hfails hbytes) rfl
  refine drive_snoc hacq (tick_assign op 1 [] write _ h.write_line fun q => ?_)
  exact congrArg (fun b : Block => { b with seq := [] }) (h.seq s.params (attempted good fs bs (begun s)).block q)

/-- A read operation on a ready block that accepts its first frame: what the acquisition leaves, and the result. -/
theorem exec_read_accepts (hready : Ready s) :
    exec op s = .next { s with
      block := write s.params (acceptedBlock s good)
      env := { s.env with fails := fs, bytes := bs }
      rsp := some 0x00001
      hist := History.add
        [.request (encode op), .busBuf (fbBytes s.params s.block.fb) (some good), responseEvent .ok 1] s.hist } := by
  obtain ⟨hmagic, hseq⟩ := hgood.matches s.params
  have hrun := read_run h good fs bs (accept op s) hgood hfails hbytes
  have hinfo : responseInfo op .ok { (updated write (attempted good fs bs (begun (accept op s)))).block with
      seq := [⟨op, 2⟩] } = 1 := (h.info _ _).trans h.attempts
  have hexec := exec_ok op 1 2 12 s _ hready (by decide) hrun (h.line_none le_rfl) hinfo
  have hblock : acceptedBlock s good =
      { { (attempted good fs bs (begun (accept op s))).block with seq := [] } with busy := s.block.busy } := by
    simp [acceptedBlock, attempted, hmagic, hseq, begun, updated, satinc]
  rw [hexec, hblock, h.busy, h.seq]
  rfl

end

/-! ### The tests of `ACQ` (spec/43 R152) -/

/-- The tests in the pseudocode, all in `ACQ`, with their line numbers. -/
inductive AcqTest : Nat → (Params → Block → Flow) → Prop where
  | magic : AcqTest 4 (fun _ b => if b.magicOk = false then .next else .goto 12)
  | framingBound : AcqTest 7 (fun p b => if boundReached p b then .stop .errFraming else .next)
  | configured : AcqTest 8 (fun _ b => if b.cfgV = false then .stop .cfgUnset else .next)
  | recovered : AcqTest 11 (fun _ _ => .goto 1)
  | sequence : AcqTest 12 (fun _ b => if b.seqOk = false then .next else .goto 17)
  | sequenceBound : AcqTest 15 (fun p b => if boundReached p b then .stop .errSequence else .next)
  | again : AcqTest 16 (fun _ _ => .goto 1)

theorem acqTest_of_line {op : Instr} {k : Nat} {f : Params → Block → Flow} (h : (linesOf op)[k]? = some (.test f)) :
    op = .acq ∧ AcqTest k f := by
  have hmem := List.mem_of_getElem? h
  cases op with
  | acq =>
    refine ⟨rfl, ?_⟩
    obtain ⟨hk, hf⟩ := List.getElem?_eq_some_iff.mp h
    replace hk : k < 17 := hk
    interval_cases k <;> cases hf
    exacts [.magic, .framingBound, .configured, .recovered, .sequence, .sequenceBound, .again]
  | _ => simp [linesOf, encLines, xferLines, skipnLines, skipvLines, syncLines, setmodeLines, configLines, valLines,
      rdrLines, rdiLines, rdrgLines, rdigLines, sendCmd, flushFrame] at hmem

namespace AcqTest

variable {k j : Nat} {f : Params → Block → Flow} {p : Params} {b : Block} {st : Status}

/-- No test ends an operation `OK`. -/
theorem stop_ne_ok (h : AcqTest k f) (hflow : f p b = .stop st) : st ≠ .ok := by
  rintro rfl
  cases h <;> simp [ite_eq_iff] at hflow

/-- A jump goes back to `step1`, or a test of a validation flag was passed. -/
theorem goto_cases (h : AcqTest k f) (hflow : f p b = .goto j) :
    j = 1 ∨ (k = 4 ∧ j = 12 ∧ b.magicOk = true) ∨ (k = 12 ∧ j = 17 ∧ b.seqOk = true) := by
  cases h <;> simp [ite_eq_iff] at hflow <;> simp [hflow]

end AcqTest

/-! ### Who called whom -/

/-- The caller stands at the line that called. -/
def CalledBy (callee caller : Position) : Prop :=
  ∃ f p b, (linesOf caller.op)[caller.step]? = some (.call f) ∧ callee.op = f p b

/-- Every operation of the stack was called by the line its caller stands at (spec/10 R24). -/
def CallsNest (q : List Position) : Prop := q.IsChain CalledBy

/-- Who called the innermost operation does not depend on the line it has come to. -/
theorem CallsNest.moved {top : Position} {rest : List Position} (h : CallsNest (top :: rest)) (k : Nat) :
    CallsNest (⟨top.op, k⟩ :: rest) := by
  cases rest with
  | nil => exact .singleton _
  | cons caller below =>
    obtain ⟨hcall, hrest⟩ := List.isChain_cons_cons.mp h
    exact .cons_cons hcall hrest

theorem TickEffect.keeps_calls {p : Params} {b b' : Block} (e : TickEffect p b b') (h : CallsNest b.seq) :
    CallsNest b'.seq := by
  cases e with
  | idle => exact h
  | discard => exact h
  | bufferError => exact .nil
  | byteError => exact .nil
  | testStop => exact .nil
  | finish => exact .nil
  | call top rest f hseq hline => exact .cons_cons ⟨f, p, b, hline, rfl⟩ (hseq ▸ h)
  | returned top caller below hseq => exact CallsNest.moved (List.isChain_cons_cons.mp (hseq ▸ h)).2 _
  | assign top rest f hseq => exact CallsNest.moved (hseq ▸ h) _
  | transfer top rest rx hseq => exact CallsNest.moved (hseq ▸ h) _
  | length top rest l hseq => exact CallsNest.moved (hseq ▸ h) _
  | loopEnd top rest hseq => exact CallsNest.moved (hseq ▸ h) _
  | event top rest hseq => exact CallsNest.moved (hseq ▸ h) _
  | testNext top rest f hseq => exact CallsNest.moved (hseq ▸ h) _
  | testGoto top rest f k hseq => exact CallsNest.moved (hseq ▸ h) _

/-! ### What holds at the lines of `ACQ` and of a read operation -/

/-- The validation flags are those of the frame the Frame Buffer holds (spec/43 R150). -/
def Judged (p : Params) (b : Block) : Prop :=
  b.magicOk = magicMatches p b.fb ∧ b.seqOk = sequenceMatches p b.fb ∧ b.fbValid = (b.magicOk && b.seqOk)

/-- The Frame Buffer holds a validated frame (spec/43 R152, step 4). -/
def Acquired (p : Params) (b : Block) : Prop :=
  frameAccepted p b.fb ∧ b.magicOk = true ∧ b.seqOk = true ∧ b.fbValid = true

theorem Judged.acquired {p : Params} {b : Block} (h : Judged p b) (hmagic : b.magicOk = true) (hseq : b.seqOk = true) :
    Acquired p b := by
  obtain ⟨hm, hs, hvalid⟩ := h
  exact ⟨⟨of_decide_eq_true (hm.symm.trans hmagic), of_decide_eq_true (hs.symm.trans hseq)⟩, hmagic, hseq,
    by rw [hvalid, hmagic, hseq]; rfl⟩

theorem ReadOperation.keeps_acquired {op : Instr} {write : Params → Block → Block} (h : ReadOperation op write) {p : Params}
    {b : Block} (hb : Acquired p b) : Acquired p (write p b) := by
  have hframe := h.frame p b
  unfold Acquired at hb ⊢
  rw [← hframe] at hb
  exact hb

/-- The assertion at a line of `ACQ`: after validation at its `step2` (line 4), the magic test passed at its `step3`
(line 12), both tests passed at its `step4` (line 17, its end). -/
structure LoopAssertion (p : Params) (b : Block) (k : Nat) : Prop where
  judged : k = 4 ∨ k = 12 → Judged p b
  aligned : k = 12 → b.magicOk = true
  acquired : k = 17 → Acquired p b

theorem LoopAssertion.of_other {p : Params} {b : Block} {k : Nat} (h : k ≠ 4 ∧ k ≠ 12 ∧ k ≠ 17) : LoopAssertion p b k :=
  ⟨fun _ => by omega, fun _ => by omega, fun _ => by omega⟩

/-- The line before the assertion on the verdict is the validation. -/
theorem acq_line_before_judged {k : Nat} {line : Line} (hline : (linesOf .acq)[k]? = some line)
    (hno : line ≠ .assign validate) : k + 1 ≠ 4 := by
  intro hk
  obtain rfl : k = 3 := by omega
  exact hno (Option.some.inj hline).symm

/-- The lines before the assertions on passed tests jump back to `step1`. -/
theorem acq_line_before_passed {k : Nat} {line : Line} (hline : (linesOf .acq)[k]? = some line)
    (hno : line ≠ .test (fun _ _ => .goto 1)) : k + 1 ≠ 12 ∧ k + 1 ≠ 17 := by
  constructor <;> intro hk
  · obtain rfl : k = 11 := by omega
    exact hno (Option.some.inj hline).symm
  · obtain rfl : k = 16 := by omega
    exact hno (Option.some.inj hline).symm

/-- The assertion at the line the innermost operation stands at, for a read operation `op` that writes `write`. -/
structure AssertionAt (op : Instr) (write : Params → Block → Block) (p : Params) (b : Block) (pos : Position) : Prop where
  loop : pos.op = .acq → LoopAssertion p b pos.step
  acquired : pos.op = op → 1 ≤ pos.step → Acquired p b
  written : pos.op = op → 2 ≤ pos.step → write p b = b

theorem StackOk.top_step_le {top : Position} {rest : List Position} (h : StackOk (top :: rest)) :
    top.step ≤ (linesOf top.op).length := of_decide_eq_true (Bool.and_eq_true_iff.mp h.steps).1

namespace AssertionAt

variable {op : Instr} {write : Params → Block → Block} {p : Params} {b : Block} {top caller : Position}

/-- Nothing is asserted at the first line of an operation. -/
theorem start (callee : Instr) : AssertionAt op write p b ⟨callee, 0⟩ :=
  ⟨fun _ => .of_other (by simp), fun _ hk => absurd hk (by simp), fun _ hk => absurd hk (by simp)⟩

/-- At a line of `ACQ` its own assertion is all there is. -/
theorem of_loop (h : ReadOperation op write) {k : Nat} (hloop : LoopAssertion p b k) : AssertionAt op write p b ⟨.acq, k⟩ :=
  ⟨fun _ => hloop, fun hop => absurd hop.symm h.ne_acq, fun hop => absurd hop.symm h.ne_acq⟩

/-- Nothing is asserted after a line that is no assignment, call or jump. -/
theorem next (h : ReadOperation op write) {line : Line} (hline : (linesOf top.op)[top.step]? = some line)
    (hassign : ∀ f, line ≠ .assign f) (hcall : ∀ f, line ≠ .call f) (hjump : line ≠ .test (fun _ _ => .goto 1)) :
    AssertionAt op write p b ⟨top.op, top.step + 1⟩ := by
  have hother := h.ne_of_line hline hcall hassign
  refine ⟨fun hacq => ?_, fun hop => absurd hop hother, fun hop => absurd hop hother⟩
  rw [show top.op = .acq from hacq] at hline
  exact .of_other ⟨acq_line_before_judged hline (hassign _), acq_line_before_passed hline hjump⟩

/-- After an assignment: a validation judges the frame, and the result of a read operation is written. -/
theorem assigned (h : ReadOperation op write) {f : Params → Block → Block} (q : List Position)
    (hline : (linesOf top.op)[top.step]? = some (.assign f)) (hat : AssertionAt op write p b top) :
    AssertionAt op write p { f p b with seq := q } ⟨top.op, top.step + 1⟩ := by
  have hread (hop : top.op = op) : top.step = 1 ∧ f = write := by
    subst hop
    obtain ⟨-, hl⟩ | ⟨hk, hl⟩ := h.line_cases hline
    · cases hl
    · exact ⟨hk, Line.assign.inj hl⟩
  refine ⟨fun hacq => ?_, fun hop _ => ?_, fun hop _ => ?_⟩
  · rw [show top.op = .acq from hacq] at hline
    have hpassed := acq_line_before_passed hline (by simp)
    by_cases hf : f = validate
    · subst hf
      exact ⟨fun _ => ⟨rfl, rfl, rfl⟩, fun hk => absurd hk hpassed.1, fun hk => absurd hk hpassed.2⟩
    · exact .of_other ⟨acq_line_before_judged hline (by simpa using hf), hpassed⟩
  · obtain ⟨hk, rfl⟩ := hread hop
    have hacquired := hat.acquired hop hk.ge
    exact h.keeps_acquired hacquired
  · obtain ⟨hk, rfl⟩ := hread hop
    rw [h.seq, h.again]

/-- After a jump: the test of a validation flag was passed. -/
theorem jumped (h : ReadOperation op write) {f : Params → Block → Flow} {k : Nat} (q : List Position)
    (hline : (linesOf top.op)[top.step]? = some (.test f)) (hflow : f p b = .goto k) (hat : AssertionAt op write p b top) :
    AssertionAt op write p { b with seq := q } ⟨top.op, k⟩ := by
  obtain ⟨hacq, htest⟩ := acqTest_of_line hline
  have hloop := hat.loop hacq
  rw [hacq]
  refine .of_loop h ?_
  obtain rfl | ⟨hk, rfl, hmagic⟩ | ⟨hk, rfl, hseq⟩ := htest.goto_cases hflow
  · exact .of_other (by decide)
  · exact ⟨fun _ => hloop.judged (.inl hk), fun _ => hmagic, fun hk => by cases hk⟩
  · exact ⟨fun hk => by omega, fun hk => by omega, fun _ => (hloop.judged (.inr hk)).acquired (hloop.aligned hk) hseq⟩

/-- Nothing is asserted in the loop of a skip. -/
theorem discarding (h : ReadOperation op write) (hline : (linesOf top.op)[top.step]? = some .discard) :
    AssertionAt op write p b top := by
  have hskip := skip_of_discard_mem (List.mem_of_getElem? hline)
  have hother := h.ne_of_line hline (by simp) (by simp)
  refine ⟨fun hacq => ?_, fun hop => absurd hop hother, fun hop => absurd hop hother⟩
  obtain ⟨n, hop⟩ | hop := hskip <;> cases hacq.symm.trans hop

/-- A nested operation has ended: where `ACQ` ends in a read operation it has acquired a frame. -/
theorem returned (h : ReadOperation op write) (q : List Position) {below : List Position}
    (hstack : StackOk (top :: caller :: below)) (hcalled : CalledBy top caller)
    (hline : (linesOf top.op)[top.step]? = none) (hat : AssertionAt op write p b top) :
    AssertionAt op write p { b with seq := q } ⟨caller.op, caller.step + 1⟩ := by
  obtain ⟨f, p', b', hcall, hcallee⟩ := hcalled
  have hread (hop : caller.op = op) : caller.step = 0 ∧ top.op = .acq := by
    subst hop
    obtain ⟨hk, hl⟩ | ⟨-, hl⟩ := h.line_cases hcall <;> cases hl
    exact ⟨hk, hcallee⟩
  refine ⟨fun hacq => ?_, fun hop _ => ?_, fun hop hk => ?_⟩
  · rw [show caller.op = .acq from hacq] at hcall
    exact .of_other ⟨acq_line_before_judged hcall (by simp), acq_line_before_passed hcall (by simp)⟩
  · obtain ⟨-, hacq⟩ := hread hop
    have hle := hstack.top_step_le
    have hend := List.getElem?_eq_none_iff.mp hline
    rw [hacq, show (linesOf .acq).length = 17 from rfl] at hle hend
    exact (hat.loop hacq).acquired (by omega)
  · obtain ⟨hzero, -⟩ := hread hop
    exact absurd hk (by simp [hzero])

end AssertionAt

/-! ### How a read operation ends OK -/

/-- What holds whenever the engine goes on with a request of a read operation. -/
structure ReadInvariant (op : Instr) (write : Params → Block → Block) (p : Params) (b : Block) : Prop where
  stack : StackOk b.seq
  calls : CallsNest b.seq
  top : ∀ top rest, b.seq = top :: rest → AssertionAt op write p b top

theorem TickEffect.keeps_readInvariant {op : Instr} {write : Params → Block → Block} {p : Params} {b b' : Block}
    (e : TickEffect p b b') (h : ReadOperation op write) (hinv : ReadInvariant op write p b) (hgoes : b'.seq ≠ []) :
    ReadInvariant op write p b' := by
  obtain ⟨hstack, hcalls, htop⟩ := hinv
  refine ⟨e.keeps_stack hstack, e.keeps_calls hcalls, fun pos rest' hpos => ?_⟩
  cases e with
  | idle => exact htop pos rest' hpos
  | bufferError => exact absurd rfl hgoes
  | byteError => exact absurd rfl hgoes
  | testStop => exact absurd rfl hgoes
  | finish => exact absurd rfl hgoes
  | call top rest f hseq hline => cases hpos; exact .start _
  | assign top rest f hseq hline => cases hpos; exact .assigned h _ hline (htop top _ hseq)
  | returned top caller below hseq hline =>
    cases hpos
    rw [hseq] at hstack hcalls
    exact .returned h _ hstack (List.isChain_cons_cons.mp hcalls).1 hline (htop top _ hseq)
  | testGoto top rest f k hseq hline hflow =>
    cases hpos
    exact .jumped h _ hline hflow (htop top _ hseq)
  | testNext top rest f hseq hline hflow =>
    cases hpos
    exact .next h hline (by simp) (by simp) fun hjump => by cases Line.test.inj hjump; cases hflow
  | discard top rest hseq hline hcnt =>
    obtain rfl : top = pos := List.head_eq_of_cons_eq (hseq.symm.trans hpos)
    exact .discarding h hline
  | transfer top rest rx hseq hline => cases hpos; exact .next h hline (by simp) (by simp) (by simp)
  | length top rest l hseq hline => cases hpos; exact .next h hline (by simp) (by simp) (by simp)
  | loopEnd top rest hseq hline => cases hpos; exact .next h hline (by simp) (by simp) (by simp)
  | event top rest hseq hline =>
    cases hpos
    obtain hline | ⟨kind, hline⟩ := hline <;> exact .next h hline (by simp) (by simp) (by simp)

/-- The status of a response word (spec/30 R84). -/
theorem status_responseWord (st : Status) (info : Half) : (responseWord st info).extractLsb' 16 4 = statusCode st :=
  BitVec.extractLsb'_append_eq_left

theorem statusCode_eq_zero_iff (st : Status) : statusCode st = 0 ↔ st = .ok := by
  cases st <;> simp [statusCode]

/-- The outermost operation has run off its last line, so that the next step ends it `OK`. -/
def RunOff (b : Block) : Prop := ∃ top, b.seq = [top] ∧ (linesOf top.op)[top.step]? = none

/-- An operation ends `OK` by running off its last line only. -/
theorem EndsWith.runOff {s : State} (h : EndsWith s .ok) : RunOff s.block := by
  cases h with
  | ok top hseq hline => exact ⟨top, hseq, hline⟩
  | stop top rest f st hseq hline hflow =>
    obtain ⟨-, htest⟩ := acqTest_of_line hline
    exact absurd rfl (htest.stop_ne_ok hflow)

/-- EVERY END OK OF A READ OPERATION: its result is written from the frame in the Frame Buffer, which is a validated one. -/
theorem read_ends_ok {op : Instr} {write : Params → Block → Block} (h : ReadOperation op write) {s t : State} {w : RspWord}
    (hready : Ready s) (hexec : exec op s = .next t) (hrsp : t.rsp = some w) (hok : w.extractLsb' 16 4 = 0) :
    write t.params t.block = t.block ∧
      frameAccepted t.params t.block.fb ∧ t.block.magicOk = true ∧ t.block.seqOk = true ∧ t.block.fbValid = true ∧
      w = responseWord .ok t.block.attempts := by
  obtain ⟨hnone, -⟩ | ⟨u, st, hinv, hparams, hout, -, -, -, ht, hst, hend⟩ :=
    exec_ends op s t (ReadInvariant op write s.params) hready hexec
      ⟨.single op, .singleton _, fun _ _ hseq => by cases hseq; exact .start op⟩
      (fun _ _ hinv e hgoes => e.keeps_readInvariant h hinv hgoes)
  · exact absurd (hnone.symm.trans hrsp) (by simp)
  obtain rfl : w = responseWord st (responseInfo op st t.block) := Option.some.inj (hrsp.symm.trans hend)
  obtain rfl : st = .ok := (statusCode_eq_zero_iff st).mp ((status_responseWord _ _).symm.trans hok)
  obtain ⟨top, hseq, hline⟩ := hst.runOff
  obtain rfl : top.op = op := by simpa [outermost, hseq] using hout
  have hat := hinv.top top [] hseq
  have hlast : 2 ≤ top.step := by simpa [h.lines] using List.getElem?_eq_none_iff.mp hline
  have htick : t = endOperation .ok u := ht.trans (tick_end u top [] hseq hline)
  have htp : t.params = s.params := by rw [htick, endOperation_params, hparams]
  have hblock : t.block = { { u.block with seq := [] } with busy := false } := by rw [htick, endOperation_block]
  have hwritten : write t.params t.block = t.block := by rw [htp, hblock, h.busy, h.seq, hat.written rfl hlast]
  obtain ⟨hframe, hmagic, hseqOk, hvalid⟩ : Acquired t.params t.block := by
    rw [htp, hblock]
    exact hat.acquired rfl (by omega)
  exact ⟨hwritten, hframe, hmagic, hseqOk, hvalid, by rw [h.info]⟩

/-! ### The statements of the read operations -/

/-- Settles O46: the acquisition and the read of bytes 4 to 7 (`exec_read_accepts`); every end OK is one with the result written
(`read_ends_ok`). -/
theorem rdrReadsRangeScalar : Obligations.RdrReadsRangeScalar := by
  constructor
  · intro s good fs bs hready hgood hfails hbytes
    have hraw := memRead4_fbStore s.params hgood.size (show 4 + 3 < 256 by decide)
    have hexec := exec_read_accepts rdr_reads good fs bs s hgood hfails hbytes hready
    rw [← hraw]
    exact hexec
  · intro s t w hready hexec hrsp hok
    obtain ⟨hwritten, hacquired⟩ := read_ends_ok rdr_reads hready hexec hrsp hok
    exact ⟨(congrArg Block.rngRaw hwritten).symm, (congrArg Block.rvR hwritten).symm, hacquired⟩

/-- Settles O47, as O46 with bytes 8 and 9. -/
theorem rdiReadsIntensityScalar : Obligations.RdiReadsIntensityScalar := by
  constructor
  · intro s good fs bs hready hgood hfails hbytes
    have hraw := memRead2_fbStore s.params hgood.size (show 8 + 1 < 256 by decide)
    have hexec := exec_read_accepts rdi_reads good fs bs s hgood hfails hbytes hready
    rw [← hraw]
    exact hexec
  · intro s t w hready hexec hrsp hok
    obtain ⟨hwritten, hacquired⟩ := read_ends_ok rdi_reads hready hexec hrsp hok
    exact ⟨(congrArg Block.intRaw hwritten).symm, (congrArg Block.rvI hwritten).symm, hacquired⟩

/-- Settles O48: the grid is `rangeGrid` of the stored frame, or of the Frame Buffer, read cell by cell. -/
theorem rdrgReadsRangeGrid : Obligations.RdrgReadsRangeGrid := by
  constructor
  · intro s good fs bs hready hgood hfails hbytes
    refine ⟨rangeGrid s.params (fbStore s.params good), fun i => ?_,
      exec_read_accepts rdrg_reads good fs bs s hgood hfails hbytes hready⟩
    rw [rangeGrid_getElem, memRead4_fbStore s.params hgood.size (by omega)]
  · intro s t w hready hexec hrsp hok
    obtain ⟨hwritten, hacquired⟩ := read_ends_ok rdrg_reads hready hexec hrsp hok
    have hgrid : t.block.rgridRaw = rangeGrid t.params t.block.fb := (congrArg Block.rgridRaw hwritten).symm
    exact ⟨fun i => by rw [hgrid, rangeGrid_getElem], (congrArg Block.rvRG hwritten).symm, hacquired⟩

/-- Settles O49, as O48 with `intensityGrid`. -/
theorem rdigReadsIntensityGrid : Obligations.RdigReadsIntensityGrid := by
  constructor
  · intro s good fs bs hready hgood hfails hbytes
    refine ⟨intensityGrid s.params (fbStore s.params good), fun i => ?_,
      exec_read_accepts rdig_reads good fs bs s hgood hfails hbytes hready⟩
    rw [intensityGrid_getElem, memRead2_fbStore s.params hgood.size (by omega)]
  · intro s t w hready hexec hrsp hok
    obtain ⟨hwritten, hacquired⟩ := read_ends_ok rdig_reads hready hexec hrsp hok
    have hgrid : t.block.igridRaw = intensityGrid t.params t.block.fb := (congrArg Block.igridRaw hwritten).symm
    exact ⟨fun i => by rw [hgrid, intensityGrid_getElem], (congrArg Block.rvIG hwritten).symm, hacquired⟩

/-! ### An operation that fails (spec/44 R181) -/

/-- Nothing but the end comes after the last line. -/
theorem TickEffect.idle_of_runOff {p : Params} {b b' : Block} (e : TickEffect p b b') (h : RunOff b) : b'.seq = [] := by
  obtain ⟨top, hseq, hnone⟩ := h
  cases e with
  | finish => rfl
  | _ => simp_all

/-- An engine step leaves the results alone, unless it is the assignment of a read operation, which is its last line; no
operation calls a read operation, so it is the outermost. -/
theorem TickEffect.results_cases {p : Params} {b b' : Block} (e : TickEffect p b b') (hstack : StackOk b.seq) :
    results b' = results b ∨ RunOff b' := by
  cases e with
  | assign top rest f hseq hline =>
    obtain hsame | hread := (assignmentOf_of_mem (List.mem_of_getElem? hline)).results_or_read
    · exact .inl (hsame p b)
    · obtain ⟨-, hl⟩ | ⟨hstep, -⟩ := hread.line_cases hline
      · cases hl
      · have hroom := StackOk.rank_add_callers_le rest top (hseq ▸ hstack).ranks
        obtain rfl : rest = [] := List.eq_nil_of_length_eq_zero (by have := hread.rank; omega)
        exact .inr ⟨_, rfl, hread.line_none (by simp [hstep])⟩
  | _ => exact .inl rfl

/-- Where an operation ends with a status other than OK it has not run off its last line. -/
theorem EndsWith.not_runOff {s : State} {st : Status} (h : EndsWith s st) (hst : st ≠ .ok) : ¬ RunOff s.block := by
  rintro ⟨top, hseq, hnone⟩
  cases h with
  | ok => exact hst rfl
  | busErr top' rest line hseq' hline => simp_all
  | stop top' rest f st hseq' hline => simp_all

/-- Settles O50: while an operation goes on its results are as before until it has run off its last line, and from there it ends
OK. -/
theorem failedReadWritesNoResult : Obligations.FailedReadWritesNoResult := by
  intro i s t w hready hexec hrsp hfailed
  obtain ⟨hnone, -⟩ | ⟨u, st, ⟨hstack, hresults⟩, -, -, -, e, hidle, -, hst, hend⟩ :=
    exec_ends i s t (fun b => StackOk b.seq ∧ (results b = results s.block ∨ RunOff b)) hready hexec
      ⟨.single i, .inl rfl⟩ (fun b b' ⟨hstack, hresults⟩ e hgoes => ⟨e.keeps_stack hstack, by
        obtain hsame | hoff := hresults
        · exact (e.results_cases hstack).imp_left fun h => h.trans hsame
        · exact absurd (e.idle_of_runOff hoff) hgoes⟩)
  · exact absurd (hnone.symm.trans hrsp) (by simp)
  obtain rfl : w = responseWord st (responseInfo i st t.block) := Option.some.inj (hrsp.symm.trans hend)
  rw [status_responseWord, ne_eq, statusCode_eq_zero_iff] at hfailed
  have hbefore := hresults.resolve_right (hst.not_runOff hfailed)
  have hlast : results t.block = results u.block := by
    refine (e.results_cases hstack).resolve_right fun ⟨top, hseq, _⟩ => ?_
    exact absurd (hidle.symm.trans hseq) (by simp)
  exact hlast.trans hbefore

end Sys2Proof.Machine

/-! SUPPORT. The statements of the exceptions family (spec/60): words answered at the request port without running, `FAULT` until
reset, how a run ends with a failing transfer, what a bus error leaves recorded, and how an acquisition fails. -/

namespace Sys2Proof.Machine

/-! ### Words answered at once (spec/60 R200, R205, R207) -/

/-- An illegal word names no operation (R81, R83). -/
theorem decode_of_illegal {w : ReqWord} (h : Request.illegal w = true) : decode w = none := by
  rw [← Option.not_isSome_iff_eq_none, decodedWordsAreTheLegalOnes w, Request.legal, h]
  decide

/-- A word that names no operation is turned away. -/
theorem acceptWord_of_decode_none {w : ReqWord} (hdec : decode w = none) (s : State) :
    acceptWord w s = .next (rejectWord w s) := by
  rw [acceptWord, hdec]

/-- While `FAULT` = 1 it does not matter whether the word names an operation. -/
theorem acceptWord_faulted (w : ReqWord) {s : State} (hidle : s.block.busy = false) (hfault : s.block.fault = true) :
    acceptWord w s = .next (answerAtOnce .faulted w s) := by
  cases hdec : decode w with
  | none => rw [acceptWord_of_decode_none hdec, rejectWord, if_pos hfault]
  | some i => rw [acceptWord_of_decode hdec, exec_eq_operate, operate_faulted i s hidle hfault, encodeOfDecode w i hdec]

/-- Settles O7: the word decodes to nothing, so the idle block without a fault answers it `ILLEGAL` at once. -/
theorem illegalWordChangesNothing : Obligations.IllegalWordChangesNothing := by
  intro s w rest hready hhost hillegal
  have hnoFault : (takeAction rest s).block.fault ≠ true := by simp [hready.noFault]
  rw [step_request_idle hready.idle hhost, acceptWord_of_decode_none (decode_of_illegal hillegal), rejectWord,
    if_neg hnoFault]
  rfl

/-- Settles O8: the idle block accepts the word, and `acceptWord_faulted`. -/
theorem faultedWordChangesNothing : Obligations.FaultedWordChangesNothing := by
  intro s w rest hidle hfault hhost
  rw [step_request_idle hidle hhost, acceptWord_faulted w (s := takeAction rest s) hidle hfault]
  rfl

/-- An accepted word has a next state, whether it names an operation or not. -/
theorem acceptWord_next (w : ReqWord) (s : State) : ∃ t, acceptWord w s = .next t := by
  cases hdec : decode w with
  | none => exact ⟨_, acceptWord_of_decode_none hdec s⟩
  | some i => exact ⟨_, (acceptWord_of_decode hdec s).trans (exec_eq_operate i s)⟩

/-- Settles O56: only a request on an idle block is more than a state by its definition (`acceptWord_next`). -/
theorem everyStepHasNextState : Obligations.EveryStepHasNextState := by
  intro s
  unfold step
  split
  · exact ⟨_, rfl⟩
  · exact ⟨_, rfl⟩
  · exact ⟨_, rfl⟩
  · exact ⟨_, rfl⟩
  · exact ⟨_, rfl⟩
  · next w rest _ =>
    split
    · exact ⟨_, rfl⟩
    · exact acceptWord_next w (takeAction rest s)
  · next w rest _ => split <;> exact ⟨_, rfl⟩

/-! ### `FAULT` until reset (spec/60 R204) -/

/-- No step of the engine clears `FAULT`. -/
theorem TickEffect.keeps_fault {p : Params} {b b' : Block} (e : TickEffect p b b') (h : b.fault = true) :
    b'.fault = true := by
  cases e with
  | assign top rest f hseq hline => exact (assign_fault top.op f (List.mem_of_getElem? hline) p b).trans h
  | bufferError => rfl
  | byteError => rfl
  | _ => exact h

/-- Settles O12: the engine and an acceptance keep `FAULT`, and nothing else but reset writes the block. -/
theorem onlyResetClearsFault : Obligations.OnlyResetClearsFault := by
  intro s t hfault hstep
  by_cases hreset : ∃ rest, s.env.host = .reset :: rest
  · exact .inr hreset
  · exact .inl (step_keeps_block (C := fun b => b.fault = true) (fun _ _ h e => e.keeps_fault h) s t rfl hstep
      (fun _ _ => hfault) (fun h => absurd h hreset) hfault)

/-! ### How a run ends with a failing transfer (spec/60 R204) -/

/-- A request to a ready block whose operation ends with a status, at whatever depth of calls (spec/60 R200 (b)): what the run
left, the engine idle, `BUSY` 0 as the ready block had it, and the response delivered. -/
theorem exec_ended (i : Instr) (st : Status) (info : Half) (n : Nat) (q : List Position) (s t : State) (hready : Ready s)
    (hle : n ≤ runBound) (hrun : drive n (accept i s) = endOperation st (setSeq q t))
    (hbottom : q.getLast?.map Position.op = some i) (hinfo : responseInfo i st { t.block with seq := q } = info) :
    exec i s = .next (respond st info (setBlock { t.block with seq := [], busy := s.block.busy } t)) := by
  have hend : endOperation st (setSeq q t) = respond st info (setBlock { t.block with seq := [], busy := false } t) := by
    have hout : outermost (setSeq q t).block = some i := hbottom
    rw [endOperation, currentInfo, hout]
    exact congrArg (fun info => respond st info _) hinfo
  rw [hready.idle]
  exact exec_done i n s _ hready hle (hrun.trans hend) rfl

/-- What `raise BusError` itself writes (spec/60 R204). -/
def faulted (s : State) : State := setBlock { s.block with fault := true, fbValid := false } s

/-- A request to a ready block that ends with a bus error, at whatever depth of calls. -/
theorem exec_busErr (i : Instr) (info : Half) (n : Nat) (q : List Position) (s t : State) (hready : Ready s)
    (hle : n ≤ runBound) (hrun : drive n (accept i s) = raiseBusError (setSeq q t))
    (hbottom : q.getLast?.map Position.op = some i)
    (hinfo : ∀ b, b.attempts = t.block.attempts → responseInfo i .busErr b = info) :
    exec i s = .next (respond .busErr info
      (setBlock { t.block with fault := true, fbValid := false, seq := [], busy := s.block.busy } t)) :=
  exec_ended i .busErr info n q s (faulted t) hready hle hrun hbottom (hinfo _ rfl)

/-- What a failing buffer transfer leaves before `raise BusError`: free bytes in the Frame Buffer (spec/93 U5, log 9). -/
def lostFrame (fs : List Bool) (s : State) : State :=
  { s with
    block := { s.block with fb := fbStore s.params (freeFrame s.env) }
    env := { s.env with fails := fs, drawn := s.env.drawn + 1 }
    hist := .busBuf (fbBytes s.params s.block.fb) none :: s.hist }

/-- What a failing byte transfer leaves before `raise BusError`. -/
def lostByte (fs : List Bool) (s : State) : State :=
  { s with
    env := { s.env with fails := fs }
    hist := .busByte s.params.skipFill none :: s.hist }

/-- A buffer transfer the script lets fail. -/
theorem tick_busBuf_failed (op : Instr) (k : Nat) (rest : List Position) (fs : List Bool) (s : State)
    (hline : (linesOf op)[k]? = some .busBuf) (hf : s.env.fails = true :: fs) :
    tick (setSeq (⟨op, k⟩ :: rest) s) = raiseBusError (setSeq (⟨op, k⟩ :: rest) (lostFrame fs s)) := by
  have hbuf := busBuf_failed fs (setSeq (⟨op, k⟩ :: rest) s) hf
  rw [tick_at op k rest _ s hline]
  simp only [runLine, transferFrame, hbuf]
  rfl

/-- A length byte's transfer the script lets fail. -/
theorem tick_readLen_failed (op : Instr) (k : Nat) (rest : List Position) (fs : List Bool) (s : State)
    (hline : (linesOf op)[k]? = some .readLen) (hf : s.env.fails = true :: fs) :
    tick (setSeq (⟨op, k⟩ :: rest) s) = raiseBusError (setSeq (⟨op, k⟩ :: rest) (lostByte fs s)) := by
  have hbus := busByte_failed s.params.skipFill fs (setSeq (⟨op, k⟩ :: rest) s) hf
  rw [tick_at op k rest _ s hline]
  simp only [runLine, readLength, setSeq_params, hbus]
  rfl

/-- Settles O27: acceptance, the failing transfer, and the end. -/
theorem xferBusErrorIsFatal : Obligations.XferBusErrorIsFatal := by
  intro s fs hready hfails
  have hrun : drive 1 (accept .xfer s) = _ :=
    (drive_one _).trans (tick_busBuf_failed .xfer 0 [] fs (accept .xfer s) rfl hfails)
  exact exec_busErr .xfer 0 1 [⟨.xfer, 0⟩] s _ hready (by decide) hrun rfl (fun _ _ => rfl)

/-! ### Skips cut short (spec/41 R120 to R122, spec/42 R135) -/

/-- `SKIPN` from its first line to a discard that fails. -/
theorem skipn_failed (n : Half) (rest : List Position) (rx : List Byte) (fs : List Bool) (bs : List Byte) (s : State)
    (hlen : rx.length < n.toNat) (hf : s.env.fails = List.replicate rx.length false ++ true :: fs)
    (hb : s.env.bytes = rx ++ bs) :
    drive (1 + (rx.length + 1)) (setSeq (⟨.skipn n, 0⟩ :: rest) s) =
      raiseBusError (setSeq (⟨.skipn n, 1⟩ :: rest) (cutShort rx fs bs (updated (fun _ b => { b with cnt := n }) s))) :=
  drive_cons (tick_assign (.skipn n) 0 rest (fun _ b => { b with cnt := n }) s rfl (fun _ => rfl))
    (discard_failed (.skipn n) 1 rest rfl fs bs rx _ hlen hf hb)

/-- A count less a number not above it, as `CNT` less the discards made. -/
theorem ofNat_toNat_sub {w : Nat} (x : BitVec w) {k : Nat} (h : k ≤ x.toNat) :
    x - BitVec.ofNat w k = BitVec.ofNat w (x.toNat - k) := by
  rw [← BitVec.ofNat_sub_ofNat_of_le _ _ (by omega) h, BitVec.ofNat_toNat, BitVec.setWidth_eq]

/-- A request for a skip, or for an operation that begins with one, cut short: the end and the response. -/
theorem exec_cutShort (i : Instr) (n : Nat) (q : List Position) (rx : List Byte) (fs : List Bool) (bs : List Byte) (s t : State)
    (hready : Ready s) (hle : n ≤ runBound)
    (hrun : drive n (accept i s) = raiseBusError (setSeq q (cutShort rx fs bs t)))
    (hbottom : q.getLast?.map Position.op = some i) (hinfo : ∀ b, responseInfo i .busErr b = 0)
    (hcnt : rx.length ≤ t.block.cnt.toNat) :
    exec i s = .next { t with
      block := { t.block with
        cnt := BitVec.ofNat 16 (t.block.cnt.toNat - rx.length), fault := true, fbValid := false, seq := []
        busy := s.block.busy }
      env := { t.env with fails := fs, bytes := bs }
      rsp := some 0x50000
      hist := History.add
        (discardEvents t.params.skipFill rx ++ [.busByte t.params.skipFill none, responseEvent .busErr 0]) t.hist } := by
  rw [exec_busErr i 0 n q s _ hready hle hrun hbottom (fun b _ => hinfo b), ← ofNat_toNat_sub _ hcnt, History.add_append]
  rfl

/-- After a length byte was received (spec/41 R121). -/
def lengthRead (l : Byte) (fs : List Bool) (bs : List Byte) (s : State) : State :=
  { s with
    block := { s.block with len := l }
    env := { s.env with fails := fs, bytes := bs }
    hist := .busByte s.params.skipFill (some l) :: s.hist }

/-- A length byte the script lets be received. -/
theorem tick_readLen (op : Instr) (k : Nat) (rest : List Position) (l : Byte) (fs : List Bool) (bs : List Byte) (s : State)
    (hline : (linesOf op)[k]? = some .readLen) (hf : s.env.fails = false :: fs) (hb : s.env.bytes = l :: bs) :
    tick (setSeq (⟨op, k⟩ :: rest) s) = setSeq (⟨op, k + 1⟩ :: rest) (lengthRead l fs bs s) := by
  have hbus := busByte_scripted s.params.skipFill l fs bs (setSeq (⟨op, k⟩ :: rest) s) hf hb
  have hmask : l &&& 0xFF = l := BitVec.and_allOnes
  rw [tick_at op k rest _ s hline]
  simp only [runLine, readLength, setSeq_params, hbus, hmask]
  rfl

/-- The discards of a `SKIPV` come after its length byte's transfer. -/
theorem History.add_discardEvents_cons (fill l : Byte) (rx : List Byte) (hist : List Event) :
    History.add (discardEvents fill (l :: rx)) hist = History.add (discardEvents fill rx) (.busByte fill (some l) :: hist) := by
  simp [History.add, discardEvents]

/-- `CNT` when a `SKIPV` of length `l` begins to discard. -/
def lengthCounted (l : Byte) (fs : List Bool) (bs : List Byte) (s : State) : State :=
  updated (fun _ b => { b with cnt := b.len.setWidth 16 }) (lengthRead l fs bs s)

theorem lengthCounted_cnt (l : Byte) (fs : List Bool) (bs : List Byte) (s : State) :
    (lengthCounted l fs bs s).block.cnt.toNat = l.toNat := by
  show (l.setWidth 16).toNat = l.toNat
  rw [BitVec.toNat_setWidth]
  omega

/-- `SKIPV` from its first line to a discard that fails. -/
theorem skipv_failed (l : Byte) (rest : List Position) (rx : List Byte) (fs : List Bool) (bs : List Byte) (s : State)
    (hlen : rx.length < l.toNat) (hf : s.env.fails = List.replicate (rx.length + 1) false ++ true :: fs)
    (hb : s.env.bytes = l :: (rx ++ bs)) :
    drive (1 + (1 + (rx.length + 1))) (setSeq (⟨.skipv, 0⟩ :: rest) s) =
      raiseBusError (setSeq (⟨.skipv, 2⟩ :: rest)
        (cutShort rx fs bs (lengthCounted l (List.replicate rx.length false ++ true :: fs) (rx ++ bs) s))) := by
  let fs1 := List.replicate rx.length false ++ true :: fs
  have hread := tick_readLen .skipv 0 rest l fs1 (rx ++ bs) s rfl hf hb
  have hset := tick_assign .skipv 1 rest (fun _ b => { b with cnt := b.len.setWidth 16 }) (lengthRead l fs1 (rx ++ bs) s) rfl
    (fun _ => rfl)
  have hcut := discard_failed .skipv 2 rest rfl fs bs rx (lengthCounted l fs1 (rx ++ bs) s)
    ((lengthCounted_cnt ..).symm ▸ hlen) rfl rfl
  exact drive_cons hread (drive_cons hset hcut)

/-- `SETMODE` from its first line to a discard of its flush that fails. -/
theorem setmode_flush_failed (m : Mode) (rest : List Position) (rx : List Byte) (fs : List Bool) (bs : List Byte) (s : State)
    (hlen : rx.length < 256) (hf : s.env.fails = List.replicate rx.length false ++ true :: fs)
    (hb : s.env.bytes = rx ++ bs) :
    drive (1 + (1 + (1 + (rx.length + 1)))) (setSeq (⟨.setmode m, 0⟩ :: rest) s) =
      raiseBusError (setSeq (⟨.skipn 256, 1⟩ :: ⟨.setmode m, 1⟩ :: rest)
        (cutShort rx fs bs (updated (fun _ b => { b with mode := m, modeV := true, cnt := 256 }) s))) := by
  let s1 := updated (fun _ b => { b with mode := m, modeV := true }) s
  have hset := tick_assign (.setmode m) 0 rest (fun _ b => { b with mode := m, modeV := true }) s rfl (fun _ => rfl)
  have hcall := tick_call (.setmode m) 1 rest (fun _ _ => .skipn 256) s1 rfl
  exact drive_cons hset (drive_cons hcall (skipn_failed 256 (⟨.setmode m, 1⟩ :: rest) rx fs bs s1 hlen hf hb))

/-- An operation that comes, through calls, to a `SETMODE` whose flush fails. -/
theorem exec_flush_failed (i : Instr) (m : Mode) (rest : List Position) (s : State) (rx : List Byte) (fs : List Bool)
    (bs : List Byte) (hready : Ready s) (hlen : rx.length < 256)
    (hf : s.env.fails = List.replicate rx.length false ++ true :: fs) (hb : s.env.bytes = rx ++ bs)
    (hcalled : drive rest.length (accept i s) = setSeq (⟨.setmode m, 0⟩ :: rest) (accept i s)) (hdepth : rest.length ≤ 1)
    (hbottom : (⟨.setmode m, 1⟩ :: rest : List Position).getLast?.map Position.op = some i)
    (hinfo : ∀ b, responseInfo i .busErr b = 0) :
    exec i s = .next { s with
      block := { s.block with
        mode := m, modeV := true, cnt := BitVec.ofNat 16 (256 - rx.length)
        fault := true, fbValid := false, seq := [] }
      env := { s.env with fails := fs, bytes := bs }
      rsp := some 0x50000
      hist := History.add
        ([.request (encode i)] ++ discardEvents s.params.skipFill rx
          ++ [.busByte s.params.skipFill none, responseEvent .busErr 0]) s.hist } := by
  have hbound : rest.length + (1 + (1 + (1 + (rx.length + 1)))) ≤ runBound := by unfold runBound; omega
  have hrun := drive_trans hcalled (setmode_flush_failed m rest rx fs bs (accept i s) hlen hf hb)
  rw [List.append_assoc, History.add_append]
  exact exec_cutShort i _ _ rx fs bs s _ hready hbound hrun ((getLast_op _ _ _).trans hbottom) hinfo hlen.le

/-- Settles O29: acceptance, the run to the transfer that fails, and the end; in `SYNC` the skip is two calls deep. -/
theorem skipnBusErrorKeepsCount : Obligations.SkipnBusErrorKeepsCount := by
  intro s rx fs bs hready
  refine ⟨fun n hlen hf hb => ?_, fun hf => ?_, fun l hlen hf hb => ?_, fun i m hi hlen hf hb => ?_⟩
  · have hbound : 1 + (rx.length + 1) ≤ runBound := by unfold runBound; omega
    have hrun := skipn_failed n [] rx fs bs (accept (.skipn n) s) hlen hf hb
    rw [List.append_assoc, History.add_append]
    exact exec_cutShort (.skipn n) _ _ rx fs bs s _ hready hbound hrun rfl (fun _ => rfl) hlen.le
  · have hrun : drive 1 (accept .skipv s) = _ :=
      (drive_one _).trans (tick_readLen_failed .skipv 0 [] fs (accept .skipv s) rfl hf)
    exact exec_busErr .skipv 0 1 _ s _ hready (by decide) hrun rfl (fun _ _ => rfl)
  · have hbound : 1 + (1 + (rx.length + 1)) ≤ runBound := by unfold runBound; omega
    have hrun := skipv_failed l [] rx fs bs (accept .skipv s) hlen hf hb
    have hexec := exec_cutShort .skipv _ _ rx fs bs s _ hready hbound hrun rfl (fun _ => rfl)
      ((lengthCounted_cnt ..).symm ▸ hlen.le)
    rw [lengthCounted_cnt] at hexec
    rw [List.append_assoc, History.add_append, History.add_append, History.add_discardEvents_cons, ← History.add_append]
    exact hexec
  · simp only [List.mem_cons, Prod.mk.injEq, List.not_mem_nil, or_false] at hi
    have hsetmode : exec (.setmode m) s = _ :=
      exec_flush_failed _ m [] s rx fs bs hready hlen hf hb rfl (by decide) rfl (fun _ => rfl)
    obtain ⟨rfl, rfl⟩ | ⟨rfl, rfl⟩ | ⟨rfl, rfl⟩ := hi
    · exact hsetmode
    · exact hsetmode
    · have hcall := tick_call .sync 0 [] (fun _ _ => .setmode .sync) (accept .sync s) rfl
      exact exec_flush_failed _ .sync [⟨.sync, 0⟩] s rx fs bs hready hlen hf hb ((drive_one _).trans hcall) (by decide) rfl
        (fun _ => rfl)

/-! ### `BUSERR` and `FAULT` (spec/60 R204, R201) -/

/-- A test that ends an operation answers one of the validation errors or CFGUNSET (spec/43 R152). -/
theorem AcqTest.stop_ne_busErr {k : Nat} {f : Params → Block → Flow} {p : Params} {b : Block} {st : Status}
    (h : AcqTest k f) (hflow : f p b = .stop st) : st ≠ .busErr := by
  rintro rfl
  cases h <;> simp [ite_eq_iff] at hflow

/-- Where a fault appears the operation is over: idle, `BUSY` 0, `FBVALID` 0. -/
theorem TickEffect.fault_appears {p : Params} {b b' : Block} (e : TickEffect p b b') (hbefore : b.fault = false)
    (hafter : b'.fault = true) : b'.busy = false ∧ b'.seq = [] ∧ b'.fbValid = false := by
  have hnone (h : b'.fault = b.fault) : False := by simp [hbefore, hafter] at h
  cases e with
  | assign top rest f hseq hline => exact (hnone (assign_fault top.op f (List.mem_of_getElem? hline) p b)).elim
  | bufferError => exact ⟨rfl, rfl, rfl⟩
  | byteError => exact ⟨rfl, rfl, rfl⟩
  | _ => exact (hnone rfl).elim

/-- An operation ends `BUSERR` exactly where its last step raises `FAULT`. -/
theorem EndsWith.busErr_iff {s : State} {st : Status} (h : EndsWith s st) (hbefore : s.block.fault = false) :
    st = .busErr ↔ (tick s).block.fault = true := by
  cases h with
  | ok top hseq hline =>
    have htick : (tick s).block.fault = s.block.fault := by rw [tick_end s top [] hseq hline]; rfl
    simp [htick, hbefore]
  | busErr top rest line hseq hline hbus hfault => simp [hfault]
  | stop top rest f st hseq hline hflow =>
    have htick : (tick s).block.fault = s.block.fault := by
      rw [tick_line s top rest _ hseq hline, runLine, hflow]
      rfl
    simpa [htick, hbefore] using (acqTest_of_line hline).2.stop_ne_busErr hflow

theorem statusCode_injective : Function.Injective statusCode := by
  intro st st' h
  revert h
  cases st <;> cases st' <;> decide

/-- The `info` of a failed operation: `ATTEMPTS` where there is an acquisition (spec/60 R201). -/
theorem responseInfo_busErr {i : Instr} (h : i ≠ .val) (b : Block) :
    responseInfo i .busErr b = if callRank i < 3 then 0 else b.attempts := by
  cases i with
  | val => exact absurd rfl h
  | _ => rfl

/-- EVERY REQUEST TO A READY BLOCK, by the fault it leaves: with one it was answered BUSERR, without one it was not. -/
theorem exec_busErr_iff_fault {i : Instr} {s t : State} (hready : Ready s) (hexec : exec i s = .next t) :
    (t.block.fault = true →
      t.rsp = some (responseWord .busErr (if callRank i < 3 then 0 else t.block.attempts)) ∧
        t.block.busy = false ∧ t.block.seq = [] ∧ t.block.fbValid = false) ∧
      (t.block.fault = false → ∀ w, t.rsp = some w → w.extractLsb' 16 4 ≠ 5) := by
  obtain ⟨hnone, hnoFault, -⟩ | ⟨u, st, -, -, -, hbefore, e, -, ht, hst, hrsp⟩ :=
    exec_ends i s t (fun _ => True) hready hexec trivial (fun _ _ _ _ _ => trivial)
  · exact ⟨fun h => absurd (hnoFault.symm.trans h) (by simp), fun _ w hw => absurd (hnone.symm.trans hw) (by simp)⟩
  · have hiff := hst.busErr_iff hbefore
    rw [← ht] at hiff
    refine ⟨fun hfault => ?_, fun hfault w hw => ?_⟩
    · have hval : i ≠ .val := by
        rintro rfl
        rw [valClassifiesFrame s hready] at hexec
        cases hexec
        exact absurd (hready.noFault.symm.trans hfault) (by simp)
      rw [hrsp, hiff.mpr hfault, responseInfo_busErr hval]
      exact ⟨rfl, e.fault_appears hbefore hfault⟩
    · obtain rfl : responseWord st (responseInfo i st t.block) = w := Option.some.inj (hrsp.symm.trans hw)
      rw [status_responseWord]
      exact fun hcode => absurd (hfault.symm.trans (hiff.mp (statusCode_injective hcode))) Bool.false_ne_true

/-! ### The session state stays recorded (spec/42 R135, R136, spec/41 R122) -/

/-- The operations below `ACQ` that write no mode but `m`, nor does any operation they call. -/
def RecordsMode (m : Mode) (op : Instr) : Prop :=
  op = .setmode m ∨ (op = .sync ∧ m = .sync) ∨ ((∃ d r, op = .config d r) ∧ m = .normal) ∨ callRank op = 0

theorem RecordsMode.called {m : Mode} {op callee : Instr} {p : Params} {b : Block} (h : RecordsMode m op)
    (hcalls : Calls p b op callee) : RecordsMode m callee := by
  obtain rfl | ⟨rfl, rfl⟩ | ⟨⟨d, r, rfl⟩, rfl⟩ | hrank := h
  · exact .inr (.inr (.inr (Nat.lt_one_iff.mp hcalls.rank_lt)))
  · cases hcalls with
    | syncMode => exact .inl rfl
    | _ => exact .inr (.inr (.inr rfl))
  · cases hcalls with
    | configMode => exact .inl rfl
    | _ => exact .inr (.inr (.inr rfl))
  · exact absurd (hrank ▸ hcalls.rank_lt) (Nat.not_lt_zero _)

/-- The frame principle with no register: the engine stays among the operations that write no other mode. -/
theorem recordsMode_closed (m : Mode) : Untouched (RecordsMode m) (fun _ => ()) :=
  .of_registers (fun _ _ _ _ _ _ _ _ => rfl) (fun _ _ _ _ h hcalls => h.called hcalls) (fun _ _ _ _ _ _ => rfl)

/-- `MODE` is recorded as `m` (spec/10 R28). -/
structure ModeRecorded (m : Mode) (b : Block) : Prop where
  mode : b.mode = m
  valid : b.modeV = true

theorem AssignmentOf.keeps_mode {op : Instr} {f : Params → Block → Block} (h : AssignmentOf op f) {m : Mode}
    (hop : RecordsMode m op) {p : Params} {b : Block} (hb : ModeRecorded m b) : ModeRecorded m (f p b) := by
  cases h with
  | setmode m' =>
    obtain rfl : m' = m := by simpa [RecordsMode, callRank] using hop
    exact ⟨rfl, rfl⟩
  | _ => exact ⟨hb.mode, hb.valid⟩

theorem TickEffect.keeps_mode {p : Params} {b b' : Block} (e : TickEffect p b b') {m : Mode}
    (hops : ∀ pos ∈ b.seq, RecordsMode m pos.op) (hb : ModeRecorded m b) : ModeRecorded m b' := by
  cases e with
  | assign top rest f hseq hline =>
    have hkept := (assignmentOf_of_mem (List.mem_of_getElem? hline)).keeps_mode (p := p) (hops top (by simp [hseq])) hb
    exact ⟨hkept.mode, hkept.valid⟩
  | _ => exact ⟨hb.mode, hb.valid⟩

/-- A run among these operations keeps the mode recorded. -/
theorem drive_keeps_mode {m : Mode} (n : Nat) (s : State) (hops : ∀ pos ∈ s.block.seq, RecordsMode m pos.op)
    (hs : ModeRecorded m s.block) : ModeRecorded m (drive n s).block :=
  (drive_keeps (fun t => ModeRecorded m t.block ∧ ∀ pos ∈ t.block.seq, RecordsMode m pos.op)
    (fun t ⟨ht, hops⟩ => ⟨(tick_effect t).1.keeps_mode hops ht, ((recordsMode_closed m).tick t hops).2⟩) n s
    ⟨hs, hops⟩).1

/-- A request is its run from wherever its first steps lead. -/
theorem exec_from {i : Instr} {n : Nat} {s t u : State} (hready : Ready s) (hexec : exec i s = .next t) (hle : n ≤ runBound)
    (hrun : drive n (accept i s) = u) : t = drive (runBound - n) u := by
  rw [exec_eq_operate, operate_ready i s hready] at hexec
  rw [← hrun, ← drive_add, Nat.add_sub_of_le hle]
  exact (Host.Outcome.next.inj hexec).symm

/-- `SETMODE m` records the mode before its first transfer. -/
theorem exec_setmode_records {m : Mode} {s t : State} (hready : Ready s) (hexec : exec (.setmode m) s = .next t) :
    ModeRecorded m t.block := by
  have hset := tick_assign (.setmode m) 0 [] (fun _ b => { b with mode := m, modeV := true }) (accept (.setmode m) s) rfl
    (fun _ => rfl)
  rw [exec_from hready hexec (by decide) ((drive_one _).trans hset)]
  exact drive_keeps_mode _ _ (by simp [RecordsMode]) ⟨rfl, rfl⟩

/-- The first two lines of a `SETMODE` called, and what they record. -/
theorem called_setmode_run (op : Instr) (k : Nat) (m : Mode) (rest : List Position) (s : State)
    (hline : (linesOf op)[k]? = some (.call (fun _ _ => .setmode m))) :
    drive 2 (setSeq (⟨op, k⟩ :: rest) s) =
      setSeq (⟨.setmode m, 1⟩ :: ⟨op, k⟩ :: rest) (updated (fun _ b => { b with mode := m, modeV := true }) s) :=
  drive_cons (tick_call op k rest _ s hline) ((drive_one _).trans (tick_assign (.setmode m) 0 _ _ s rfl (fun _ => rfl)))

/-- `SYNC` records Sync before its first transfer, which is in the `SETMODE` it calls. -/
theorem exec_sync_records {s t : State} (hready : Ready s) (hexec : exec .sync s = .next t) :
    ModeRecorded .sync t.block := by
  rw [exec_from hready hexec (by decide) (called_setmode_run .sync 0 .sync [] (accept .sync s) rfl)]
  exact drive_keeps_mode _ _ (by simp [RecordsMode]) ⟨rfl, rfl⟩

/-- `CONFIG d, r` records the distance, the rate and the mode before its first transfer. -/
theorem exec_config_records {d : Dist} {r : Rate} {s t : State} (hready : Ready s)
    (hexec : exec (.config d r) s = .next t) :
    t.block.dist = d ∧ t.block.rate = r ∧ t.block.cfgV = true ∧ ModeRecorded .normal t.block := by
  let u := updated (fun _ b => { b with dist := d, rate := r, cfgV := true }) (accept (.config d r) s)
  have hset : drive 1 (accept (.config d r) s) = setSeq [⟨.config d r, 1⟩] u :=
    (drive_one _).trans (tick_assign (.config d r) 0 [] _ (accept (.config d r) s) rfl (fun _ => rfl))
  have hmode := drive_trans hset (called_setmode_run (.config d r) 1 .normal [] u rfl)
  have hkept : ConfigurationKept u.block t.block := by
    rw [exec_from hready hexec (by decide) hset]
    refine drive_keeps_block (fun _ _ h e => e.keeps_configuration h) _ _ rfl ⟨rfl, rfl, rfl, ?_⟩
    exact ⟨by simp [u, updated], by simp, by simp⟩
  refine ⟨hkept.dist, hkept.rate, hkept.cfgV, ?_⟩
  rw [exec_from hready hexec (by decide) hmode]
  exact drive_keeps_mode _ _ (by simp [RecordsMode]) ⟨rfl, rfl⟩

/-- `SETMODE` from its first line to the transfer of its command, which fails: `FAULT` is set. -/
theorem setmode_command_failed (m : Mode) (rest : List Position) (r : List Byte) (fs : List Bool) (bs : List Byte) (s : State)
    (hr : r.length = 256) (hf : s.env.fails = List.replicate 256 false ++ true :: fs) (hb : s.env.bytes = r ++ bs) :
    ∃ q u, drive 267 (setSeq (⟨.setmode m, 0⟩ :: rest) s) = raiseBusError (setSeq q u) := by
  let s1 := updated (fun _ b => { b with mode := m, modeV := true }) s
  let s2 := settled (discarded r (true :: fs) bs s1)
  let s3 := updated (fun p b => { b with fb := fbStore p (commandFrame p.cmdMode (modeVal p m)), fbValid := false }) s2
  have hset := tick_assign (.setmode m) 0 rest (fun _ b => { b with mode := m, modeV := true }) s rfl (fun _ => rfl)
  have hflush := call_flush_run (.setmode m) 1 rest r (true :: fs) bs s1 rfl hr hf hb
  have hdelay := tick_delay (.setmode m) 2 rest (discarded r (true :: fs) bs s1) rfl
  have henc := call_run (.setmode m) (.enc s.params.cmdMode (modeVal s.params m)) 3 1 1 rest
    (fun p _ => .enc p.cmdMode (modeVal p m)) s2 s3 rfl (fun _ => rfl) (enc_run _ _ _ s2) rfl
  have hcall := tick_call (.setmode m) 4 rest (fun _ _ => .xfer) s3 rfl
  have hfail := tick_busBuf_failed .xfer 0 (⟨.setmode m, 4⟩ :: rest) fs s3 rfl rfl
  exact ⟨_, _, drive_cons hset (drive_trans hflush (drive_cons hdelay (drive_trans henc
    (drive_cons hcall ((drive_one _).trans hfail)))))⟩

/-- `CONFIG` with a failing mode command ends with `FAULT` set. -/
theorem exec_config_command_failed (d : Dist) (r : Rate) (s : State) (r1 : List Byte) (fs : List Bool) (bs : List Byte)
    (hready : Ready s) (hr : r1.length = 256) (hf : s.env.fails = List.replicate 256 false ++ true :: fs)
    (hb : s.env.bytes = r1 ++ bs) : ∃ t, exec (.config d r) s = .next t ∧ t.block.fault = true := by
  let u := updated (fun _ b => { b with dist := d, rate := r, cfgV := true }) (accept (.config d r) s)
  have hset := tick_assign (.config d r) 0 [] _ (accept (.config d r) s) rfl (fun _ => rfl)
  have hcall := tick_call (.config d r) 1 [] (fun _ _ => .setmode .normal) u rfl
  obtain ⟨q, v, hfail⟩ := setmode_command_failed .normal [⟨.config d r, 1⟩] r1 fs bs u hr hf hb
  exact ⟨_, exec_done (.config d r) _ s _ hready (by decide) (drive_cons hset (drive_cons hcall hfail)) rfl, rfl⟩

/-- The answer of an operation without an acquisition that ends with a fault. -/
theorem exec_faulted {i : Instr} {s t : State} (hrank : callRank i < 3) (hready : Ready s) (hexec : exec i s = .next t)
    (hfault : t.block.fault = true) : t.rsp = some 0x50000 ∧ t.block.busy = false ∧ t.block.fbValid = false := by
  obtain ⟨hrsp, hbusy, -, hvalid⟩ := (exec_busErr_iff_fault hready hexec).1 hfault
  rw [if_pos hrank] at hrsp
  exact ⟨hrsp, hbusy, hvalid⟩

/-- Settles O35: `FAULT` and `BUSERR` come together (`exec_busErr_iff_fault`), and the session state is recorded before the
first transfer. -/
theorem configBusErrorKeepsRecord : Obligations.ConfigBusErrorKeepsRecord := by
  have hconfig (d : Dist) (r : Rate) (s t : State) (hready : Ready s) (hexec : exec (.config d r) s = .next t)
      (hfault : t.block.fault = true) :
      t.rsp = some 0x50000 ∧ t.block.busy = false ∧ t.block.dist = d ∧ t.block.rate = r ∧ t.block.cfgV = true ∧
        t.block.mode = .normal ∧ t.block.modeV = true ∧ t.block.fbValid = false := by
    obtain ⟨hrsp, hbusy, hvalid⟩ := exec_faulted (by simp [callRank]) hready hexec hfault
    obtain ⟨hdist, hrate, hcfgV, hmode, hmodeV⟩ := exec_config_records hready hexec
    exact ⟨hrsp, hbusy, hdist, hrate, hcfgV, hmode, hmodeV, hvalid⟩
  refine ⟨fun i s t hready hexec => exec_busErr_iff_fault hready hexec, fun d r s t hready hexec hfault => ?_,
    fun m s t hready hexec hfault => ?_, fun s t hready hexec hfault => ?_, fun d r s r1 fs bs hready hr hf hb => ?_⟩
  · obtain ⟨hrsp, -, hrest⟩ := hconfig d r s t hready hexec hfault
    exact ⟨hrsp, hrest⟩
  · obtain ⟨hrsp, -, hvalid⟩ := exec_faulted (by simp [callRank]) hready hexec hfault
    obtain ⟨hmode, hmodeV⟩ := exec_setmode_records hready hexec
    exact ⟨hrsp, hmode, hmodeV, hvalid⟩
  · obtain ⟨hrsp, -, hvalid⟩ := exec_faulted (by simp [callRank]) hready hexec hfault
    obtain ⟨hmode, hmodeV⟩ := exec_sync_records hready hexec
    exact ⟨hrsp, hmode, hmodeV, hvalid⟩
  · obtain ⟨t, hexec, hfault⟩ := exec_config_command_failed d r s r1 fs bs hready hr hf hb
    obtain ⟨hrsp, hrest⟩ := hconfig d r s t hready hexec hfault
    exact ⟨t, hexec, hrsp, hfault, hrest⟩

/-! ### Acquisitions: `ACQ` itself and the read operations (spec/43, spec/44) -/

/-- Where an acquisition stands in `SEQ`: alone, or called by a read operation. -/
inductive Acquires : Instr → List Position → Prop where
  | acq : Acquires .acq []
  | read {op : Instr} {write : Params → Block → Block} (h : ReadOperation op write) : Acquires op [⟨op, 0⟩]

theorem exists_acquires {i : Instr} (hi : i ∈ [Instr.acq, .rdr, .rdi, .rdrg, .rdig]) : ∃ rest, Acquires i rest := by
  simp only [List.mem_cons, List.not_mem_nil, or_false] at hi
  obtain rfl | rfl | rfl | rfl | rfl := hi
  exacts [⟨_, .acq⟩, ⟨_, .read rdr_reads⟩, ⟨_, .read rdi_reads⟩, ⟨_, .read rdrg_reads⟩, ⟨_, .read rdig_reads⟩]

namespace Acquires

variable {i : Instr} {rest : List Position}

theorem length_le (h : Acquires i rest) : rest.length ≤ 1 := by
  cases h with
  | acq => exact Nat.zero_le 1
  | read => exact Nat.le_refl 1

/-- From the acceptance to the first line of `ACQ`. -/
theorem begins (h : Acquires i rest) (s : State) :
    drive rest.length (accept i s) = setSeq (⟨.acq, 0⟩ :: rest) (accept i s) := by
  cases h with
  | acq => rfl
  | read hread => exact (drive_one _).trans (tick_call i 0 [] _ (accept i s) hread.call_line)

/-- The outermost operation is the one requested, wherever `ACQ` stands. -/
theorem bottom (h : Acquires i rest) (k : Nat) :
    (⟨.acq, k⟩ :: rest : List Position).getLast?.map Position.op = some i := by
  cases h <;> rfl

/-- The `info` of an acquisition is `ATTEMPTS`, however it ends (spec/60 R201). -/
theorem info (h : Acquires i rest) (st : Status) (b : Block) : responseInfo i st b = b.attempts := by
  cases h with
  | acq => rfl
  | read hread => exact hread.info st b

end Acquires

/-- A test of `ACQ` that ends it. -/
theorem tick_stop (k : Nat) (rest : List Position) (f : Params → Block → Flow) (st : Status) (s : State)
    (hline : (linesOf .acq)[k]? = some (.test f)) (hflow : f s.params { s.block with seq := ⟨.acq, k⟩ :: rest } = .stop st) :
    tick (setSeq (⟨.acq, k⟩ :: rest) s) = endOperation st (setSeq (⟨.acq, k⟩ :: rest) s) := by
  rw [tick_test .acq k rest f s hline, hflow]
  rfl

/-- A test of `ACQ` that goes on to the next line. -/
theorem tick_next (k : Nat) (rest : List Position) (f : Params → Block → Flow) (s : State)
    (hline : (linesOf .acq)[k]? = some (.test f)) (hflow : f s.params { s.block with seq := ⟨.acq, k⟩ :: rest } = .next) :
    tick (setSeq (⟨.acq, k⟩ :: rest) s) = setSeq (⟨.acq, k + 1⟩ :: rest) s := by
  rw [tick_test .acq k rest f s hline, hflow]
  rfl

/-- An acquisition of a ready block that ends by a test of `ACQ`: what the loop left, and `ATTEMPTS` as the `info`. -/
theorem exec_acquisition_stops {i : Instr} {rest : List Position} (h : Acquires i rest) (st : Status) (info : Half) (k n : Nat)
    (f : Params → Block → Flow) (s t : State) (hready : Ready s) (hle : 1 + (n + 1) ≤ runBound)
    (hrun : drive n (setSeq (⟨.acq, 0⟩ :: rest) (accept i s)) = setSeq (⟨.acq, k⟩ :: rest) t)
    (hline : (linesOf .acq)[k]? = some (.test f))
    (hflow : f t.params { t.block with seq := ⟨.acq, k⟩ :: rest } = .stop st) (hinfo : t.block.attempts = info) :
    exec i s = .next (respond st info (setBlock { t.block with seq := [], busy := s.block.busy } t)) := by
  have hall := drive_trans (h.begins s) (drive_snoc hrun (tick_stop k rest f st t hline hflow))
  have hlength := h.length_le
  exact exec_ended i st _ _ _ s t hready (by omega) hall (h.bottom k) ((h.info st _).trans hinfo)

/-! ### A failing first transfer (spec/60 R204) -/

/-- `ACQ` from its first line to its first transfer, which fails. -/
theorem acq_first_transfer_failed (rest : List Position) (fs : List Bool) (s : State) (hf : s.env.fails = true :: fs) :
    drive (1 + (1 + (1 + 1))) (setSeq (⟨.acq, 0⟩ :: rest) s) =
      raiseBusError (setSeq (⟨.xfer, 0⟩ :: ⟨.acq, 2⟩ :: rest)
        (lostFrame fs (updated (fun _ b => { b with attempts := 1, lastErr := .none }) s))) := by
  let s1 := updated (fun _ b => { b with attempts := satinc b.attempts }) (begun s)
  have hcount := tick_assign .acq 1 rest (fun _ b => { b with attempts := satinc b.attempts }) (begun s) rfl (fun _ => rfl)
  have hcall := tick_call .acq 2 rest (fun _ _ => .xfer) s1 rfl
  have hfail := tick_busBuf_failed .xfer 0 (⟨.acq, 2⟩ :: rest) fs s1 rfl hf
  exact drive_cons (tick_begun rest s) (drive_cons hcount (drive_cons hcall ((drive_one _).trans hfail)))

/-- Settles O42: acceptance, the first attempt, its failing transfer, and the end with `ATTEMPTS` = 1. -/
theorem acquisitionBusErrorReportsAttempts : Obligations.AcquisitionBusErrorReportsAttempts := by
  intro i s fs hi hready hf
  obtain ⟨rest, h⟩ := exists_acquires hi
  have hlength := h.length_le
  have hbound : rest.length + (1 + (1 + (1 + 1))) ≤ runBound := by unfold runBound; omega
  have hrun := drive_trans (h.begins s) (acq_first_transfer_failed rest fs (accept i s) hf)
  have hexec := exec_busErr i 1 _ _ s _ hready hbound hrun ((getLast_op _ _ _).trans (h.bottom 2))
    (fun b hb => (h.info _ b).trans hb)
  exact ⟨_, hexec, rfl, rfl⟩

/-! ### No configuration to recover with (spec/60 R206, R210) -/

theorem boundReached_eq_true_iff {p : Params} {b : Block} :
    boundReached p b = true ↔ p.maxAttempts ≠ 0 ∧ p.maxAttempts.toNat ≤ b.attempts.toNat := by
  simp only [boundReached, Bool.and_eq_true, decide_eq_true_eq]

/-- Settles O40: the attempt is misaligned, the bound is tested, and then whether there is a configuration. -/
theorem acqWithoutConfigurationStops : Obligations.AcqWithoutConfigurationStops := by
  intro s bad fs bs hready hcfg hbad hfails hbytes
  let t := misread bad fs bs (begun (accept .acq s))
  have hmagic := hbad.matches s.params
  have hrun : drive (1 + 9) (setSeq [⟨.acq, 0⟩] (accept .acq s)) = setSeq [⟨.acq, 7⟩] t :=
    drive_cons (tick_begun [] (accept .acq s)) (misaligned_run [] bad fs bs (begun (accept .acq s)) hbad hfails hbytes)
  have hblock : { t.block with seq := [], busy := s.block.busy } = { s.block with
      fb := fbStore s.params bad, magicOk := false
      seqOk := sequenceMatches s.params (fbStore s.params bad), fbValid := false
      attempts := 1, lastErr := .framing, seq := [] } := by
    simp [t, misread, attempted, hmagic, begun, updated, satinc]
  by_cases hmax : s.params.maxAttempts = 1
  · have hbound : boundReached s.params t.block = true := boundReached_eq_true_iff.mpr (by
      show s.params.maxAttempts ≠ 0 ∧ s.params.maxAttempts.toNat ≤ 1
      simp [hmax])
    have hexec := exec_acquisition_stops .acq .errFraming 1 7 _ _ s t hready (by decide) hrun rfl (if_pos hbound) rfl
    rw [if_pos hmax]
    exact ⟨_, hexec, hblock, rfl, rfl, rfl⟩
  · have hbound : boundReached s.params t.block = false := boundReached_eq_false_iff.mpr (by
      show s.params.maxAttempts = 0 ∨ 1 < s.params.maxAttempts.toNat
      bv_omega)
    have htest := tick_next 7 [] _ t rfl (if_neg (Bool.eq_false_iff.mp hbound))
    have hexec := exec_acquisition_stops .acq .cfgUnset 1 8 _ _ s t hready (by decide) (drive_snoc hrun htest) rfl (if_pos hcfg)
      rfl
    rw [if_neg hmax]
    exact ⟨_, hexec, hblock, rfl, rfl, rfl⟩

/-! ### The last attempt of the bound (spec/60 R208, spec/43 R155) -/

/-- A torn attempt up to the test of the bound: one log event of kind 2 (spec/60 R203). -/
theorem torn_run (rest : List Position) (torn : List Byte) (fs : List Bool) (bs : List Byte) (s : State)
    (htorn : TornFrame torn) (hfails : s.env.fails = false :: fs) (hbytes : s.env.bytes = torn ++ bs) :
    drive (6 + (1 + (1 + (1 + 1)))) (setSeq (⟨.acq, 1⟩ :: rest) s) =
      setSeq (⟨.acq, 15⟩ :: rest) (rejected torn fs bs s) := by
  let u := attempted torn fs bs s
  obtain ⟨hmagic, hseq⟩ : u.block.magicOk = true ∧ u.block.seqOk = false := htorn.matches s.params
  have hattempt := attempt_run rest torn fs bs s htorn.size hfails hbytes
  have haligned := tick_test .acq 4 rest (fun _ b => if b.magicOk = false then .next else .goto 12) u rfl
  simp only [hmagic, Bool.true_eq_false, if_false, follow, setSeq_setSeq] at haligned
  have htest := tick_next 12 rest _ u rfl (if_pos hseq)
  have hkind := tick_assign .acq 13 rest (fun _ b => { b with lastErr := .sequence }) u rfl (fun _ => rfl)
  have hlog := tick_log .acq 14 rest .sequence (updated (fun _ b => { b with lastErr := .sequence }) u) rfl
  exact drive_trans hattempt (drive_cons haligned (drive_cons htest (drive_cons hkind ((drive_one _).trans hlog))))

/-- `ACQ` from its first line over torn frames with the bound not reached: at `step1` for the next attempt. -/
theorem acq_torn_run (rest : List Position) (torn : List (List Byte)) (fs : List Bool) (bs : List Byte) (s : State)
    (htorn : ∀ f ∈ torn, TornFrame f) (hbound : torn.length < s.params.maxAttempts.toNat)
    (hfails : s.env.fails = List.replicate torn.length false ++ fs) (hbytes : s.env.bytes = torn.flatten ++ bs) :
    drive (1 + 12 * torn.length) (setSeq (⟨.acq, 0⟩ :: rest) s) =
      setSeq (⟨.acq, 1⟩ :: rest) (retried torn fs bs (begun s)) :=
  drive_cons (tick_begun rest s) (retries_run rest torn fs bs (begun s) htorn
    (.inr (show 0 + torn.length < s.params.maxAttempts.toNat by omega)) hfails hbytes)

/-- What an attempt that failed validation leaves at the test of the bound, where its kind is recorded and logged; for the two
kinds this is `misread` and `rejected`. -/
def failedAs (kind : ErrKind) (f : List Byte) (fs : List Bool) (bs : List Byte) (s : State) : State :=
  logError kind (updated (fun _ b => { b with lastErr := kind }) (attempted f fs bs s))

section
variable {i : Instr} {rest : List Position} (h : Acquires i rest) {s : State} (hready : Ready s) {torn : List (List Byte)}
  {f : List Byte} {fs : List Bool} {bs : List Byte} (htorn : ∀ g ∈ torn, TornFrame g)
  (hlast : torn.length + 1 = s.params.maxAttempts.toNat)
  (hfails : s.env.fails = List.replicate (torn.length + 1) false ++ fs) (hbytes : s.env.bytes = torn.flatten ++ (f ++ bs))
include h hready htorn hlast hfails hbytes

/-- An acquisition whose attempt number `MAX_ATTEMPTS` fails validation after torn frames, as the last attempt's run from `step1`
to the test of the bound has it. -/
theorem exec_exhausted (kind : ErrKind) (st : Status) (k m : Nat) (hm : m ≤ 10)
    (hattempt : ∀ u : State, u.env.fails = false :: fs → u.env.bytes = f ++ bs →
      drive m (setSeq (⟨.acq, 1⟩ :: rest) u) = setSeq (⟨.acq, k⟩ :: rest) (failedAs kind f fs bs u))
    (hline : (linesOf .acq)[k]? = some (.test (fun p b => if boundReached p b then .stop st else .next))) :
    exec i s = .next { s with
      block := { s.block with
        fb := fbStore s.params f
        magicOk := magicMatches s.params (fbStore s.params f), seqOk := sequenceMatches s.params (fbStore s.params f)
        fbValid := magicMatches s.params (fbStore s.params f) && sequenceMatches s.params (fbStore s.params f)
        attempts := s.params.maxAttempts, lastErr := kind, seq := [] }
      env := { s.env with fails := fs, bytes := bs }
      rsp := some (responseWord st s.params.maxAttempts)
      hist := History.add
        ([.request (encode i)] ++ retryEvents (fbBytes s.params s.block.fb) 1 torn f
          ++ [.log (errCode kind) s.params.maxAttempts, responseEvent st s.params.maxAttempts]) s.hist } := by
  have hcount : BitVec.ofNat 16 (0 + torn.length + 1) = s.params.maxAttempts := by
    rw [Nat.zero_add, hlast, BitVec.ofNat_toNat, BitVec.setWidth_eq]
  have hfails' : s.env.fails = List.replicate torn.length false ++ false :: fs := by
    simpa [List.replicate_succ'] using hfails
  have henv := retried_env torn (false :: fs) (f ++ bs) (begun (accept i s)) hfails' hbytes
  have hretries := acq_torn_run rest torn (false :: fs) (f ++ bs) (accept i s) htorn
    (show torn.length < s.params.maxAttempts.toNat by omega) hfails' hbytes
  have hrun := drive_trans hretries (hattempt _ (congrArg Env.fails henv) (congrArg Env.bytes henv))
  rw [failedAs, attempted_retried f torn 0 _ _ _ _ _ (fun g hg => (htorn g hg).size) rfl (by omega), hcount] at hrun
  have hbound : boundReached s.params { s.block with attempts := s.params.maxAttempts } = true :=
    boundReached_eq_true_iff.mpr ⟨fun hzero => by simp [hzero] at hlast, le_rfl⟩
  have hsteps : 1 + (1 + 12 * torn.length + m + 1) ≤ runBound := by unfold runBound; omega
  rw [exec_acquisition_stops h st s.params.maxAttempts k _ _ s _ hready hsteps hrun hline (if_pos hbound) rfl,
    History.add_append, History.add_append]
  rfl

end

/-! ### Every end at the bound (spec/60 R208) -/

/-- What the failed branches of `ACQ` have recorded, by line: at its `step2` up to the test of the bound (lines 5 to 7), and at its
`step3` (lines 13 to 15). -/
structure FailureRecorded (b : Block) (k : Nat) : Prop where
  misaligned : 5 ≤ k → k ≤ 7 → b.magicOk = false ∧ b.fbValid = false
  framing : 6 ≤ k → k ≤ 7 → b.lastErr = .framing
  torn : 13 ≤ k → k ≤ 15 → b.magicOk = true ∧ b.seqOk = false ∧ b.fbValid = false
  sequence : 14 ≤ k → k ≤ 15 → b.lastErr = .sequence

namespace FailureRecorded

variable {p : Params} {b : Block} {k j : Nat} {f : Params → Block → Flow} {line : Line} {q : List Position}

theorem of_other (h : (k < 5 ∨ 7 < k) ∧ (k < 13 ∨ 15 < k)) : FailureRecorded b k :=
  ⟨fun _ _ => by omega, fun _ _ => by omega, fun _ _ => by omega, fun _ _ => by omega⟩

/-- The sequencer is no part of it. -/
theorem withSeq (h : FailureRecorded b k) (q : List Position) : FailureRecorded { b with seq := q } k :=
  ⟨h.misaligned, h.framing, h.torn, h.sequence⟩

/-- A line that is neither a test nor an assignment enters no branch: 4 and 12 are tests, 5 and 13 assignments. -/
theorem next (h : FailureRecorded b k) (hline : (linesOf .acq)[k]? = some line) (htest : ∀ f, line ≠ .test f)
    (hassign : ∀ f, line ≠ .assign f) : FailureRecorded b (k + 1) := by
  have h4 : k ≠ 4 := by rintro rfl; exact htest _ (Option.some.inj hline).symm
  have h12 : k ≠ 12 := by rintro rfl; exact htest _ (Option.some.inj hline).symm
  have h5 : k ≠ 5 := by rintro rfl; exact hassign _ (Option.some.inj hline).symm
  have h13 : k ≠ 13 := by rintro rfl; exact hassign _ (Option.some.inj hline).symm
  exact ⟨fun _ _ => h.misaligned (by omega) (by omega), fun _ _ => h.framing (by omega) (by omega),
    fun _ _ => h.torn (by omega) (by omega), fun _ _ => h.sequence (by omega) (by omega)⟩

/-- The assignments on the branches record the kind. -/
theorem assigned (h : FailureRecorded b k) {g : Params → Block → Block} (hline : (linesOf .acq)[k]? = some (.assign g)) :
    FailureRecorded (g p b) (k + 1) := by
  obtain ⟨hk, hg⟩ := List.getElem?_eq_some_iff.mp hline
  replace hk : k < 17 := hk
  interval_cases k <;> cases hg
  · exact .of_other (by decide)
  · exact .of_other (by decide)
  · exact .of_other (by decide)
  · exact ⟨fun _ _ => h.misaligned le_rfl (by decide), fun _ _ => rfl, fun _ _ => by omega, fun _ _ => by omega⟩
  · exact ⟨fun _ _ => by omega, fun _ _ => by omega, fun _ _ => h.torn le_rfl (by decide), fun _ _ => rfl⟩

/-- A test that goes on enters a branch, with the verdict of the validation, or leaves it. -/
theorem tested (hloop : LoopAssertion p b k) (htest : AcqTest k f) (hflow : f p b = .next) : FailureRecorded b (k + 1) := by
  cases htest with
  | magic =>
    obtain ⟨-, -, hvalid⟩ := hloop.judged (.inl rfl)
    have hmagic : b.magicOk = false := by simpa [ite_eq_iff] using hflow
    rw [hmagic, Bool.false_and] at hvalid
    exact ⟨fun _ _ => ⟨hmagic, hvalid⟩, fun _ _ => by omega, fun _ _ => by omega, fun _ _ => by omega⟩
  | sequence =>
    obtain ⟨-, -, hvalid⟩ := hloop.judged (.inr rfl)
    have hseq : b.seqOk = false := by simpa [ite_eq_iff] using hflow
    rw [hseq, Bool.and_false] at hvalid
    exact ⟨fun _ _ => by omega, fun _ _ => by omega, fun _ _ => ⟨hloop.aligned rfl, hseq, hvalid⟩, fun _ _ => by omega⟩
  | _ => exact .of_other (by decide)

/-- No call stands on the branches. -/
theorem called {g : Params → Block → Instr} (hline : (linesOf .acq)[k]? = some (.call g)) : FailureRecorded b (k + 1) := by
  obtain ⟨hk, hg⟩ := List.getElem?_eq_some_iff.mp hline
  replace hk : k < 17 := hk
  interval_cases k <;> cases hg <;> exact .of_other (by decide)

/-- A jump leaves the branches. -/
theorem jumped (htest : AcqTest k f) (hflow : f p b = .goto j) : FailureRecorded b j := by
  obtain rfl | ⟨-, rfl, -⟩ | ⟨-, rfl, -⟩ := htest.goto_cases hflow <;> exact .of_other (by decide)

end FailureRecorded

/-- What holds whenever the engine goes on with an acquisition: the assertions at the lines of `ACQ` (those of `ReadInvariant`,
for some read operation), and what its failed branches have recorded. -/
structure LoopInvariant (p : Params) (b : Block) : Prop where
  asserted : ReadInvariant .rdr (fun p b => { b with rngRaw := memRead4 p b.fb Config.offRange, rvR := true }) p b
  recorded : ∀ top rest, b.seq = top :: rest → top.op = .acq → FailureRecorded b top.step

/-- `ACQ` transfers by its calls only. -/
theorem acq_transfers_by_calls :
    Line.busBuf ∉ linesOf .acq ∧ Line.readLen ∉ linesOf .acq ∧ Line.discard ∉ linesOf .acq := by
  simp [linesOf, acqLines]

theorem TickEffect.keeps_loopInvariant {p : Params} {b b' : Block} (e : TickEffect p b b') (h : LoopInvariant p b)
    (hgoes : b'.seq ≠ []) : LoopInvariant p b' := by
  obtain ⟨hasserted, hrecorded⟩ := h
  refine ⟨e.keeps_readInvariant rdr_reads hasserted hgoes, fun pos rest' hpos hacq => ?_⟩
  obtain ⟨hnoFrame, hnoLength, hnoDiscard⟩ := acq_transfers_by_calls
  have hmem {top : Position} {line : Line} (hline : (linesOf top.op)[top.step]? = some line) (hop : top.op = .acq) :
      line ∈ linesOf .acq := hop ▸ List.mem_of_getElem? hline
  cases e with
  | idle => exact hrecorded pos rest' hpos hacq
  | bufferError => exact absurd rfl hgoes
  | byteError => exact absurd rfl hgoes
  | testStop => exact absurd rfl hgoes
  | finish => exact absurd rfl hgoes
  | transfer top rest rx hseq hline => cases hpos; exact absurd (hmem hline hacq) hnoFrame
  | length top rest l hseq hline => cases hpos; exact absurd (hmem hline hacq) hnoLength
  | loopEnd top rest hseq hline => cases hpos; exact absurd (hmem hline hacq) hnoDiscard
  | discard top rest hseq hline =>
    obtain rfl : top = pos := List.head_eq_of_cons_eq (hseq.symm.trans hpos)
    exact absurd (hmem hline hacq) hnoDiscard
  | call => cases hpos; exact .of_other (by simp)
  | returned top caller below hseq hline =>
    cases hpos
    obtain ⟨f, _, _, hcall, -⟩ := (List.isChain_cons_cons.mp (hseq ▸ hasserted.calls)).1
    rw [show caller.op = .acq from hacq] at hcall
    exact .called hcall
  | assign top rest f hseq hline =>
    cases hpos
    rw [show top.op = .acq from hacq] at hline
    exact ((hrecorded top _ hseq hacq).assigned hline).withSeq _
  | event top rest hseq hline =>
    cases hpos
    rw [show top.op = .acq from hacq] at hline
    obtain hline | ⟨kind, hline⟩ := hline <;>
      exact ((hrecorded top _ hseq hacq).next hline (by simp) (by simp)).withSeq _
  | testNext top rest f hseq hline hflow =>
    cases hpos
    exact (FailureRecorded.tested ((hasserted.top top _ hseq).loop hacq) (acqTest_of_line hline).2 hflow).withSeq _
  | testGoto top rest f k hseq hline hflow =>
    cases hpos
    exact (FailureRecorded.jumped (acqTest_of_line hline).2 hflow).withSeq _

theorem LoopInvariant.start (i : Instr) {p : Params} {b : Block} (hseq : b.seq = [⟨i, 0⟩]) : LoopInvariant p b where
  asserted := by
    refine ⟨hseq ▸ .single i, hseq ▸ .singleton _, fun top rest h => ?_⟩
    cases hseq.symm.trans h
    exact .start i
  recorded top rest h _ := by
    cases hseq.symm.trans h
    exact .of_other (by simp)

/-- The tests of the bound: the status they end `ACQ` with and the line they stand at. -/
inductive BoundTest : Status → Nat → Prop where
  | framing : BoundTest .errFraming 7
  | sequence : BoundTest .errSequence 15

/-- These statuses come from the tests of the bound only. -/
theorem AcqTest.stops_at_bound {k j : Nat} {f : Params → Block → Flow} {p : Params} {b : Block} {st : Status}
    (h : AcqTest k f) (hflow : f p b = .stop st) (hbound : BoundTest st j) : k = j ∧ boundReached p b = true := by
  cases hbound <;> cases h <;> simp [ite_eq_iff] at hflow <;> exact ⟨rfl, hflow⟩

theorem EndsWith.at_bound {s : State} {st : Status} {k : Nat} (h : EndsWith s st) (hbound : BoundTest st k) :
    (∃ rest, s.block.seq = ⟨.acq, k⟩ :: rest) ∧ boundReached s.params s.block = true ∧
      (tick s).block = { s.block with seq := [], busy := false } := by
  cases h with
  | ok => cases hbound
  | busErr => cases hbound
  | stop top rest f st hseq hline hflow =>
    obtain ⟨hop, htest⟩ := acqTest_of_line hline
    obtain ⟨hstep, hreached⟩ := htest.stops_at_bound hflow hbound
    refine ⟨⟨rest, by rw [hseq, ← hop, ← hstep]⟩, hreached, ?_⟩
    rw [tick_line s top rest _ hseq hline, runLine, hflow]
    rfl

/-- EVERY ACQUISITION THAT ENDS AT THE BOUND, after whatever attempts and recoveries: `ATTEMPTS` has come to `MAX_ATTEMPTS` and no
further, the failure is recorded, and no result is written. -/
theorem exec_ends_at_bound {i : Instr} {s t : State} {w : RspWord} {st : Status} {k : Nat}
    (hi : i ∈ [Instr.acq, .rdr, .rdi, .rdrg, .rdig]) (hready : Ready s) (hexec : exec i s = .next t) (hrsp : t.rsp = some w)
    (hbound : BoundTest st k) (hw : w.extractLsb' 16 4 = statusCode st) :
    s.params.maxAttempts ≠ 0 ∧ w = responseWord st s.params.maxAttempts ∧ t.block.attempts = s.params.maxAttempts ∧
      t.block.fault = false ∧ results t.block = results s.block ∧ FailureRecorded t.block k := by
  obtain ⟨hnone, -⟩ | ⟨u, st', hinv, hparams, -, hnoFault, -, -, ht, hends, hresponse⟩ :=
    exec_ends i s t (LoopInvariant s.params) hready hexec (.start i rfl) (fun _ _ h e hgoes => e.keeps_loopInvariant h hgoes)
  · exact absurd (hnone.symm.trans hrsp) (by simp)
  obtain rfl : w = responseWord st' (responseInfo i st' t.block) := Option.some.inj (hrsp.symm.trans hresponse)
  obtain rfl : st' = st := statusCode_injective ((status_responseWord _ _).symm.trans hw)
  obtain ⟨⟨rest, hseq⟩, hreached, hblock⟩ := hends.at_bound hbound
  rw [← ht] at hblock
  obtain ⟨hmax, hle⟩ := boundReached_eq_true_iff.mp hreached
  rw [hparams] at hmax hle
  have hcount : t.block.attempts = s.params.maxAttempts := by
    obtain ⟨t', hexec', -, -, -, hge⟩ := boundedAcquisitionEnds i s hi hready hmax
    cases hexec.symm.trans hexec'
    refine BitVec.eq_of_toNat_eq (le_antisymm hge ?_)
    rw [hblock]
    exact hle
  have hinfo : responseInfo i st' t.block = t.block.attempts := (exists_acquires hi).elim fun _ h => h.info st' t.block
  have hfailed : (responseWord st' (responseInfo i st' t.block)).extractLsb' 16 4 ≠ 0 := by
    rw [hw]
    cases hbound <;> decide
  have hresults := failedReadWritesNoResult i s t _ hready hexec hrsp hfailed
  have hrecorded : FailureRecorded t.block k := by
    obtain ⟨h1, h2, h3, h4⟩ := hinv.recorded _ _ hseq rfl
    rw [hblock]
    exact ⟨h1, h2, h3, h4⟩
  exact ⟨hmax, by rw [hinfo, hcount], hcount, by rw [hblock]; exact hnoFault, hresults, hrecorded⟩

/-- Settles O41: the runs over torn frames to the bound (`exec_exhausted`), and every end at the bound (`exec_ends_at_bound`). -/
theorem exhaustedRetriesAreReported : Obligations.ExhaustedRetriesAreReported := by
  intro i s hi hready
  obtain ⟨rest, h⟩ := exists_acquires hi
  refine ⟨fun torn f fs bs htorn hlast hfails hbytes => ⟨fun hf => ?_, fun hf => ?_⟩, fun t w hexec hrsp =>
    ⟨fun hw => ?_, fun hw => ?_⟩⟩
  · have hexec := exec_exhausted h hready htorn hlast hfails hbytes .framing .errFraming 7 9 (by decide)
      (fun u hu hu' => misaligned_run rest f fs bs u hf hu hu') rfl
    rw [hf.matches s.params, Bool.false_and] at hexec
    exact hexec
  · have hexec := exec_exhausted h hready htorn hlast hfails hbytes .sequence .errSequence 15 10 (by decide)
      (fun u hu hu' => torn_run rest f fs bs u hf hu hu') rfl
    obtain ⟨hmagic, hseq⟩ := hf.matches s.params
    rw [hmagic, hseq, Bool.and_false] at hexec
    exact hexec
  · obtain ⟨hmax, hword, hcount, hnoFault, hresults, hrecorded⟩ :=
      exec_ends_at_bound hi hready hexec hrsp .framing hw
    obtain ⟨hmagic, hvalid⟩ := hrecorded.misaligned (by decide) le_rfl
    exact ⟨hmax, hword, hcount, hrecorded.framing (by decide) le_rfl, hmagic, hvalid, hnoFault, hresults⟩
  · obtain ⟨hmax, hword, hcount, hnoFault, hresults, hrecorded⟩ :=
      exec_ends_at_bound hi hready hexec hrsp .sequence hw
    obtain ⟨hmagic, hseq, hvalid⟩ := hrecorded.torn (by decide) le_rfl
    exact ⟨hmax, hword, hcount, hrecorded.sequence (by decide) le_rfl, hmagic, hseq, hvalid, hnoFault, hresults⟩

end Sys2Proof.Machine

/-! SUPPORT. The statements of the reset and hazards family (spec/70): a block that waits, and a retry without a bound. -/

namespace Sys2Proof.Machine

/-- Settles O11: with nothing presented the step is the engine's (`step_unattended`), and an idle engine stands still. -/
theorem idleBlockWaits : Obligations.IdleBlockWaits := by
  intro s hidle hhost
  rw [step_unattended s hhost, tick_idle s hidle]

/-! ### A retry without a bound (spec/70 R237, spec/43 R155) -/

/-- Retries do not end the operation. -/
theorem retried_busy (torn : List (List Byte)) (fs : List Bool) (bs : List Byte) (s : State) :
    (retried torn fs bs s).block.busy = s.block.busy := by
  induction torn generalizing s with
  | nil => rfl
  | cons f more ih => exact (ih _).trans rfl

/-- `ATTEMPTS` counts every torn frame and stays at 0xFFFF once there (spec/10 R23). -/
theorem toNat_retried_attempts (torn : List (List Byte)) (fs : List Bool) (bs : List Byte) (s : State) :
    (retried torn fs bs s).block.attempts.toNat = min (s.block.attempts.toNat + torn.length) 65535 := by
  induction torn generalizing s with
  | nil =>
    have hword := s.block.attempts.isLt
    simp only [retried_nil, List.length_nil]
    omega
  | cons f more ih =>
    have hone (fs' : List Bool) (bs' : List Byte) :
        (rejected f fs' bs' s).block.attempts.toNat = min (s.block.attempts.toNat + 1) 65535 :=
      toNat_satinc s.block.attempts
    rw [retried_cons, ih, hone, List.length_cons]
    omega

/-- Settles O44: acceptance, line 0 of `ACQ`, and the run over the torn frames (`retries_run`), which without a bound is back at
`step1` however many they are. -/
theorem unboundedRetryGoesOn : Obligations.UnboundedRetryGoesOn := by
  intro s torn fs bs _ hmax _ htorn hfails hbytes
  let t := retried torn fs bs (begun (accept .acq s))
  have hretries := retries_run [] torn fs bs (begun (accept .acq s)) htorn (.inl hmax) hfails hbytes
  have hrun : drive (1 + 12 * torn.length) (accept .acq s) = setSeq [⟨.acq, 1⟩] t :=
    drive_cons (tick_begun [] (accept .acq s)) hretries
  have hbusy : t.block.busy = true := retried_busy torn fs bs (begun (accept .acq s))
  have hcount : t.block.attempts.toNat = min (0 + torn.length) 65535 :=
    toNat_retried_attempts torn fs bs (begun (accept .acq s))
  have hattempts : t.block.attempts = BitVec.ofNat 16 (min torn.length 65535) := by
    apply BitVec.eq_of_toNat_eq
    rw [hcount, BitVec.toNat_ofNat]
    omega
  have henv : t.env = { s.env with fails := fs, bytes := bs } :=
    retried_env torn fs bs (begun (accept .acq s)) hfails hbytes
  refine ⟨1 + 12 * torn.length, ?_⟩
  rw [hrun]
  exact ⟨hbusy, rfl, hattempts, henv⟩

end Sys2Proof.Machine
